-- ==== Sys2Proof/Word.lean ====
section
/-! DEFINITION. The machine's word types: stream bytes, 16-bit stream fields, 32-bit host registers, the 8×8 block shape, and the exact spatial-domain sample. -/

namespace Sys2Proof

/-- One byte of the input stream (20_memory.md R100, space `IN`). -/
abbrev Byte := BitVec 8

/-- A big-endian 16-bit stream field: a segment length, the frame height or width (R105, R207). -/
abbrev Half := BitVec 16

/-- A host register (10_state.md R50). -/
abbrev Word := BitVec 32

/-- A block: 64 cells in natural (row-major) order, cell `8·y + x` (00_scope.md R10, 43_block_transform.md R280). -/
abbrev Block (α : Type) := Vector α 64

/-- A spatial-domain sample, held EXACTLY (43_block_transform.md R289: the reference value of every real-valued
stage is the exact real result).  Eight integers `a` stand for the real number
`(a[0] + a[1]·2cos(1π/16) + … + a[7]·2cos(7π/16)) / 16`; every IDCT output of integer coefficients (R287)
has this form (log entry 3). -/
abbrev Sample := Vector Int 8

end Sys2Proof
end

