-- ==== Sys2Proof/Syntax.lean ====
section
/-! DEFINITION. The instructions: one constructor per row of spec/opcode_table.json (37 rows), with the operands the spec gives each, and the forms in which the host's accesses and port handshakes arrive. -/

namespace Sys2Proof

/-- What a Huffman slot holds (10_state.md R35, 41_huffman.md R230): `counts[l-1]` is the number of codes of length
`l`, and `symbols` the symbols in the order (code length, code value). -/
structure HuffTable where
  counts  : Vector Byte 16
  symbols : List Byte
  deriving DecidableEq, Repr, Inhabited

/-- The two resumable parts of a DQT segment (44_segment_parser.md R315): its head, which checks the length and sets the
pseudocode's `rem`, and each 65-byte table record, which takes effect as soon as it is complete. -/
inductive DqtPart where
  | header (L : Half)
  | record (tq : Byte) (qzz : Block Byte)
  deriving DecidableEq, Repr

/-- The DHT payload (30_encoding.md R144).  `table.symbols` is empty when a header check fails, since then no symbol
byte is taken (R318). -/
structure DhtBody where
  ref   : Byte
  table : HuffTable
  deriving DecidableEq, Repr

/-- One frame component as SOF0 carries it: `C_i`, `HV_i`, `Tq_i` (R145). -/
structure FrameSpec where
  id : Byte
  hv : Byte
  tq : Byte
  deriving DecidableEq, Repr

/-- The SOF0 payload (R145).  `comps` is absent when the length or channel-count check fails, since then no component
byte is taken (R319). -/
structure Sof0Body where
  precision : Byte
  height    : Half
  width     : Half
  nf        : Byte
  comps     : Option (Vector FrameSpec 3)
  deriving DecidableEq, Repr

/-- One scan component as SOS carries it: `Cs_j`, `T_j` (R146). -/
structure ScanSpec where
  cs : Byte
  t  : Byte
  deriving DecidableEq, Repr

/-- The part of the SOS payload after `Ns` (R146): three components and the three-byte trailer, which is not validated. -/
structure SosTail where
  comps   : Vector ScanSpec 3
  trailer : Vector Byte 3
  deriving DecidableEq, Repr

/-- The SOS payload (R146).  `tail` is absent when the length or channel-count check fails (R322). -/
structure SosBody where
  ns   : Byte
  tail : Option SosTail
  deriving DecidableEq, Repr

/-- Every row of spec/opcode_table.json, in the table's order.  For the segments that carry a length, a missing body
means that `L < 2`, the case in which R313 raises before any payload byte is taken. -/
inductive Instr where
  /-- SOI (R311): the two bytes taken in EXPECT_SOI, whatever they are. -/
  | soi (a b : Byte)
  /-- SOI_IN_SEGMENTS (R328). -/
  | soiInSegments
  /-- EOI (R332): the two bytes taken in EXPECT_EOI, whatever they are. -/
  | eoi (a b : Byte)
  /-- EOI_IN_SEGMENTS (R329). -/
  | eoiInSegments
  /-- RSTn (R330). -/
  | rstn (n : BitVec 3)
  /-- DQT (R315). -/
  | dqt (part : DqtPart)
  /-- DHT (R318). -/
  | dht (L : Half) (body : Option DhtBody)
  /-- SOF0 (R319), while no frame exists. -/
  | sof0 (L : Half) (body : Option Sof0Body)
  /-- SOF0_SECOND (R331). -/
  | sof0Second
  /-- SOF2 (R321). -/
  | sof2 (L : Half)
  /-- SOS (R322), while a frame exists. -/
  | sos (L : Half) (body : Option SosBody)
  /-- SOS_BEFORE_SOF0 (R334). -/
  | sosBeforeSof0
  /-- APP0 (R325). -/
  | app0 (L : Half) (payload : List Byte)
  /-- COM (R326). -/
  | com (L : Half) (payload : List Byte)
  /-- OTHER (R327): any code of R153's OTHER row. -/
  | other (cc : Byte) (L : Half) (payload : List Byte)
  /-- MARKER_PREFIX_ERR (R312): a byte other than 0xFF where a marker is due. -/
  | markerPrefixErr (p : Byte)
  /-- DATA (R202): an entropy-coded byte other than 0xFF. -/
  | data (b : Byte)
  /-- STUFF (R202): `FF 00`, the data byte 0xFF. -/
  | stuff
  /-- ECS_RST (R202): `FF D0` to `FF D7` inside the scan. -/
  | ecsRst (n : BitVec 3)
  /-- ECS_MARKER (R202): any other `FF cc` inside the scan. -/
  | ecsMarker (cc : Byte)
  /-- DC_ZERO (R373): size category 0. -/
  | dcZero
  /-- DC_DIFF (R373): size category `s`, with its additional bits, first taken first. -/
  | dcDiff (s : Byte) (a : List Bool)
  /-- DC_TOO_WIDE (R205): size category 17 to 255. -/
  | dcTooWide (s : Byte)
  /-- EOB (R375). -/
  | eob
  /-- ZRL (R376). -/
  | zrl
  /-- ZSR (R378): size 0, run 1 to 14. -/
  | zsr (r : BitVec 4)
  /-- COEF (R377): run `r`, size `s` from 1 to 15, and the additional bits, first taken first.  With none taken it is the RS
  byte alone, whose run moves the cursor before any additional bit is taken; with all `s` of them it places their value
  (log entry 28). -/
  | coef (r s : BitVec 4) (a : List Bool)
  /-- START (R420); `hi` is bits 31:2 of the CTRL write, ignored. -/
  | start (hi : BitVec 30)
  /-- SOFT_RESET (R421): CTRL bit 1 set, bit 0 clear. -/
  | softReset (hi : BitVec 30)
  /-- SOFT_RESET_AND_START (R422): both CTRL bits set. -/
  | softResetAndStart (hi : BitVec 30)
  /-- CTRL_NOP (R423): neither CTRL bit set. -/
  | ctrlNop (hi : BitVec 30)
  /-- IRQ_EN_WRITE (R424): the data written at offset 0x30. -/
  | irqEnWrite (d : Word)
  /-- IRQ_ACK (R425): the data written at offset 0x34. -/
  | irqAck (d : Word)
  /-- RO_WRITE (R426): a write at any other word offset. -/
  | roWrite (off : Byte) (d : Word)
  /-- REG_READ (R427): a read at any word offset. -/
  | regRead (off : Byte)
  /-- STREAM_BYTE (R428): the host offers one byte with its `last` flag. -/
  | streamByte (b : Byte) (last : Bool)
  /-- PIXEL_ACCEPT (R429): the sink accepts the pixel the engine presents; the row's `x, y, r, g, b` are outputs. -/
  | pixelAccept
  deriving DecidableEq, Repr

/-- The widths a host bus can ask for; only the 32-bit one has a meaning (20_memory.md R102). -/
inductive AccessWidth where
  | w8 | w16 | w32
  deriving DecidableEq, Repr

/-- A host access to the 256-byte register window at byte offset `off` (R50, R102).  A read has `write = false` and its
`data` is ignored. -/
structure Access where
  write : Bool
  off   : Byte
  width : AccessWidth
  data  : Word
  deriving DecidableEq, Repr

/-- One action of the host, which the block decodes into an instruction of class H or a port handshake (R156, R428, R429). -/
inductive HostAction where
  | bus (a : Access)
  | offer (b : Byte) (last : Bool)
  | accept
  deriving DecidableEq, Repr

end Sys2Proof
end

