-- ==== Sys2Proof/Config.lean ====
section
/-! DEFINITION. The implementation parameters of 00_scope.md R7, and the free values: constants with no body, of which nothing can be proved. -/

namespace Sys2Proof.Config

/-- HUFF_SYM_CAP (R7, R235). -/
def huffSymCap : Nat := 256

/-- NUMBER_MAX_BITS (R7, R205). -/
def numberMaxBits : Nat := 16

/-- PRED_WIDTH (R7, R373). -/
def predWidth : Nat := 32

/-- COEF_WIDTH (R7, R263). -/
def coefWidth : Nat := 32

/-- MCU_BLOCK_CAP (R7, R320). -/
def mcuBlockCap : Nat := 675

/-- The constant MAGIC and REV fields of ID (10_state.md R51). -/
def idMagic : BitVec 24 := 0x4A5044#24

/-- ID.REV (R51). -/
def idRev : BitVec 8 := 0x07#8

/-- PIXEL_TOL is OPEN (R7, 92_eei_decisions.md D29): a non-negative number nobody fixed, here the fraction
`pixelTolNum / (pixelTolDenPred + 1)` (log entry 4). -/
opaque pixelTolNum : Nat

/-- The denominator of PIXEL_TOL, less one (log entry 4). -/
opaque pixelTolDenPred : Nat

/-- Free value: which of the admitted 8-bit values a channel takes (43_block_transform.md R289; log entry 4). -/
opaque freeChoice : Nat → Nat

/-- Free value: `bitbuf` after a reset or START (R70 "unspecified"; log entry 5). -/
opaque freeBitbuf : Nat → Byte

/-- Free value: the quantization entries after a reset or START (R70; log entry 5). -/
opaque freeQt : Nat → Vector (Block (BitVec 16)) 16

/-- Free value: the DC Huffman slot contents after a reset or START (R70; log entry 5). -/
opaque freeHtDc : Nat → Vector HuffTable 16

/-- Free value: the AC Huffman slot contents after a reset or START (R70; log entry 5). -/
opaque freeHtAc : Nat → Vector HuffTable 16

/-- Free value: the coefficient working block after a reset or START (R70; log entry 5). -/
opaque freeCoef : Nat → Block Int

/-- Free value: the AC cursor after a reset or START (R70; log entry 5). -/
opaque freeK : Nat → Fin 65

/-- Free value: the MCU sample buffer after a reset or START (R70; log entry 5). -/
opaque freeSamples : Nat → Vector (Vector (Block Sample) 225) 3

end Sys2Proof.Config
end

