-- ==== Sys2Proof/Machine/Cause.lean ====
section
/-! DEFINITION. The error kinds and causes of 60_exceptions.md R440 and R441, with their codes. -/

namespace Sys2Proof.Machine

/-- R440's kinds that are ever recorded with an error. -/
inductive Kind where
  | invalidFileFormat | unsupportedFeature | argumentError | implementationLimit
  deriving DecidableEq, Repr

/-- R441's causes, one per check. -/
inductive Cause where
  | soiMissing | markerPrefix | segmentLength | huffKraft | huffNotFound | acOverflow | eoiMissing | unexpectedMarker
  | componentRef | tableUndefined | truncated | frameParam
  | progressive | restart | markerInScan | channelCount | precision
  | numberWidth
  | huffCapacity | predRange | coefRange | mcuCapacity
  deriving DecidableEq, Repr

/-- R440's codes. -/
def Kind.code : Kind → BitVec 3
  | .invalidFileFormat => 1#3
  | .unsupportedFeature => 2#3
  | .argumentError => 3#3
  | .implementationLimit => 4#3

/-- R441's codes. -/
def Cause.code : Cause → Byte
  | .soiMissing => 0x01#8
  | .markerPrefix => 0x02#8
  | .segmentLength => 0x03#8
  | .huffKraft => 0x04#8
  | .huffNotFound => 0x05#8
  | .acOverflow => 0x06#8
  | .eoiMissing => 0x07#8
  | .unexpectedMarker => 0x08#8
  | .componentRef => 0x09#8
  | .tableUndefined => 0x0A#8
  | .truncated => 0x0B#8
  | .frameParam => 0x0C#8
  | .progressive => 0x10#8
  | .restart => 0x11#8
  | .markerInScan => 0x12#8
  | .channelCount => 0x13#8
  | .precision => 0x14#8
  | .numberWidth => 0x20#8
  | .huffCapacity => 0x30#8
  | .predRange => 0x31#8
  | .coefRange => 0x32#8
  | .mcuCapacity => 0x33#8

/-- R441: each cause belongs to exactly one kind. -/
def Cause.kind : Cause → Kind
  | .soiMissing | .markerPrefix | .segmentLength | .huffKraft | .huffNotFound | .acOverflow | .eoiMissing
  | .unexpectedMarker | .componentRef | .tableUndefined | .truncated | .frameParam => .invalidFileFormat
  | .progressive | .restart | .markerInScan | .channelCount | .precision => .unsupportedFeature
  | .numberWidth => .argumentError
  | .huffCapacity | .predRange | .coefRange | .mcuCapacity => .implementationLimit

end Sys2Proof.Machine
end

