-- ==== Sys2Proof/Machine/Operands.lean ====
section
/-! DEFINITION. Operand assembly (30_encoding.md R152, 40_bitreader.md R204), the numbers a Huffman table's counts give (41_huffman.md R231, R232), and the checks an instruction's own fields decide. -/

namespace Sys2Proof.Machine

/-- R152, R207: a big-endian 16-bit number from its first and second byte. -/
def u16 (hi lo : Byte) : Half := hi ++ lo

/-- The byte of a 16-bit number that stands first in the stream (R105). -/
def hiByte (v : Half) : Byte := v.extractLsb' 8 8

/-- The byte of a 16-bit number that stands second in the stream (R105). -/
def loByte (v : Half) : Byte := v.extractLsb' 0 8

/-- `HV[7:4]`, the horizontal sampling factor; `T[7:4]` and `RS[7:4]` likewise (R145, R151, R152). -/
def hiNibble (b : Byte) : BitVec 4 := b.extractLsb' 4 4

/-- `HV[3:0]`, the vertical sampling factor; `ref[3:0]`, `T[3:0]` and `RS[3:0]` likewise (R144 to R146, R151). -/
def loNibble (b : Byte) : BitVec 4 := b.extractLsb' 0 4

/-- The slot a 4-bit id names (R34, R35). -/
def slot (id : BitVec 4) : Fin 16 := ⟨id.toNat, id.isLt⟩

/-- `ref[4]`: 1 selects the AC registry and 0 the DC registry (R144, D17). -/
def refIsAc (ref : Byte) : Bool := ref.getLsbD 4

/-- The unsigned value of bits taken most significant first (R106, R149, R152). -/
def bitsValue (a : List Bool) : Nat := a.foldl (fun v b => 2 * v + b.toNat) 0

/-- R204's NextNumber on the additional bits `a`, first taken first: `raw` if the first bit is 1, else
`-(raw xor (2^n - 1))`; 0 for no bits. -/
def signedMagnitude (a : List Bool) : Int :=
  match a with
  | [] => 0
  | true :: _ => (bitsValue a : Int)
  | false :: _ => -((bitsValue a ^^^ (2 ^ a.length - 1) : Nat) : Int)

/-- `counts[l]` for a code length `l`; 0 outside 1 to 16 (R230). -/
def countOf (counts : Vector Byte 16) (l : Nat) : Nat :=
  if h : 1 ≤ l ∧ l ≤ 16 then (counts[l - 1]'(by omega)).toNat else 0

/-- `total`, the number of symbols (R230). -/
def totalOf (counts : Vector Byte 16) : Nat :=
  ((List.range 17).map (countOf counts)).sum

/-- R231's Kraft sum. -/
def kraftSum (counts : Vector Byte 16) : Nat :=
  ((List.range 17).map (fun i => countOf counts i * 2 ^ (16 - i))).sum

/-- R232's `start(L)`, the first code value of length `L`. -/
def codeStart (counts : Vector Byte 16) (L : Nat) : Nat :=
  ((List.range L).map (fun l => countOf counts l * 2 ^ (L - l))).sum

/-- R232's `offset(L)`, the index of the first symbol of length `L`. -/
def codeOffset (counts : Vector Byte 16) (L : Nat) : Nat :=
  ((List.range L).map (countOf counts)).sum

/-- R233's membership test after `L` bits of value `c`: the symbol, if `c` is a code of length `L`. -/
def matchCode (t : HuffTable) (L c : Nat) : Option Byte :=
  if 0 < countOf t.counts L ∧ codeStart t.counts L ≤ c ∧ c < codeStart t.counts L + countOf t.counts L then
    t.symbols[codeOffset t.counts L + c - codeStart t.counts L]?
  else none

/-- R313's check, which every length-bearing marker makes first. -/
def lengthCause (L : Half) : Option Cause :=
  if L.toNat < 2 then some .segmentLength else none

/-- R315's check of a DQT's length, after R313's. -/
def dqtCause (L : Half) : Option Cause :=
  if L.toNat < 2 then some .segmentLength
  else if (L.toNat - 2) % 65 ≠ 0 then some .segmentLength
  else none

/-- R318's checks on the 17 header bytes, in order: length, Kraft (R231), capacity (R235). -/
def dhtCause (L : Half) (counts : Vector Byte 16) : Option Cause :=
  if L.toNat ≠ totalOf counts + 19 then some .segmentLength
  else if 2 ^ 16 < kraftSum counts then some .huffKraft
  else if Config.huffSymCap < totalOf counts then some .huffCapacity
  else none

/-- R319's checks on the first six payload bytes, in order. -/
def sof0Cause (L : Half) (nf : Byte) : Option Cause :=
  if L.toNat ≠ 8 + 3 * nf.toNat then some .segmentLength
  else if nf ≠ 3#8 then some .channelCount
  else none

/-- R320's Σ H·V over the three components. -/
def blocksPerMcu (cs : Vector FrameSpec 3) : Nat :=
  (hiNibble cs[0].hv).toNat * (loNibble cs[0].hv).toNat
    + (hiNibble cs[1].hv).toNat * (loNibble cs[1].hv).toNat
    + (hiNibble cs[2].hv).toNat * (loNibble cs[2].hv).toNat

/-- R320's FrameChecks, in order. -/
def frameCause (precision : Byte) (cs : Vector FrameSpec 3) : Option Cause :=
  if precision ≠ 8#8 then some .precision
  else if (List.finRange 3).any (fun i => hiNibble cs[i].hv == 0#4 || loNibble cs[i].hv == 0#4) then some .frameParam
  else if cs[0].id = cs[1].id ∨ cs[0].id = cs[2].id ∨ cs[1].id = cs[2].id then some .componentRef
  else if Config.mcuBlockCap < blocksPerMcu cs then some .mcuCapacity
  else none

/-- R322's checks on the `Ns` byte, in order. -/
def sosCause (L : Half) (ns : Byte) : Option Cause :=
  if L.toNat ≠ 6 + 2 * ns.toNat then some .segmentLength
  else if ns ≠ 3#8 then some .channelCount
  else none

/-- The restart codes 0xD0 to 0xD7 (R142, R148). -/
def isRst (cc : Byte) : Bool := cc &&& 0xF8#8 == 0xD0#8

/-- R153's OTHER row: every code byte that no other row names. -/
def isOther (cc : Byte) : Bool :=
  !(isRst cc) && !([0xD8#8, 0xD9#8, 0xDB#8, 0xC4#8, 0xC0#8, 0xC2#8, 0xDA#8, 0xE0#8, 0xFE#8].contains cc)

/-- A signed value in a two's-complement range of `w` bits (R38, R40). -/
def inRange (w : Nat) (v : Int) : Bool := decide (-(2 ^ (w - 1)) ≤ v ∧ v ≤ 2 ^ (w - 1) - 1)

end Sys2Proof.Machine
end

