-- ==== Sys2Proof/WellFormed.lean ====
section
/-! DEFINITION. Which terms of `Instr` are instructions the encoding admits: every operand in the range its row and rule give it. -/

namespace Sys2Proof

open Sys2Proof.Machine

/-- A DHT body agrees with its own header: the symbols are there exactly when R318's checks pass. -/
def DhtBody.WellFormed (L : Half) (b : DhtBody) : Bool :=
  b.table.symbols.length == (if (dhtCause L b.table.counts).isSome then 0 else totalOf b.table.counts)

/-- A SOF0 body agrees with its own header: the components are there exactly when R319's checks pass. -/
def Sof0Body.WellFormed (L : Half) (b : Sof0Body) : Bool :=
  b.comps.isSome == (sof0Cause L b.nf).isNone

/-- A SOS body agrees with its own header: the rest is there exactly when R322's checks pass. -/
def SosBody.WellFormed (L : Half) (b : SosBody) : Bool :=
  b.tail.isSome == (sosCause L b.ns).isNone

/-- The operand ranges of spec/opcode_table.json and of the rules it names. -/
def Instr.WellFormed : Instr → Bool
  | .soi _ _ | .soiInSegments | .eoi _ _ | .eoiInSegments | .rstn _ | .dqt _ => true
  | .dht L none | .sof0 L none | .sos L none => decide (L.toNat < 2)
  | .dht L (some b) => decide (2 ≤ L.toNat) && b.WellFormed L
  | .sof0 L (some b) => decide (2 ≤ L.toNat) && b.WellFormed L
  | .sos L (some b) => decide (2 ≤ L.toNat) && b.WellFormed L
  | .sof0Second | .sof2 _ | .sosBeforeSof0 => true
  | .app0 L p | .com L p => p.length == L.toNat - 2
  | .other cc L p => isOther cc && p.length == L.toNat - 2
  | .markerPrefixErr p => p != 0xFF#8
  | .data b => b != 0xFF#8
  | .stuff | .ecsRst _ => true
  | .ecsMarker cc => cc != 0x00#8 && !(isRst cc)
  | .dcZero | .eob | .zrl => true
  | .dcDiff s a => decide (1 ≤ s.toNat ∧ s.toNat ≤ Config.numberMaxBits) && a.length == s.toNat
  | .dcTooWide s => decide (Config.numberMaxBits < s.toNat)
  | .zsr r => r != 0#4 && r != 15#4
  | .coef _ s a => s != 0#4 && (a.isEmpty || a.length == s.toNat)
  | .start _ | .softReset _ | .softResetAndStart _ | .ctrlNop _ | .irqEnWrite _ | .irqAck _ => true
  | .roWrite off _ => decide (off.toNat % 4 = 0) && !([0x04#8, 0x30#8, 0x34#8].contains off)
  | .regRead off => decide (off.toNat % 4 = 0)
  | .streamByte _ _ | .pixelAccept => true

end Sys2Proof
end

