-- ==== Sys2Proof/Decode.lean ====
section
/-! DEFINITION. The decoder, total on any input: marker segments and ECS bytes from the bytes taken so far, DC and AC elements from the bits taken so far, host commands from a bus access. After it the encoder, and the reading of a word numbered as spec/opcode_table.json numbers it. -/

namespace Sys2Proof

open Sys2Proof.Machine

/-- What the bytes or bits taken so far stand for: not a whole instruction yet, or one instruction. -/
inductive Decoded where
  | more
  | instr (i : Instr)
  deriving DecidableEq, Repr

/-- What the code bits taken so far stand for (R233): more bits are needed, the symbol with the bits left over, or
sixteen bits that are no code. -/
inductive SymbolResult where
  | more
  | found (sym : Byte) (rest : List Bool)
  | notFound
  deriving DecidableEq, Repr

/-- What an element's bits taken so far stand for. -/
inductive ElementResult where
  | more
  | instr (i : Instr)
  | notFound
  deriving DecidableEq, Repr

/-- Bits that need no further symbol. -/
def Decoded.toElement : Decoded → ElementResult
  | .more => .more
  | .instr i => .instr i

/-- Why a host access is refused (20_memory.md R102). -/
inductive AccessError where
  | subWord | misaligned
  deriving DecidableEq, Repr

/-! ## Class M: markers and segments -/

/-- Sixteen counts from payload bytes 1 to 16 (R144). -/
def countsOf (p : List Byte) : Vector Byte 16 := Vector.ofFn (fun i => p.getD (i.val + 1) 0#8)

/-- R318's byte takes: the 17 header bytes, then the symbols unless a header check fails. -/
def decodeDht (L : Half) (p : List Byte) : Decoded :=
  if L.toNat < 2 then .instr (.dht L none)
  else if p.length < 17 then .more
  else if (dhtCause L (countsOf p)).isSome then .instr (.dht L (some ⟨p.getD 0 0#8, ⟨countsOf p, []⟩⟩))
  else if p.length < 17 + totalOf (countsOf p) then .more
  else .instr (.dht L (some ⟨p.getD 0 0#8, ⟨countsOf p, (p.drop 17).take (totalOf (countsOf p))⟩⟩))

/-- Three frame components from payload bytes 6 to 14 (R145). -/
def frameSpecsOf (p : List Byte) : Vector FrameSpec 3 :=
  Vector.ofFn (fun i => ⟨p.getD (6 + 3 * i.val) 0#8, p.getD (7 + 3 * i.val) 0#8, p.getD (8 + 3 * i.val) 0#8⟩)

/-- R319's byte takes: six bytes, then nine more unless a check on the six fails. -/
def decodeSof0 (L : Half) (p : List Byte) : Decoded :=
  if L.toNat < 2 then .instr (.sof0 L none)
  else if p.length < 6 then .more
  else
    let head (cs : Option (Vector FrameSpec 3)) : Sof0Body :=
      ⟨p.getD 0 0#8, u16 (p.getD 1 0#8) (p.getD 2 0#8), u16 (p.getD 3 0#8) (p.getD 4 0#8), p.getD 5 0#8, cs⟩
    if (sof0Cause L (p.getD 5 0#8)).isSome then .instr (.sof0 L (some (head none)))
    else if p.length < 15 then .more
    else .instr (.sof0 L (some (head (some (frameSpecsOf p)))))

/-- Three scan components from payload bytes 1 to 6 (R146). -/
def scanSpecsOf (p : List Byte) : Vector ScanSpec 3 :=
  Vector.ofFn (fun j => ⟨p.getD (1 + 2 * j.val) 0#8, p.getD (2 + 2 * j.val) 0#8⟩)

/-- The trailer, payload bytes 7 to 9 of a three-component SOS (R146). -/
def trailerOf (p : List Byte) : Vector Byte 3 := Vector.ofFn (fun i => p.getD (7 + i.val) 0#8)

/-- R322's byte takes: `Ns`, then nine more bytes unless a check on `Ns` fails. -/
def decodeSos (L : Half) (p : List Byte) : Decoded :=
  if L.toNat < 2 then .instr (.sos L none)
  else if p.length < 1 then .more
  else if (sosCause L (p.getD 0 0#8)).isSome then .instr (.sos L (some ⟨p.getD 0 0#8, none⟩))
  else if p.length < 10 then .more
  else .instr (.sos L (some ⟨p.getD 0 0#8, some ⟨scanSpecsOf p, trailerOf p⟩⟩))

/-- A skipped payload of `L − 2` bytes (R325 to R327); none when `L < 2`. -/
def decodeSkip (mk : List Byte → Instr) (L : Half) (p : List Byte) : Decoded :=
  if p.length < L.toNat - 2 then .more else .instr (mk (p.take (L.toNat - 2)))

/-- Row 6 of R314: the length has been read; `p` is the payload taken so far. -/
def decodeSegment (cc : Byte) (L : Half) (p : List Byte) : Decoded :=
  if cc = 0xDB#8 then .instr (.dqt (.header L))
  else if cc = 0xC4#8 then decodeDht L p
  else if cc = 0xC0#8 then decodeSof0 L p
  else if cc = 0xC2#8 then .instr (.sof2 L)
  else if cc = 0xDA#8 then decodeSos L p
  else if cc = 0xE0#8 then decodeSkip (.app0 L) L p
  else if cc = 0xFE#8 then decodeSkip (.com L) L p
  else decodeSkip (.other cc L) L p

/-- R314's dispatch on the code byte, in its order; `frameValid` decides rows 4 and 5, and rows 1 to 5 read no
length. -/
def decodeCode (frameValid : Bool) (cc : Byte) (p : List Byte) : Decoded :=
  if cc = 0xD8#8 then .instr .soiInSegments
  else if cc = 0xD9#8 then .instr .eoiInSegments
  else if isRst cc then .instr (.rstn (cc.extractLsb' 0 3))
  else if cc = 0xC0#8 ∧ frameValid = true then .instr .sof0Second
  else if cc = 0xDA#8 ∧ frameValid = false then .instr .sosBeforeSof0
  else
    match p with
    | hi :: lo :: rest => decodeSegment cc (u16 hi lo) rest
    | _ => .more

/-- R312: a marker starts with 0xFF; then R314's dispatch. -/
def decodeMarker (frameValid : Bool) (bytes : List Byte) : Decoded :=
  match bytes with
  | [] => .more
  | p :: rest =>
    if p ≠ 0xFF#8 then .instr (.markerPrefixErr p)
    else
      match rest with
      | [] => .more
      | cc :: rest => decodeCode frameValid cc rest

/-- One 65-byte DQT record (R143). -/
def decodeRecord (bytes : List Byte) : Decoded :=
  if bytes.length < 65 then .more
  else .instr (.dqt (.record (bytes.getD 0 0#8) (Vector.ofFn (fun i => bytes.getD (i.val + 1) 0#8))))

/-- EXPECT_SOI takes two bytes before it compares (R311, D47). -/
def decodeSoi (bytes : List Byte) : Decoded :=
  match bytes with
  | a :: b :: _ => .instr (.soi a b)
  | _ => .more

/-- EXPECT_EOI takes two bytes before it compares (R332, D47). -/
def decodeEoi (bytes : List Byte) : Decoded :=
  match bytes with
  | a :: b :: _ => .instr (.eoi a b)
  | _ => .more

/-! ## Class X: entropy-coded bytes -/

/-- R202's classes of entropy-coded bytes; the second byte is taken only after 0xFF (R148). -/
def decodeEcs (bytes : List Byte) : Decoded :=
  match bytes with
  | [] => .more
  | b :: rest =>
    if b ≠ 0xFF#8 then .instr (.data b)
    else
      match rest with
      | [] => .more
      | c :: _ =>
        if c = 0x00#8 then .instr .stuff
        else if isRst c then .instr (.ecsRst (c.extractLsb' 0 3))
        else .instr (.ecsMarker c)

/-- Where in the stream the engine reads: which decoder applies, with what it depends on (`frame_valid` for R314, the
bytes still due in a DQT segment for R315). -/
inductive StreamCtx where
  | soi
  | segments (frameValid : Bool) (rem : Nat)
  | eoi
  | ecs
  deriving DecidableEq, Repr

/-- The decoder of the stream's bytes: what the bytes taken since the last instruction stand for. -/
def decodeStream (c : StreamCtx) (bytes : List Byte) : Decoded :=
  match c with
  | .soi => decodeSoi bytes
  | .segments fv rem => if rem = 0 then decodeMarker fv bytes else decodeRecord bytes
  | .eoi => decodeEoi bytes
  | .ecs => decodeEcs bytes

/-! ## Class S: entropy-coded elements -/

/-- R233's loop from `L` bits of value `c` on. -/
def nextSymbolFrom (t : HuffTable) (L c : Nat) : List Bool → SymbolResult
  | [] => if 16 ≤ L then .notFound else .more
  | b :: bs =>
    if 16 ≤ L then .notFound
    else
      match matchCode t (L + 1) (2 * c + b.toNat) with
      | some sym => .found sym bs
      | none => nextSymbolFrom t (L + 1) (2 * c + b.toNat) bs

/-- R233: NextSymbol on the bits taken so far. -/
def nextSymbol (t : HuffTable) (bits : List Bool) : SymbolResult := nextSymbolFrom t 0 0 bits

/-- R155's map: the DC symbol `s` with the additional bits taken so far. -/
def decodeDcSymbol (s : Byte) (a : List Bool) : Decoded :=
  if s = 0#8 then .instr .dcZero
  else if Config.numberMaxBits < s.toNat then .instr (.dcTooWide s)
  else if a.length < s.toNat then .more
  else .instr (.dcDiff s (a.take s.toNat))

/-- R154's map: the RS byte.  A COEF's additional bits are read after it (R377). -/
def decodeAcSymbol (rs : Byte) : Instr :=
  if rs = 0x00#8 then .eob
  else if rs = 0xF0#8 then .zrl
  else if loNibble rs = 0#4 then .zsr (hiNibble rs)
  else .coef (hiNibble rs) (loNibble rs) []

/-- The additional bits of a COEF with run `r` and size `n`, from those taken so far (R151, R204); there is at least one. -/
def decodeValue (r n : BitVec 4) (a : List Bool) : Decoded :=
  match a with
  | [] => .more
  | b :: rest =>
    if rest.length < n.toNat - 1 then .more else .instr (.coef r n (b :: rest.take (n.toNat - 1)))

/-- Which symbol the scan decoder reads: a DC size or an AC RS byte (R373, R374). -/
inductive ElementCtx where
  | dc
  | ac
  deriving DecidableEq, Repr

/-- An element from its symbol and the additional bits taken so far (R150); an AC symbol is read without any (R151). -/
def decodeSymbol (c : ElementCtx) (sym : Byte) (a : List Bool) : Decoded :=
  match c with
  | .dc => decodeDcSymbol sym a
  | .ac => .instr (decodeAcSymbol sym)

/-- An element from all its bits taken so far: the Huffman code by `t`, then the additional bits. -/
def decodeElement (t : HuffTable) (c : ElementCtx) (bits : List Bool) : ElementResult :=
  match nextSymbol t bits with
  | .more => .more
  | .notFound => .notFound
  | .found sym rest => (decodeSymbol c sym rest).toElement

/-! ## Class H and the ports -/

/-- R156's map of 32-bit writes; `d` is the data. -/
def decodeWrite (off : Byte) (d : Word) : Instr :=
  if off = 0x04#8 then
    if d.getLsbD 1 then
      if d.getLsbD 0 then .softResetAndStart (d.extractLsb' 2 30) else .softReset (d.extractLsb' 2 30)
    else if d.getLsbD 0 then .start (d.extractLsb' 2 30)
    else .ctrlNop (d.extractLsb' 2 30)
  else if off = 0x30#8 then .irqEnWrite d
  else if off = 0x34#8 then .irqAck d
  else .roWrite off d

/-- A host action: a bus access that is not an aligned 32-bit one is refused (R102). -/
def decodeHost (h : HostAction) : Except AccessError Instr :=
  match h with
  | .offer b last => .ok (.streamByte b last)
  | .accept => .ok .pixelAccept
  | .bus a =>
    if a.width ≠ .w32 then .error .subWord
    else if a.off.toNat % 4 ≠ 0 then .error .misaligned
    else if a.write then .ok (decodeWrite a.off a.data)
    else .ok (.regRead a.off)

/-! ## The decoder as a whole, and the encoder -/

/-- Where an instruction stands: in the stream, in an element of the scan, in the additional bits of a COEF with run `r` and
size `n`, or in what the host does. -/
inductive Ctx where
  | stream (c : StreamCtx)
  | element (c : ElementCtx)
  | value (r n : BitVec 4)
  | host
  deriving DecidableEq, Repr

/-- The words of an instruction: stream bytes, an element's symbol with its additional bits (its Huffman code depends on
the table, R236), the additional bits of a COEF, or a host action. -/
inductive Code where
  | bytes (l : List Byte)
  | element (sym : Byte) (a : List Bool)
  | value (a : List Bool)
  | action (h : HostAction)
  deriving DecidableEq, Repr

/-- The instruction that words stand for where they stand; `none` where they are none, or not a whole one. -/
def decode (c : Ctx) (w : Code) : Option Instr :=
  match c, w with
  | .stream c, .bytes l => match decodeStream c l with | .instr i => some i | .more => none
  | .element c, .element sym a => match decodeSymbol c sym a with | .instr i => some i | .more => none
  | .value r n, .value a => match decodeValue r n a with | .instr i => some i | .more => none
  | .host, .action h => match decodeHost h with | .ok i => some i | .error _ => none
  | _, _ => none

/-- A segment's words: the marker, the length, the payload (R141). -/
def segmentBytes (cc : Byte) (L : Half) (p : List Byte) : List Byte := 0xFF#8 :: cc :: hiByte L :: loByte L :: p

/-- R144's layout. -/
def DhtBody.bytes (b : DhtBody) : List Byte := b.ref :: (b.table.counts.toList ++ b.table.symbols)

/-- R145's layout of one component. -/
def FrameSpec.bytes (f : FrameSpec) : List Byte := [f.id, f.hv, f.tq]

/-- R145's layout. -/
def Sof0Body.bytes (b : Sof0Body) : List Byte :=
  [b.precision, hiByte b.height, loByte b.height, hiByte b.width, loByte b.width, b.nf]
    ++ (match b.comps with | none => [] | some cs => cs[0].bytes ++ cs[1].bytes ++ cs[2].bytes)

/-- R146's layout. -/
def SosBody.bytes (b : SosBody) : List Byte :=
  b.ns :: (match b.tail with
    | none => []
    | some s =>
      [s.comps[0].cs, s.comps[0].t, s.comps[1].cs, s.comps[1].t, s.comps[2].cs, s.comps[2].t] ++ s.trailer.toList)

/-- A CTRL write with the two command bits (R52, R156). -/
def ctrlWrite (hi : BitVec 30) (reset start : Bool) : HostAction :=
  .bus ⟨true, 0x04#8, .w32, hi ++ (BitVec.ofBool reset ++ BitVec.ofBool start)⟩

/-- The encoder: the words of an instruction, by the layouts of 30_encoding.md. -/
def encode : Instr → Code
  | .soi a b => .bytes [a, b]
  | .soiInSegments => .bytes [0xFF#8, 0xD8#8]
  | .eoi a b => .bytes [a, b]
  | .eoiInSegments => .bytes [0xFF#8, 0xD9#8]
  | .rstn n => .bytes [0xFF#8, 0b11010#5 ++ n]
  | .dqt (.header L) => .bytes (segmentBytes 0xDB#8 L [])
  | .dqt (.record tq qzz) => .bytes (tq :: qzz.toList)
  | .dht L b => .bytes (segmentBytes 0xC4#8 L (match b with | none => [] | some b => b.bytes))
  | .sof0 L b => .bytes (segmentBytes 0xC0#8 L (match b with | none => [] | some b => b.bytes))
  | .sof0Second => .bytes [0xFF#8, 0xC0#8]
  | .sof2 L => .bytes (segmentBytes 0xC2#8 L [])
  | .sos L b => .bytes (segmentBytes 0xDA#8 L (match b with | none => [] | some b => b.bytes))
  | .sosBeforeSof0 => .bytes [0xFF#8, 0xDA#8]
  | .app0 L p => .bytes (segmentBytes 0xE0#8 L p)
  | .com L p => .bytes (segmentBytes 0xFE#8 L p)
  | .other cc L p => .bytes (segmentBytes cc L p)
  | .markerPrefixErr p => .bytes [p]
  | .data b => .bytes [b]
  | .stuff => .bytes [0xFF#8, 0x00#8]
  | .ecsRst n => .bytes [0xFF#8, 0b11010#5 ++ n]
  | .ecsMarker cc => .bytes [0xFF#8, cc]
  | .dcZero => .element 0x00#8 []
  | .dcDiff s a => .element s a
  | .dcTooWide s => .element s []
  | .eob => .element 0x00#8 []
  | .zrl => .element 0xF0#8 []
  | .zsr r => .element (r ++ 0#4) []
  | .coef r s [] => .element (r ++ s) []
  | .coef _ _ (b :: a) => .value (b :: a)
  | .start hi => .action (ctrlWrite hi false true)
  | .softReset hi => .action (ctrlWrite hi true false)
  | .softResetAndStart hi => .action (ctrlWrite hi true true)
  | .ctrlNop hi => .action (ctrlWrite hi false false)
  | .irqEnWrite d => .action (.bus ⟨true, 0x30#8, .w32, d⟩)
  | .irqAck d => .action (.bus ⟨true, 0x34#8, .w32, d⟩)
  | .roWrite off d => .action (.bus ⟨true, off, .w32, d⟩)
  | .regRead off => .action (.bus ⟨false, off, .w32, 0#32⟩)
  | .streamByte b last => .action (.offer b last)
  | .pixelAccept => .action .accept

/-- Among the segments, where `f` holds of `frame_valid` and the bytes still due in a DQT segment. -/
def Ctx.inSegments (c : Ctx) (f : Bool → Nat → Bool) : Bool :=
  match c with
  | .stream (.segments fv rem) => f fv rem
  | _ => false

/-- The places in which an instruction can stand (R153, R154, R314): EXPECT_SOI for SOI, a frame for SOS, bytes still due
for a DQT record, and so on. -/
def admits (c : Ctx) (i : Instr) : Bool :=
  match i with
  | .soi _ _ => c == .stream .soi
  | .eoi _ _ => c == .stream .eoi
  | .dqt (.record _ _) => c.inSegments (fun _ rem => rem != 0)
  | .sof0 _ _ | .sosBeforeSof0 => c.inSegments (fun fv rem => rem == 0 && !fv)
  | .sof0Second | .sos _ _ => c.inSegments (fun fv rem => rem == 0 && fv)
  | .soiInSegments | .eoiInSegments | .rstn _ | .dqt (.header _) | .dht _ _ | .sof2 _ | .app0 _ _ | .com _ _
  | .other _ _ _ | .markerPrefixErr _ => c.inSegments (fun _ rem => rem == 0)
  | .data _ | .stuff | .ecsRst _ | .ecsMarker _ => c == .stream .ecs
  | .dcZero | .dcDiff _ _ | .dcTooWide _ => c == .element .dc
  | .eob | .zrl | .zsr _ | .coef _ _ [] => c == .element .ac
  | .coef r s (_ :: _) => c == .value r s
  | .start _ | .softReset _ | .softResetAndStart _ | .ctrlNop _ | .irqEnWrite _ | .irqAck _ | .roWrite _ _
  | .regRead _ | .streamByte _ _ | .pixelAccept => c == .host

/-- The `n` low bits of `v`, most significant first: a code word as the stream carries it (R106, R236). -/
def toBits : Nat → Nat → List Bool
  | 0, _ => []
  | n + 1, v => v.testBit n :: toBits n v

/-- R236: the code of the j-th symbol of length `L`. -/
def codeBits (t : HuffTable) (L j : Nat) : List Bool := toBits L (codeStart t.counts L + j)

/-! ## Words numbered as spec/opcode_table.json numbers them -/

/-- Where a table word stands and what it is.  Several rows of the table share their words (SOI and SOI_IN_SEGMENTS, the
bytes 0x00 of DC_ZERO and EOB, …), since only the state tells them apart, so one row is read for each word (log entry 9):
a 16-bit word `FF cc` is STUFF for `cc` = 00 and otherwise the marker, SOI in EXPECT_SOI, EOI in EXPECT_EOI, SOS with a
frame and every other code among the segments without one; a 16-bit word below 0x200 is a stream byte with its `last`
flag; an 8-bit word 01, 02 or 03 is the CTRL write of that value, 00 the DC size 0 and any other an AC symbol; a 32-bit
word is a CTRL write. -/
def tableCode (nbits w : Nat) : Option (Ctx × Code) :=
  if nbits = 8 then
    if w = 0 then some (.element .dc, .element 0x00#8 [])
    else if w ≤ 3 then some (.host, .action (.bus ⟨true, 0x04#8, .w32, BitVec.ofNat 32 w⟩))
    else if w < 256 then
      some (.element .ac, .element (BitVec.ofNat 8 w) [])
    else none
  else if nbits = 16 then
    if w < 0x200 then some (.host, .action (.offer (BitVec.ofNat 8 w) (w.testBit 8)))
    else if w / 256 = 0xFF then
      let cc := BitVec.ofNat 8 w
      if cc = 0x00#8 then some (.stream .ecs, .bytes [0xFF#8, cc])
      else if cc = 0xD8#8 then some (.stream .soi, .bytes [0xFF#8, cc])
      else if cc = 0xD9#8 then some (.stream .eoi, .bytes [0xFF#8, cc])
      else some (.stream (.segments (cc == 0xDA#8) 0), .bytes [0xFF#8, cc, 0x00#8, 0x00#8])
    else none
  else if nbits = 32 then
    if w < 2 ^ 32 then some (.host, .action (.bus ⟨true, 0x04#8, .w32, BitVec.ofNat 32 w⟩)) else none
  else none

/-- The instruction this decoder reads from a word numbered as spec/opcode_table.json numbers it (16-bit words are two
stream bytes, the first the more significant, R105); bits above `nbits` are zero. -/
def decodeTableWord (nbits w : Nat) : Option Instr :=
  match tableCode nbits w with
  | some (c, code) => decode c code
  | none => none

end Sys2Proof
end

