-- ==== Sys2Proof/Machine/State.lean ====
section
/-! DEFINITION. The state of the block (10_state.md R31 to R45), the loop variables of the rules' pseudocode, the two ports and the host beside it, the reasons a step can stop, and the state after reset (R70). -/

namespace Sys2Proof.Machine

/-- R31's control states; value 7 is never held. -/
inductive EngineState where
  | idle | expectSoi | segments | scan | expectEoi | done | error
  deriving DecidableEq, Repr

/-- A frame component (R36). -/
structure FrameComp where
  id : Byte
  H  : BitVec 4
  V  : BitVec 4
  tq : Byte
  deriving DecidableEq, Repr

/-- A scan component (R37): the index of the frame component it decodes, and the Huffman slot of both its tables. -/
structure ScanComp where
  fi : Fin 3
  th : BitVec 4
  deriving DecidableEq, Repr

/-- Where the scan decoder stands in the loops of 45_scan_decoder.md: at R371's loop test, before a block's DC element
(R373), in its AC loop (R374), taking the additional bits of a COEF with run `r` and size `n` (R377), at its dequantization
and IDCT (R380, R381), or emitting the MCU (R386). -/
inductive Phase where
  | loop | dc | ac
  | value (r n : BitVec 4)
  | finish | emit
  deriving DecidableEq, Repr

/-- The loop variables of R372 (`j`, `by` as `row`, `bx` as `col`) and of R386 (`px`, `py`). -/
structure Cursor where
  phase : Phase
  j     : Fin 3
  row   : Nat
  col   : Nat
  px    : Nat
  py    : Nat
  deriving DecidableEq, Repr

/-- A turn outside the engine's control: the host acts, the hardware reset input is asserted (R480), or the engine is
given one step (R110: host accesses interleave between engine steps in any order). -/
inductive Turn where
  | host (a : HostAction)
  | hwReset
  | engine
  deriving DecidableEq, Repr

/-- The raster behind the pixel port, as byte cells (20_memory.md R104, 46_host_commands.md R429). -/
abbrev Memory := List Host.Cell

structure State where
  /-- R31. -/
  state : EngineState
  /-- R32: input bytes taken since the last START, modulo 2^32. -/
  pos : BitVec 32
  /-- R33: the current data byte of the bit reader. -/
  bitbuf : Byte
  /-- R33: its unread bits, 0 to 8. -/
  bitcnt : Fin 9
  /-- R34: the quantization registry, natural order. -/
  qt : Vector (Block (BitVec 16)) 16
  /-- R34. -/
  qtValid : Vector Bool 16
  /-- R35: the DC Huffman registry. -/
  htDc : Vector HuffTable 16
  /-- R35. -/
  htDcValid : Vector Bool 16
  /-- R35: the AC Huffman registry. -/
  htAc : Vector HuffTable 16
  /-- R35. -/
  htAcValid : Vector Bool 16
  /-- R36. -/
  frameValid : Bool
  /-- R36: the sample precision `P`. -/
  precision : Byte
  /-- R36. -/
  height : Half
  /-- R36. -/
  width : Half
  /-- R36. -/
  nf : Byte
  /-- R36: Y, Cb and Cr by position. -/
  comp : Vector FrameComp 3
  /-- R36. -/
  hmax : BitVec 4
  /-- R36. -/
  vmax : BitVec 4
  /-- R37. -/
  scanValid : Bool
  /-- R37. -/
  sc : Vector ScanComp 3
  /-- R37. -/
  inScan : Vector Bool 3
  /-- R38: the DC predictors. -/
  pred : Vector Int 3
  /-- R39. -/
  xPos : BitVec 17
  /-- R39. -/
  yPos : BitVec 17
  /-- R40: the coefficient working block. -/
  coef : Block Int
  /-- R40: the AC cursor, 0 to 64; a run that passes position 63 leaves it past that, in ERROR (R377, log entry 11). -/
  k : Nat
  /-- R41: the MCU sample buffer `S[c][b]`. -/
  samples : Vector (Vector (Block Sample) 225) 3
  /-- R42. -/
  errKind : BitVec 3
  /-- R42. -/
  errCause : Byte
  /-- R42. -/
  errPos : BitVec 32
  /-- R42: sticky. -/
  warn : Bool
  /-- R42. -/
  warnLastId : Byte
  /-- R42: saturating. -/
  warnCount : Byte
  /-- R43. -/
  pixelsOut : BitVec 32
  /-- R44: bit 0 DONE, bit 1 ERROR, bit 2 WARN. -/
  irqEn : BitVec 3
  /-- R44. -/
  irqStatus : BitVec 3
  /-- R45: a byte offered with `last = 1` has been taken. -/
  lastSeen : Bool
  /-- R315's local `rem`: payload bytes of the current DQT segment still to be taken. -/
  rem : Nat
  /-- The bytes taken for the instruction being read (the parser's locals `a`, `b`, `p`, `cc`, `L`, …; R202's `b`, `c`). -/
  fetched : List Byte
  /-- The bits taken for the element being read (R233's `c`, R204's `raw`), first taken first. -/
  bits : List Bool
  /-- The loop variables of the scan decoder. -/
  cur : Cursor
  /-- The input port (R45, R428): bytes the host has lined up and the engine has not taken; the first is on the port. -/
  offered : List (Byte × Bool)
  /-- The sink's raster (R104, R429): three cells for each accepted pixel. -/
  raster : Memory
  /-- The register bus (R427): what the last read returned. -/
  busRead : Word
  /-- What happens outside the engine, in order; when it is empty the engine steps (R110, R114). -/
  turns : List Turn
  /-- The model's own counter of free values (log entries 4 and 5). -/
  freeCtr : Nat
  deriving DecidableEq, Repr

/-- The reasons a step could stop with a fault.  There are none: every failure the spec describes is a NEXT state, the
state ERROR of R442 (log entry 13). -/
inductive Fault where
  deriving DecidableEq, Repr

/-- The reasons a step has no meaning. -/
inductive Refusal where
  /-- An instruction that has no meaning yet; raised by `exec` only, and by no arm of it now.  Safe. -/
  | notModelled (mnemonic : String)
  /-- An 8-bit or 16-bit access to the register window (20_memory.md R102: refused, the model gives it no meaning);
  raised by `step`.  Safe. -/
  | subWordAccess
  /-- A 32-bit access at an offset that is not a multiple of 4 (R102); raised by `step`.  Safe. -/
  | misalignedAccess
  deriving DecidableEq, Repr

/-- The scan decoder's loop variables before a scan. -/
def Cursor.init : Cursor := ⟨.loop, 0, 0, 0, 0, 0⟩

/-- R70's reset column; the fields it calls unspecified hold zeros here (log entry 6), and nothing is pending outside the
block (log entry 8). -/
def State.reset : State where
  state := .idle
  pos := 0#32
  bitbuf := 0#8
  bitcnt := 0
  qt := Vector.replicate 16 (Vector.replicate 64 0#16)
  qtValid := Vector.replicate 16 false
  htDc := Vector.replicate 16 ⟨Vector.replicate 16 0#8, []⟩
  htDcValid := Vector.replicate 16 false
  htAc := Vector.replicate 16 ⟨Vector.replicate 16 0#8, []⟩
  htAcValid := Vector.replicate 16 false
  frameValid := false
  precision := 0#8
  height := 0#16
  width := 0#16
  nf := 0#8
  comp := Vector.replicate 3 ⟨0#8, 0#4, 0#4, 0#8⟩
  hmax := 0#4
  vmax := 0#4
  scanValid := false
  sc := Vector.replicate 3 ⟨0, 0#4⟩
  inScan := Vector.replicate 3 false
  pred := Vector.replicate 3 0
  xPos := 0#17
  yPos := 0#17
  coef := Vector.replicate 64 0
  k := 0
  samples := Vector.replicate 3 (Vector.replicate 225 (Vector.replicate 64 (Vector.replicate 8 0)))
  errKind := 0#3
  errCause := 0#8
  errPos := 0#32
  warn := false
  warnLastId := 0#8
  warnCount := 0#8
  pixelsOut := 0#32
  irqEn := 0#3
  irqStatus := 0#3
  lastSeen := false
  rem := 0
  fetched := []
  bits := []
  cur := Cursor.init
  offered := []
  raster := []
  busRead := 0#32
  turns := []
  freeCtr := 0

end Sys2Proof.Machine
end

