-- ==== Sys2Proof/Machine/Ops.lean ====
section
/-! DEFINITION. The shared operations: error entry (R442), the warning (R446), byte and bit takes (40_bitreader.md), the raster's cells, reset and START. -/

namespace Sys2Proof.Machine

/-- The outcome of one step of this machine. -/
abbrev Result := Host.Outcome State Fault Refusal

/-! ## Error entry and the warning -/

/-- R442: `raise Error(kind, cause)`, one step; nothing else changes. -/
def raise (c : Cause) (s : State) : State :=
  { s with
    errKind := c.kind.code
    errCause := c.code
    errPos := s.pos
    state := .error
    irqStatus := s.irqStatus ||| 0b010#3 }

/-- R446's saturating count. -/
def satSucc (n : Byte) : Byte := if n = 255#8 then 255#8 else n + 1#8

/-- R446: `Warn(QT_ID, id)`; decoding continues. -/
def warnQtId (id : Byte) (s : State) : State :=
  { s with
    warn := true
    warnLastId := id
    warnCount := satSucc s.warnCount
    irqStatus := s.irqStatus ||| 0b100#3 }

/-- Raise if a check failed, else go on. -/
def check (c : Option Cause) (s : State) (k : State → Result) : Result :=
  match c with
  | some c => .next (raise c s)
  | none => k s

/-! ## The bit reader -/

/-- R201: ReadByte.  After the last byte it raises TRUNCATED; while the host offers nothing the engine holds. -/
def readByte (s : State) : Result :=
  if s.lastSeen then .next (raise .truncated s)
  else
    match s.offered with
    | [] => .next s
    | (b, last) :: rest =>
      .next { s with
        offered := rest
        pos := s.pos + 1#32
        lastSeen := last
        fetched := s.fetched ++ [b] }

/-- R200's refill: a fetched data byte. -/
def loadBits (b : Byte) (s : State) : State := { s with bitbuf := b, bitcnt := 8 }

/-- R200: the bit NextBit returns when `bitcnt` unread bits remain, most significant first. -/
def topBit (s : State) : Bool := s.bitbuf.getLsbD (s.bitcnt.val - 1)

/-- R200: take one bit of a buffer that is not empty. -/
def takeBit (s : State) : State :=
  { s with
    bits := s.bits ++ [topBit s]
    bitcnt := ⟨s.bitcnt.val - 1, by omega⟩ }

/-- R206: BitAlign. -/
def bitAlign (s : State) : State := { s with bitcnt := 0 }

/-! ## The raster's cells -/

/-- The cell of channel `c` (0 R, 1 G, 2 B) of pixel `(x, y)`; the sink's own layout is out of scope (R6), so the number
is the model's (log entry 7). -/
def pixelAddr (x y c : Nat) : Nat := 3 * (65536 * y + x) + c

/-- One cell; an unlisted one holds no value (log entry 7). -/
def Memory.read (m : Memory) (a : Nat) : Option Byte :=
  match m with
  | [] => none
  | (b, v) :: rest => if a = b then some v else Memory.read rest a

/-- Write one cell, keeping the addresses strictly rising. -/
def Memory.write (m : Memory) (a : Nat) (v : Byte) : Memory :=
  match m with
  | [] => [(a, v)]
  | (b, w) :: rest =>
    if a < b then (a, v) :: (b, w) :: rest
    else if a = b then (a, v) :: rest
    else (b, w) :: Memory.write rest a v

/-- The canonical form: addresses strictly rising.  No listed entry reads as an unlisted one, since that has no value. -/
def Memory.wf (m : Memory) : Bool :=
  match m with
  | [] => true
  | [_] => true
  | (a, _) :: (b, w) :: rest => decide (a < b) && Memory.wf ((b, w) :: rest)

/-- R104, R429: the sink stores a pixel. -/
def Memory.writePixel (m : Memory) (x y : Nat) (r g b : Byte) : Memory :=
  ((m.write (pixelAddr x y 0) r).write (pixelAddr x y 1) g).write (pixelAddr x y 2) b

/-! ## Reset and START -/

/-- R70's reset column over the block's own state (R421, R480).  What R70 calls unspecified becomes a free value (log
entry 5); the ports, the sink, the bus and the turns outside the block stay. -/
def blockReset (s : State) : State :=
  { State.reset with
    bitbuf := Config.freeBitbuf s.freeCtr
    qt := Config.freeQt s.freeCtr
    htDc := Config.freeHtDc s.freeCtr
    htAc := Config.freeHtAc s.freeCtr
    coef := Config.freeCoef s.freeCtr
    k := (Config.freeK s.freeCtr).val
    samples := Config.freeSamples s.freeCtr
    offered := s.offered
    raster := s.raster
    busRead := s.busRead
    turns := s.turns
    freeCtr := s.freeCtr + 1 }

/-- R70's START column: as a reset, but `state` becomes EXPECT_SOI and the interrupt state is kept (R420, R482). -/
def applyStart (s : State) : State :=
  { blockReset s with state := .expectSoi, irqEn := s.irqEn, irqStatus := s.irqStatus }

end Sys2Proof.Machine
end

