-- ==== Sys2Proof/Machine/Ecs.lean ====
section
/-! DEFINITION. The meanings of class X: entropy-coded bytes (40_bitreader.md R202, 30_encoding.md R148). -/

namespace Sys2Proof.Machine

/-- R202: a data byte. -/
def execData (b : Byte) (s : State) : Result := .next (loadBits b s)

/-- R202: the stuffed pair `FF 00` is the data byte 0xFF. -/
def execStuff (s : State) : Result := .next (loadBits 0xFF#8 s)

/-- R202: a restart marker inside the scan. -/
def execEcsRst (_n : BitVec 3) (s : State) : Result := .next (raise .restart s)

/-- R202: any other marker inside the scan, EOI included. -/
def execEcsMarker (_cc : Byte) (s : State) : Result := .next (raise .markerInScan s)

end Sys2Proof.Machine
end

