-- ==== Sys2Proof/Machine/Flags.lean ====
section
/-! DEFINITION. The flags a host can test (10_state.md R53, R69) and the interrupt line (R44, 60_exceptions.md R447). -/

namespace Sys2Proof.Machine

/-- R31's encodings. -/
def EngineState.code : EngineState → BitVec 3
  | .idle => 0#3
  | .expectSoi => 1#3
  | .segments => 2#3
  | .scan => 3#3
  | .expectEoi => 4#3
  | .done => 5#3
  | .error => 6#3

/-- STATUS.BUSY (R53). -/
def EngineState.busy : EngineState → Bool
  | .expectSoi | .segments | .scan | .expectEoi => true
  | .idle | .done | .error => false

/-- R447: the level interrupt line. -/
def irqLine (s : State) : Bool :=
  (s.irqEn.getLsbD 0 && s.irqStatus.getLsbD 0) || (s.irqEn.getLsbD 1 && s.irqStatus.getLsbD 1)
    || (s.irqEn.getLsbD 2 && s.irqStatus.getLsbD 2)

/-- R53: STATUS, from its most significant field down. -/
def statusWord (s : State) : Word :=
  0#8 ++ s.errCause ++ 0#5 ++ s.errKind ++ BitVec.ofBool s.warn ++ BitVec.ofBool (s.state == .error)
    ++ BitVec.ofBool (s.state == .done) ++ BitVec.ofBool s.state.busy ++ 0#1 ++ s.state.code

/-- R332 and R448: entry to DONE sets the DONE status bit. -/
def setDone (s : State) : State := { s with state := .done, irqStatus := s.irqStatus ||| 0b001#3 }

end Sys2Proof.Machine
end

