-- ==== Sys2Proof/Machine/Registers.lean ====
section
/-! DEFINITION. The host register map as values of the state (10_state.md R50 to R68, 46_host_commands.md R427). -/

namespace Sys2Proof.Machine

/-- Sixteen valid bits as a number: bit `s` is entry `s` (R59, R60). -/
def validBits (v : Vector Bool 16) : BitVec 16 :=
  BitVec.ofNat 16 ((List.finRange 16).map (fun i => v[i].toNat * 2 ^ i.val)).sum

/-- R51: ID. -/
def idWord : Word := Config.idMagic ++ Config.idRev

/-- R56: FRAME_DIM. -/
def frameDimWord (s : State) : Word := s.height ++ s.width

/-- R57: FRAME_FMT. -/
def frameFmtWord (s : State) : Word :=
  0#6 ++ BitVec.ofBool s.scanValid ++ BitVec.ofBool s.frameValid ++ s.vmax ++ s.hmax ++ s.nf ++ s.precision

/-- R58's TH: the slot of the scan position that decodes frame component `c`, the lowest one if several match (log entry
10), and 0 if none does. -/
def scanSlot (s : State) (c : Fin 3) : BitVec 4 :=
  if s.sc[0].fi = c then s.sc[0].th
  else if s.sc[1].fi = c then s.sc[1].th
  else if s.sc[2].fi = c then s.sc[2].th
  else 0#4

/-- R58: COMP0, COMP1 and COMP2. -/
def compWord (s : State) (c : Fin 3) : Word :=
  0#3 ++ BitVec.ofBool s.inScan[c] ++ scanSlot s c ++ s.comp[c].tq ++ s.comp[c].V ++ s.comp[c].H ++ s.comp[c].id

/-- R59: QT_VALID. -/
def qtValidWord (s : State) : Word := 0#16 ++ validBits s.qtValid

/-- R60: HT_VALID. -/
def htValidWord (s : State) : Word := validBits s.htAcValid ++ validBits s.htDcValid

/-- R61, R62: a 3-bit interrupt field in a register. -/
def irqWord (v : BitVec 3) : Word := 0#29 ++ v

/-- R63: WARN_INFO. -/
def warnInfoWord (s : State) : Word := 0#16 ++ s.warnCount ++ s.warnLastId

/-- R64: MCU_POS. -/
def mcuPosWord (s : State) : Word := s.yPos.setWidth 16 ++ s.xPos.setWidth 16

/-- R66: PARAMS. -/
def paramsWord : Word :=
  BitVec.ofNat 8 Config.coefWidth ++ BitVec.ofNat 8 Config.predWidth ++ BitVec.ofNat 16 Config.huffSymCap

/-- R67: PARAMS2. -/
def params2Word : Word := 0#8 ++ BitVec.ofNat 8 Config.numberMaxBits ++ BitVec.ofNat 16 Config.mcuBlockCap

/-- R427: the value of the register at byte offset `off`; CTRL and the reserved offsets read 0 (R52, R68). -/
def regValue (s : State) (off : Byte) : Word :=
  if off = 0x00#8 then idWord
  else if off = 0x08#8 then statusWord s
  else if off = 0x0C#8 then s.errPos
  else if off = 0x10#8 then s.pos
  else if off = 0x14#8 then frameDimWord s
  else if off = 0x18#8 then frameFmtWord s
  else if off = 0x1C#8 then compWord s 0
  else if off = 0x20#8 then compWord s 1
  else if off = 0x24#8 then compWord s 2
  else if off = 0x28#8 then qtValidWord s
  else if off = 0x2C#8 then htValidWord s
  else if off = 0x30#8 then irqWord s.irqEn
  else if off = 0x34#8 then irqWord s.irqStatus
  else if off = 0x38#8 then warnInfoWord s
  else if off = 0x3C#8 then mcuPosWord s
  else if off = 0x40#8 then s.pixelsOut
  else if off = 0x44#8 then paramsWord
  else if off = 0x48#8 then params2Word
  else 0#32

end Sys2Proof.Machine
end

