-- ==== Sys2Proof/Machine/HostCommands.lean ====
section
/-! DEFINITION. The meanings of class H: host commands and register accesses (46_host_commands.md R420 to R427). -/

namespace Sys2Proof.Machine

/-- R420: START; ignored while the block is busy. -/
def execStart (_hi : BitVec 30) (s : State) : Result :=
  if s.state.busy then .next s else .next (applyStart s)

/-- R421: SOFT_RESET, in every state. -/
def execSoftReset (_hi : BitVec 30) (s : State) : Result := .next (blockReset s)

/-- R422: both command bits are SOFT_RESET alone. -/
def execSoftResetAndStart (_hi : BitVec 30) (s : State) : Result := .next (blockReset s)

/-- R423: no effect. -/
def execCtrlNop (_hi : BitVec 30) (s : State) : Result := .next s

/-- R424: `irq_en <- d[2:0]`. -/
def execIrqEnWrite (d : Word) (s : State) : Result := .next { s with irqEn := d.extractLsb' 0 3 }

/-- R425: `irq_status <- irq_status and not d[2:0]`. -/
def execIrqAck (d : Word) (s : State) : Result :=
  .next { s with irqStatus := s.irqStatus &&& ~~~(d.extractLsb' 0 3) }

/-- R426: a write anywhere else has no effect. -/
def execRoWrite (_off : Byte) (_d : Word) (s : State) : Result := .next s

/-- R427: the register's value appears on the bus; nothing of the block changes (R111). -/
def execRegRead (off : Byte) (s : State) : Result := .next { s with busRead := regValue s off }

end Sys2Proof.Machine
end

