-- ==== Sys2Proof/Machine/Quantization.lean ====
section
/-! DEFINITION. Zig-zag order, building and storing a quantization table, and dequantization (42_quantization.md, 44_segment_parser.md R316). -/

namespace Sys2Proof.Machine

/-- R260's diagonal offsets. -/
def diagOffset : List Nat := [0, 1, 3, 6, 10, 15, 21, 28, 35, 41, 46, 50, 53, 55, 56]

/-- R260: the zig-zag index of the cell in column `x` and row `y`. -/
def zigzagPosition (x y : Nat) : Nat :=
  diagOffset.getD (x + y) 0 + (if (x + y) % 2 = 0 then x else y)

/-- R261: ZZ2N as the spec prints it. -/
def zz2nTable : List (Fin 64) :=
  [0, 1, 8, 16, 9, 2, 3, 10, 17, 24, 32, 25, 18, 11, 4, 5]
    ++ [12, 19, 26, 33, 40, 48, 41, 34, 27, 20, 13, 6, 7, 14, 21, 28]
    ++ [35, 42, 49, 56, 57, 50, 43, 36, 29, 22, 15, 23, 30, 37, 44, 51]
    ++ [58, 59, 52, 45, 38, 31, 39, 46, 53, 60, 61, 54, 47, 55, 62, 63]

/-- R261: the natural index of a zig-zag index. -/
def zz2n (i : Fin 64) : Fin 64 := zz2nTable.getD i.val 0

/-- The zig-zag index of a natural index, R260 at `x = n mod 8`, `y = n div 8`. -/
def n2zz (n : Fin 64) : Fin 64 := Fin.ofNat 64 (zigzagPosition (n.val % 8) (n.val / 8))

/-- R262: BuildQT, `Q[ZZ2N[i]] <- zext_16(Qzz[i])`; entry `n` is therefore the byte at `n`'s zig-zag index. -/
def buildQt (qzz : Block Byte) : Block (BitVec 16) := Vector.ofFn (fun n => (qzz[n2zz n]).setWidth 16)

/-- R316: StoreQT. -/
def storeQt (i : Fin 16) (q : Block (BitVec 16)) (s : State) : State :=
  { s with qt := s.qt.set i q, qtValid := s.qtValid.set i true }

/-- R263: multiply_block over a coefficient width; `none` when a product leaves the range. -/
def multiplyBlock (w : Nat) (q : Block (BitVec 16)) (b : Block Int) : Option (Block Int) :=
  if (List.finRange 64).all (fun n => inRange w (b[n] * (q[n]).toNat)) then
    some (Vector.ofFn (fun n => b[n] * (q[n]).toNat))
  else none

/-- The quantization slot `Tq` names; SOS has checked that it is at most 15 (R323). -/
def qtSlot (tq : Byte) : Fin 16 := Fin.ofNat 16 tq.toNat

end Sys2Proof.Machine
end

