-- ==== Sys2Proof/Machine/Markers.lean ====
section
/-! DEFINITION. The meanings of class M: markers and segments (44_segment_parser.md). Every byte of the instruction has been taken; the checks run in the order of the rule's pseudocode. -/

namespace Sys2Proof.Machine

/-- R311: SOI, in EXPECT_SOI. -/
def execSoi (a b : Byte) (s : State) : Result :=
  if a ≠ 0xFF#8 ∨ b ≠ 0xD8#8 then .next (raise .soiMissing s) else .next { s with state := .segments }

/-- R328: SOI in SEGMENTS. -/
def execSoiInSegments (s : State) : Result := .next (raise .unexpectedMarker s)

/-- R332: EOI, in EXPECT_EOI. -/
def execEoi (a b : Byte) (s : State) : Result :=
  if a ≠ 0xFF#8 ∨ b ≠ 0xD9#8 then .next (raise .eoiMissing s) else .next (setDone s)

/-- R329: EOI in SEGMENTS. -/
def execEoiInSegments (s : State) : Result := .next (raise .unexpectedMarker s)

/-- R330: RSTn in SEGMENTS. -/
def execRstn (_n : BitVec 3) (s : State) : Result := .next (raise .restart s)

/-- R315 to R317: the head of a DQT segment checks the length; each record stores a table, or warns of an invalid id. -/
def execDqt (part : DqtPart) (s : State) : Result :=
  match part with
  | .header L => check (dqtCause L) s (fun s => .next { s with rem := L.toNat - 2 })
  | .record tq qzz =>
    if h : tq.toNat < 16 then .next (storeQt ⟨tq.toNat, h⟩ (buildQt qzz) { s with rem := s.rem - 65 })
    else .next (warnQtId tq { s with rem := s.rem - 65 })

/-- R318's last lines: store a Huffman table in the registry `ref[4]` names. -/
def storeHt (ref : Byte) (t : HuffTable) (s : State) : State :=
  if refIsAc ref then
    { s with
      htAc := s.htAc.set (slot (loNibble ref)) t
      htAcValid := s.htAcValid.set (slot (loNibble ref)) true }
  else
    { s with
      htDc := s.htDc.set (slot (loNibble ref)) t
      htDcValid := s.htDcValid.set (slot (loNibble ref)) true }

/-- R318: DHT; without a payload the length was below 2 (R313). -/
def execDht (L : Half) (body : Option DhtBody) (s : State) : Result :=
  match body with
  | none => .next (raise .segmentLength s)
  | some b => check (dhtCause L b.table.counts) s (fun s => .next (storeHt b.ref b.table s))

/-- The component R319 makes of a frame component's bytes. -/
def frameComp (f : FrameSpec) : FrameComp := ⟨f.id, hiNibble f.hv, loNibble f.hv, f.tq⟩

/-- The greatest of three 4-bit factors. -/
def max3 (a b c : BitVec 4) : BitVec 4 := BitVec.ofNat 4 (max a.toNat (max b.toNat c.toNat))

/-- R319's last lines: the frame record, with the roles Y, Cb, Cr by position. -/
def storeFrame (b : Sof0Body) (cs : Vector FrameSpec 3) (s : State) : State :=
  { s with
    comp := Vector.ofFn (fun i => frameComp cs[i])
    hmax := max3 (hiNibble cs[0].hv) (hiNibble cs[1].hv) (hiNibble cs[2].hv)
    vmax := max3 (loNibble cs[0].hv) (loNibble cs[1].hv) (loNibble cs[2].hv)
    precision := b.precision
    height := b.height
    width := b.width
    nf := b.nf
    frameValid := true }

/-- R319 and R320: SOF0 without a frame; nothing of the frame record is written on an error. -/
def execSof0 (L : Half) (body : Option Sof0Body) (s : State) : Result :=
  match body with
  | none => .next (raise .segmentLength s)
  | some b =>
    match b.comps with
    | none => .next (raise ((sof0Cause L b.nf).getD .segmentLength) s)
    | some cs =>
      check (sof0Cause L b.nf) s (fun s =>
        check (frameCause b.precision cs) s (fun s => .next (storeFrame b cs s)))

/-- R331: a second SOF0. -/
def execSof0Second (s : State) : Result := .next (raise .unexpectedMarker s)

/-- R321: SOF2, after its length is read. -/
def execSof2 (L : Half) (s : State) : Result :=
  check (lengthCause L) s (fun s => .next (raise .progressive s))

/-- R323: the frame component with the id a scan component names. -/
def findComp (s : State) (id : Byte) : Option (Fin 3) :=
  if s.comp[0].id = id then some 0
  else if s.comp[1].id = id then some 1
  else if s.comp[2].id = id then some 2
  else none

/-- R323's first loop over the scan positions `js`, with the set `used`; each position resolved is written before the next
is looked up. -/
def resolveComps (cs : Vector ScanSpec 3) (js used : List (Fin 3)) (s : State) : State × Option Cause :=
  match js with
  | [] => (s, none)
  | j :: js =>
    match findComp s cs[j].cs with
    | none => (s, some .componentRef)
    | some fi =>
      if used.contains fi then (s, some .componentRef)
      else resolveComps cs js (fi :: used) { s with sc := s.sc.set j ⟨fi, loNibble cs[j].t⟩ }

/-- R323: the three tables of scan position `j` are defined. -/
def tablesDefined (s : State) (j : Fin 3) : Bool :=
  decide ((s.comp[s.sc[j].fi]).tq.toNat ≤ 15) && s.qtValid[qtSlot (s.comp[s.sc[j].fi]).tq]
    && s.htDcValid[slot s.sc[j].th] && s.htAcValid[slot s.sc[j].th]

/-- R323: ScanResolve, with the first failure. -/
def scanResolve (cs : Vector ScanSpec 3) (s : State) : State × Option Cause :=
  match resolveComps cs [0, 1, 2] [] s with
  | (s, some c) => (s, some c)
  | (s, none) => (s, if (List.finRange 3).all (tablesDefined s) then none else some .tableUndefined)

/-- R324: ScanEnter. -/
def scanEnter (s : State) : State :=
  { s with
    scanValid := true
    inScan := ((s.inScan.set s.sc[0].fi true).set s.sc[1].fi true).set s.sc[2].fi true
    pred := Vector.replicate 3 0
    xPos := 0#17
    yPos := 0#17
    bitcnt := 0
    cur := Cursor.init
    state := .scan }

/-- R322 to R324: SOS with a frame; the trailer is not validated. -/
def execSos (L : Half) (body : Option SosBody) (s : State) : Result :=
  match body with
  | none => .next (raise .segmentLength s)
  | some b =>
    match b.tail with
    | none => .next (raise ((sosCause L b.ns).getD .segmentLength) s)
    | some t =>
      check (sosCause L b.ns) s (fun s =>
        check (scanResolve t.comps s).2 (scanResolve t.comps s).1 (fun s => .next (scanEnter s)))

/-- R334: SOS before SOF0. -/
def execSosBeforeSof0 (s : State) : Result := .next (raise .unexpectedMarker s)

/-- R325: APP0, skipped whole. -/
def execApp0 (L : Half) (_payload : List Byte) (s : State) : Result := check (lengthCause L) s .next

/-- R326: COM, skipped whole. -/
def execCom (L : Half) (_payload : List Byte) (s : State) : Result := check (lengthCause L) s .next

/-- R327: any other marker, skipped whole. -/
def execOther (_cc : Byte) (L : Half) (_payload : List Byte) (s : State) : Result := check (lengthCause L) s .next

/-- R312: a byte other than 0xFF where a marker is due. -/
def execMarkerPrefixErr (_p : Byte) (s : State) : Result := .next (raise .markerPrefix s)

end Sys2Proof.Machine
end

