-- ==== Sys2Proof/Machine/Numeric.lean ====
section
/-! DEFINITION. Exact arithmetic of the real-valued stages (43_block_transform.md R289): coordinates over the basis 1, 2cos(π/16), …, 2cos(7π/16), the exact sign of such a number, and R385's rounding. -/

namespace Sys2Proof.Machine

/-- The coordinate of `2cos(n·π/16)` at basis element `m` (element 0 is 1, element `m` is `2cos(m·π/16)`), by
`cos(2π − t) = cos t`, `cos(π − t) = −cos t` and `cos(π/2) = 0`. -/
def cosCoord (n m : Nat) : Int :=
  let r := n % 32
  let r := if 16 < r then 32 - r else r
  if r = 0 then (if m = 0 then 2 else 0)
  else if r < 8 then (if m = r then 1 else 0)
  else if r = 8 then 0
  else if r = 16 then (if m = 0 then -2 else 0)
  else (if m = 16 - r then -1 else 0)

/-- The sign of an integer as −1, 0 or 1. -/
def sign0 (x : Int) : Int := if x < 0 then -1 else if x = 0 then 0 else 1

/-- The sign of `a + b·√d` (`d > 0`) from the signs of `a`, of `b` and of `a² − d·b²`. -/
def signExt (sa sb sn : Int) : Int :=
  if sa = 0 then sb else if sb = 0 then sa else if sa = sb then sa else sa * sn

/-- A number `p + q·√2`. -/
abbrev Quad := Int × Int

/-- A number `a + b·√(2 + √2)`. -/
abbrev Quart := Quad × Quad

/-- Product in `ℤ[√2]`. -/
def quadMul (x y : Quad) : Quad := (x.1 * y.1 + 2 * (x.2 * y.2), x.1 * y.2 + x.2 * y.1)

/-- Difference in `ℤ[√2]`. -/
def quadSub (x y : Quad) : Quad := (x.1 - y.1, x.2 - y.2)

/-- Sum in `ℤ[√2]`. -/
def quadAdd (x y : Quad) : Quad := (x.1 + y.1, x.2 + y.2)

/-- The sign of `p + q·√2`. -/
def quadSign (x : Quad) : Int := signExt (sign0 x.1) (sign0 x.2) (sign0 (x.1 * x.1 - 2 * (x.2 * x.2)))

/-- Product in `ℤ[√(2+√2)]`. -/
def quartMul (x y : Quart) : Quart :=
  (quadAdd (quadMul x.1 y.1) (quadMul (2, 1) (quadMul x.2 y.2)), quadAdd (quadMul x.1 y.2) (quadMul x.2 y.1))

/-- Difference in `ℤ[√(2+√2)]`. -/
def quartSub (x y : Quart) : Quart := (quadSub x.1 y.1, quadSub x.2 y.2)

/-- The sign of `a + b·√(2+√2)`. -/
def quartSign (x : Quart) : Int :=
  signExt (quadSign x.1) (quadSign x.2)
    (quadSign (quadSub (quadMul x.1 x.1) (quadMul (2, 1) (quadMul x.2 x.2))))

/-- The part of a coordinate vector free of `2cos(π/16)` when it is written `A + B·2cos(π/16)`, with `2cos(2π/16)`
= √(2+√2) and `2cos(4π/16)` = √2. -/
def evenPart (a : Sample) : Quart := ((a[0], a[4]), (a[2] - a[6], a[6]))

/-- The factor of `2cos(π/16)` in that form. -/
def oddPart (a : Sample) : Quart := ((a[1] - a[3] + a[5] - a[7], a[5] - a[7]), (a[3] - a[5], a[7]))

/-- The exact sign of `a[0] + Σ a[m]·2cos(mπ/16)`; `(2cos(π/16))² = 2 + 2cos(2π/16)`. -/
def coordSign (a : Sample) : Int :=
  let A := evenPart a
  let B := oddPart a
  signExt (quartSign A) (quartSign B)
    (quartSign (quartSub (quartMul A A) (quartMul ((2, 0), (1, 0)) (quartMul B B))))

/-- Sum of coordinate vectors. -/
def coordAdd (a b : Sample) : Sample := Vector.ofFn (fun m => a[m] + b[m])

/-- Integer multiple of a coordinate vector. -/
def coordScale (c : Int) (a : Sample) : Sample := Vector.ofFn (fun m => c * a[m])

/-- The coordinate vector of an integer. -/
def coordOfInt (c : Int) : Sample := Vector.ofFn (fun m => if m.val = 0 then c else 0)

/-- Whether the number with coordinates `v` over the denominator `den` is at least `h/2`. -/
def atLeastHalf (v : Sample) (den : Nat) (h : Int) : Bool :=
  decide (0 ≤ coordSign (coordAdd (coordScale 2 v) (coordOfInt (-(h * den)))))

/-- R385's Q8, found bit by bit from bit `n − 1` down: the greatest `q ≤ 255` with `q = 0` or `q − 1/2 ≤ v`. -/
def q8From (v : Sample) (den : Nat) : Nat → Nat → Nat
  | 0, acc => acc
  | n + 1, acc =>
    if atLeastHalf v den (2 * ((acc : Int) + 2 ^ n) - 1) then q8From v den n (acc + 2 ^ n) else q8From v den n acc

/-- R385: `Q8(v) = floor(clamp(v, 0, 255) + 0.5)` of the number `v/den`. -/
def q8 (v : Sample) (den : Nat) : Nat := q8From v den 8 0

end Sys2Proof.Machine
end

