-- ==== Sys2Proof/Machine/BlockTransform.lean ====
section
/-! DEFINITION. Block operations and the inverse DCT (43_block_transform.md R280 to R287). -/

namespace Sys2Proof.Machine

/-- R281: block add. -/
def blockAdd {α : Type} [Add α] (a b : Block α) : Block α := Vector.ofFn (fun n => a[n] + b[n])

/-- R282: block subtract. -/
def blockSub {α : Type} [Sub α] (a b : Block α) : Block α := Vector.ofFn (fun n => a[n] - b[n])

/-- R283: block scale. -/
def blockScale {α : Type} [Mul α] (a : Block α) (k : α) : Block α := Vector.ofFn (fun n => a[n] * k)

/-- R284: block add-scalar. -/
def blockAddScalar {α : Type} [Add α] (a : Block α) (k : α) : Block α := Vector.ofFn (fun n => a[n] + k)

/-- R285: block divide-scalar, `k ≠ 0`, by real division: in a field, so never by the integers' rounding one. -/
def blockDivScalar {α : Type} [Field α] (a : Block α) (k : α) : Block α := Vector.ofFn (fun n => a[n] / k)

/-- A spatial block held exactly over a denominator, as the colour channels are (R289). -/
structure ExactBlock where
  cells : Block Sample
  den   : Nat
  deriving DecidableEq, Repr

/-- R285 on exact numbers: dividing by the integer `k` multiplies the denominator. -/
def ExactBlock.divScalar (a : ExactBlock) (k : Nat) : ExactBlock := { a with den := a.den * k }

/-- A block of zero coefficients (R373's first line). -/
def zeroCoef : Block Int := Vector.replicate 64 0

/-- R286: set_at_zigzag. -/
def setAtZigzag (b : Block Int) (i : Fin 64) (v : Int) : Block Int := b.set (zz2n i) v

/-- The angle, in units of π/16, whose cosine is `2·C(u)·cos(π(2x+1)u/16)`: for `u = 0`, `2·C(0) = √(1/2) = cos(4π/16)`. -/
def basisAngle (x u : Nat) : Nat := if u = 0 then 4 else (2 * x + 1) * u

/-- R287's weight of `F(u,v)` at the cell in column `x` and row `y`, as coordinate `m` over the denominator 16: the product
of two cosines is half the sum of the cosines of the sum and of the difference of their angles. -/
def idctWeight (x y u v m : Nat) : Int :=
  cosCoord (basisAngle x u + basisAngle y v) m
    + cosCoord (max (basisAngle x u) (basisAngle y v) - min (basisAngle x u) (basisAngle y v)) m

/-- R287: one cell of the inverse DCT, exactly. -/
def idctCell (f : Block Int) (x y : Nat) : Sample :=
  Vector.ofFn (fun m =>
    ((List.finRange 64).map (fun n => f[n] * idctWeight x y (n.val % 8) (n.val / 8) m.val)).sum)

/-- R287: extract_inverse_dct. -/
def inverseDct (f : Block Int) : Block Sample := Vector.ofFn (fun n => idctCell f (n.val % 8) (n.val / 8))

end Sys2Proof.Machine
end

