-- ==== Sys2Proof/Machine/Colour.lean ====
section
/-! DEFINITION. Upsampling, level shift, colour conversion, output quantization, and the pixel the engine presents (45_scan_decoder.md R382 to R386). -/

namespace Sys2Proof.Machine

/-- One cell of `S[c][b]` (R41). -/
def sampleCell (s : State) (c : Fin 3) (b : Nat) (n : Fin 64) : Sample :=
  if h : b < 225 then (s.samples[c][b])[n] else coordOfInt 0

/-- R382's `sx` or `sy`: the sample column (row) of pixel column (row) `p`. -/
def upsampleIndex (p f fmax : Nat) : Nat := p * f / fmax

/-- R382: component `c`'s sample for the pixel at offset `(px, py)` within the MCU. -/
def sampleAt (s : State) (c : Fin 3) (px py : Nat) : Sample :=
  let sx := upsampleIndex px s.comp[c].H.toNat s.hmax.toNat
  let sy := upsampleIndex py s.comp[c].V.toNat s.vmax.toNat
  sampleCell s c (sy / 8 * s.comp[c].H.toNat + sx / 8) (Fin.ofNat 64 (8 * (sy % 8) + sx % 8))

/-- R383: the level shift of the luminance sample, 128 over the denominator 16. -/
def levelShift (y : Sample) : Sample := coordAdd y (coordOfInt 2048)

/-- The denominator of a colour channel: 16 for a sample and 10^6 for R384's decimals. -/
def channelDen : Nat := 16000000

/-- R384's R, from the level-shifted luminance. -/
def redOf (y cr : Sample) : Sample := coordAdd (coordScale 1000000 y) (coordScale 1402000 cr)

/-- R384's G. -/
def greenOf (y cb cr : Sample) : Sample :=
  coordAdd (coordScale 1000000 y) (coordAdd (coordScale (-344136) cb) (coordScale (-714136) cr))

/-- R384's B. -/
def blueOf (y cb : Sample) : Sample := coordAdd (coordScale 1000000 y) (coordScale 1772000 cb)

/-- `v/den + sgn·num/tden` as a number over the denominator `den·tden`. -/
def shiftBy (v : Sample) (den : Nat) (sgn : Int) (num tden : Nat) : Sample :=
  coordAdd (coordScale tden v) (coordOfInt (sgn * (num * den)))

/-- The least 8-bit value R289 admits for a channel at tolerance `num/tden`: Q8 at the lower end of the interval. -/
def admittedLow (v : Sample) (den num tden : Nat) : Nat := q8 (shiftBy v den (-1) num tden) (den * tden)

/-- The greatest such value: Q8 at the upper end. -/
def admittedHigh (v : Sample) (den num tden : Nat) : Nat := q8 (shiftBy v den 1 num tden) (den * tden)

/-- A member of the closed interval `lo .. hi`, picked by a free number. -/
def pick (lo hi free : Nat) : Nat := lo + free % (hi - lo + 1)

/-- The emitted channel value: a free choice among the values R289 admits at PIXEL_TOL (log entry 4). -/
def channelOut (v : Sample) (ctr : Nat) : Byte :=
  BitVec.ofNat 8 (pick
    (admittedLow v channelDen Config.pixelTolNum (Config.pixelTolDenPred + 1))
    (admittedHigh v channelDen Config.pixelTolNum (Config.pixelTolDenPred + 1))
    (Config.freeChoice ctr))

/-- The luminance of the pixel at offset `(px, py)`, level-shifted (R382, R383). -/
def lumaAt (s : State) (px py : Nat) : Sample := levelShift (sampleAt s 0 px py)

/-- R384's exact R, G and B of the pixel at offset `(px, py)`. -/
def channelsAt (s : State) (px py : Nat) : Sample × Sample × Sample :=
  (redOf (lumaAt s px py) (sampleAt s 2 px py),
   greenOf (lumaAt s px py) (sampleAt s 1 px py) (sampleAt s 2 px py),
   blueOf (lumaAt s px py) (sampleAt s 1 px py))

/-- R386's X. -/
def pixelX (s : State) : Nat := s.xPos.toNat + s.cur.px

/-- R386's Y. -/
def pixelY (s : State) : Nat := s.yPos.toNat + s.cur.py

/-- The engine presents a pixel and holds (R386, R429): it is emitting, at a position inside the MCU and the frame. -/
def presenting (s : State) : Bool :=
  s.state == .scan && s.cur.phase == .emit && decide (s.cur.py < 8 * s.vmax.toNat)
    && decide (s.cur.px < 8 * s.hmax.toNat) && decide (pixelX s < s.width.toNat) && decide (pixelY s < s.height.toNat)

/-- R386: the three bytes EmitPixel presents. -/
def presentedRgb (s : State) : Byte × Byte × Byte :=
  let v := channelsAt s s.cur.px s.cur.py
  (channelOut v.1 s.freeCtr, channelOut v.2.1 (s.freeCtr + 1), channelOut v.2.2 (s.freeCtr + 2))

end Sys2Proof.Machine
end

