-- ==== Sys2Proof/Machine/Scan.lean ====
section
/-! DEFINITION. The moves of the scan decoder between its elements: block order, the end of a block, the pixel loops, the MCU loop, the end of the scan (45_scan_decoder.md R371, R372, R380, R381, R386, R387). -/

namespace Sys2Proof.Machine

/-- The frame component of the current scan position (R372's `c`). -/
def curComp (s : State) : Fin 3 := s.sc[s.cur.j].fi

/-- R373's first line, on entry to a block: its cells become 0. -/
def enterBlock (j : Fin 3) (row col : Nat) (s : State) : State :=
  { s with
    coef := zeroCoef
    cur := { s.cur with phase := .dc, j := j, row := row, col := col } }

/-- R386's loops begin. -/
def enterEmit (s : State) : State := { s with cur := { s.cur with phase := .emit, px := 0, py := 0 } }

/-- R372's loops after one block: `bx`, then `by`, then `j`; after the last block the MCU is emitted (R371). -/
def nextBlock (s : State) : State :=
  if s.cur.col + 1 < (s.comp[curComp s]).H.toNat then enterBlock s.cur.j s.cur.row (s.cur.col + 1) s
  else if s.cur.row + 1 < (s.comp[curComp s]).V.toNat then enterBlock s.cur.j (s.cur.row + 1) 0 s
  else if h : s.cur.j.val + 1 < 3 then enterBlock ⟨s.cur.j.val + 1, h⟩ 0 0 s
  else enterEmit s

/-- R372's `b`. -/
def curBlock (s : State) : Nat := s.cur.row * (s.comp[curComp s]).H.toNat + s.cur.col

/-- R41: write one block of the MCU sample buffer. -/
def storeSamples (c : Fin 3) (b : Nat) (v : Block Sample) (s : State) : State :=
  { s with samples := s.samples.set c ((s.samples[c]).setIfInBounds b v) }

/-- R380 and R381: dequantize the block, transform it and store its samples; a product out of range raises COEF_RANGE. -/
def finishBlock (s : State) : State :=
  match multiplyBlock Config.coefWidth (s.qt[qtSlot (s.comp[curComp s]).tq]) s.coef with
  | none => raise .coefRange s
  | some f => nextBlock (storeSamples (curComp s) (curBlock s) (inverseDct f) { s with coef := f })

/-- R386's loops after one position. -/
def nextPixel (s : State) : State :=
  if s.cur.px + 1 < 8 * s.hmax.toNat then { s with cur := { s.cur with px := s.cur.px + 1 } }
  else { s with cur := { s.cur with px := 0, py := s.cur.py + 1 } }

/-- R371 after an MCU is emitted: advance `x_pos`, and at the end of a row `y_pos`. -/
def nextMcu (s : State) : State :=
  if s.width.toNat ≤ s.xPos.toNat + 8 * s.hmax.toNat then
    { s with
      xPos := 0#17
      yPos := s.yPos + BitVec.ofNat 17 (8 * s.vmax.toNat)
      cur := { s.cur with phase := .loop } }
  else
    { s with
      xPos := s.xPos + BitVec.ofNat 17 (8 * s.hmax.toNat)
      cur := { s.cur with phase := .loop } }

/-- R387: EndOfScan. -/
def endOfScan (s : State) : State := { bitAlign s with state := .expectEoi }

/-- R371's loop test: another MCU, or the end of the scan. -/
def loopTest (s : State) : State :=
  if s.yPos.toNat < s.height.toNat then enterBlock 0 0 0 s else endOfScan s

/-- The sink has accepted the presented pixel (R386, R429). -/
def deliverPixel (s : State) : State :=
  nextPixel { s with
    raster := s.raster.writePixel (pixelX s) (pixelY s)
      (presentedRgb s).1 (presentedRgb s).2.1 (presentedRgb s).2.2
    pixelsOut := s.pixelsOut + 1#32
    freeCtr := s.freeCtr + 3 }

end Sys2Proof.Machine
end

