-- ==== Sys2Proof/Machine/Ports.lean ====
section
/-! DEFINITION. The meanings of the two port handshakes (46_host_commands.md R428, R429). -/

namespace Sys2Proof.Machine

/-- R428: the host offers a byte; it stays with the host until a ReadByte takes it (R101, R201). -/
def execStreamByte (b : Byte) (last : Bool) (s : State) : Result :=
  .next { s with offered := s.offered ++ [(b, last)] }

/-- R429: the sink accepts the pixel the engine presents; without one there is nothing to accept (log entry 12). -/
def execPixelAccept (s : State) : Result :=
  if presenting s then .next (deliverPixel s) else .next s

end Sys2Proof.Machine
end

