-- ==== Sys2Proof/Machine/Symbols.lean ====
section
/-! DEFINITION. The meanings of class S: DC and AC elements (45_scan_decoder.md R373 to R379). -/

namespace Sys2Proof.Machine

/-- R373: the block's DC coefficient from the difference; the predictor is left as it is when it would leave its range. -/
def dcAccept (diff : Int) (s : State) : Result :=
  if inRange Config.predWidth (s.pred[curComp s] + diff) then
    .next { s with
      pred := s.pred.set (curComp s) (s.pred[curComp s] + diff)
      coef := setAtZigzag s.coef 0 (s.pred[curComp s] + diff)
      k := 1
      cur := { s.cur with phase := .ac } }
  else .next (raise .predRange s)

/-- R379: the cursor has passed position 63. -/
def acCause (k : Nat) : Option Cause := if 63 < k then some .acOverflow else none

/-- R377 and R378: `k <- k + r`, then the check of R379, then `f`. -/
def skipRun (r : BitVec 4) (s : State) (f : State → State) : Result :=
  check (acCause (s.k + r.toNat)) { s with k := s.k + r.toNat } (fun s => .next (f s))

/-- R377 and R378: place `v` at the cursor (R286), then `k <- k + 1`; the cursor has been checked (log entry 22). -/
def placeCoef (v : Int) (s : State) : State :=
  { s with
    coef := setAtZigzag s.coef (Fin.ofNat 64 s.k) v
    k := s.k + 1 }

/-- R373 with `s = 0`: the difference is 0. -/
def execDcZero (s : State) : Result := dcAccept 0 s

/-- R373 with `s` from 1 to 16: the difference is NextNumber(s). -/
def execDcDiff (_s : Byte) (a : List Bool) (s : State) : Result := dcAccept (signedMagnitude a) s

/-- R205: a size category above NUMBER_MAX_BITS. -/
def execDcTooWide (_s : Byte) (s : State) : Result := .next (raise .numberWidth s)

/-- R375: EOB leaves the AC loop. -/
def execEob (s : State) : Result := .next { s with cur := { s.cur with phase := .finish } }

/-- R376: ZRL skips 16 positions. -/
def execZrl (s : State) : Result :=
  if 64 < s.k + 16 then .next (raise .acOverflow s) else .next { s with k := s.k + 16 }

/-- R378: ZSR skips `r` positions and places 0. -/
def execZsr (r : BitVec 4) (s : State) : Result := skipRun r s (placeCoef 0)

/-- R377: the RS byte of a COEF skips `r` positions, and its `n` additional bits are due; these place their value
(log entry 28). -/
def execCoef (r n : BitVec 4) (a : List Bool) (s : State) : Result :=
  match a with
  | [] => skipRun r s (fun s => { s with cur := { s.cur with phase := .value r n } })
  | _ :: _ => .next { placeCoef (signedMagnitude a) s with cur := { s.cur with phase := .ac } }

end Sys2Proof.Machine
end

