-- ==== Sys2Proof/Machine/Dispatch.lean ====
section
/-! DEFINITION. The dispatch of every instruction to its meaning. -/

namespace Sys2Proof.Machine

def exec (i : Instr) (s : State) : Host.Outcome State Fault Refusal :=
  match i with
  | .soi a b => Sys2Proof.Machine.execSoi a b s
  | .soiInSegments => Sys2Proof.Machine.execSoiInSegments s
  | .eoi a b => Sys2Proof.Machine.execEoi a b s
  | .eoiInSegments => Sys2Proof.Machine.execEoiInSegments s
  | .rstn n => Sys2Proof.Machine.execRstn n s
  | .dqt part => Sys2Proof.Machine.execDqt part s
  | .dht L body => Sys2Proof.Machine.execDht L body s
  | .sof0 L body => Sys2Proof.Machine.execSof0 L body s
  | .sof0Second => Sys2Proof.Machine.execSof0Second s
  | .sof2 L => Sys2Proof.Machine.execSof2 L s
  | .sos L body => Sys2Proof.Machine.execSos L body s
  | .sosBeforeSof0 => Sys2Proof.Machine.execSosBeforeSof0 s
  | .app0 L payload => Sys2Proof.Machine.execApp0 L payload s
  | .com L payload => Sys2Proof.Machine.execCom L payload s
  | .other cc L payload => Sys2Proof.Machine.execOther cc L payload s
  | .markerPrefixErr p => Sys2Proof.Machine.execMarkerPrefixErr p s
  | .data b => Sys2Proof.Machine.execData b s
  | .stuff => Sys2Proof.Machine.execStuff s
  | .ecsRst n => Sys2Proof.Machine.execEcsRst n s
  | .ecsMarker cc => Sys2Proof.Machine.execEcsMarker cc s
  | .dcZero => Sys2Proof.Machine.execDcZero s
  | .dcDiff n a => Sys2Proof.Machine.execDcDiff n a s
  | .dcTooWide n => Sys2Proof.Machine.execDcTooWide n s
  | .eob => Sys2Proof.Machine.execEob s
  | .zrl => Sys2Proof.Machine.execZrl s
  | .zsr r => Sys2Proof.Machine.execZsr r s
  | .coef r n a => Sys2Proof.Machine.execCoef r n a s
  | .start hi => Sys2Proof.Machine.execStart hi s
  | .softReset hi => Sys2Proof.Machine.execSoftReset hi s
  | .softResetAndStart hi => Sys2Proof.Machine.execSoftResetAndStart hi s
  | .ctrlNop hi => Sys2Proof.Machine.execCtrlNop hi s
  | .irqEnWrite d => Sys2Proof.Machine.execIrqEnWrite d s
  | .irqAck d => Sys2Proof.Machine.execIrqAck d s
  | .roWrite off d => Sys2Proof.Machine.execRoWrite off d s
  | .regRead off => Sys2Proof.Machine.execRegRead off s
  | .streamByte b last => Sys2Proof.Machine.execStreamByte b last s
  | .pixelAccept => Sys2Proof.Machine.execPixelAccept s

end Sys2Proof.Machine
end

