-- ==== Sys2Proof/Machine/Engine.lean ====
section
/-! DEFINITION. The engine's next action and the host's next turn: which bytes or bits are read, by which decoder, and when the decoded instruction runs (44_segment_parser.md R310, R333; 45_scan_decoder.md R371 to R374; 70_reset_and_hazards.md R489). -/

namespace Sys2Proof.Machine

/-- Run the instruction the taken bytes stand for, or take one more byte (R201). -/
def runBytes (d : Decoded) (s : State) : Result :=
  match d with
  | .more => readByte s
  | .instr i => exec i { s with fetched := [] }

/-- One action on the stream's bytes: where the engine reads is `c`. -/
def streamStep (c : StreamCtx) (s : State) : Result := runBytes (decodeStream c s.fetched) s

/-- R200: one bit for the element being read; an empty buffer is refilled first (R202). -/
def bitStep (s : State) : Result :=
  if s.bitcnt.val = 0 then streamStep .ecs s else .next (takeBit s)

/-- Run the element the taken bits stand for, or take one more bit; sixteen bits that are no code raise (R234). -/
def runBits (r : ElementResult) (s : State) : Result :=
  match r with
  | .more => bitStep s
  | .instr i => exec i { s with bits := [] }
  | .notFound => .next (raise .huffNotFound s)

/-- R373: the DC table of the current scan position. -/
def dcTable (s : State) : HuffTable := s.htDc[slot s.sc[s.cur.j].th]

/-- R374: its AC table. -/
def acTable (s : State) : HuffTable := s.htAc[slot s.sc[s.cur.j].th]

/-- One action of the scan decoder (R371 to R387). -/
def scanStep (s : State) : Result :=
  match s.cur.phase with
  | .loop => .next (loopTest s)
  | .dc => runBits (decodeElement (dcTable s) .dc s.bits) s
  | .ac =>
    if 63 < s.k then .next { s with cur := { s.cur with phase := .finish } }
    else runBits (decodeElement (acTable s) .ac s.bits) s
  | .value r n => runBits (decodeValue r n s.bits).toElement s
  | .finish => .next (finishBlock s)
  | .emit =>
    if 8 * s.vmax.toNat ≤ s.cur.py then .next (nextMcu s)
    else if presenting s then .next s
    else .next (nextPixel s)

/-- One action of the engine; in IDLE, DONE and ERROR it calls no rule and takes no byte (R333). -/
def engineStep (s : State) : Result :=
  match s.state with
  | .idle | .done | .error => .next s
  | .expectSoi => streamStep .soi s
  | .segments => streamStep (.segments s.frameValid s.rem) s
  | .scan => scanStep s
  | .expectEoi => streamStep .eoi s

/-- R102: why a refused access is refused. -/
def refusalOf : AccessError → Refusal
  | .subWord => .subWordAccess
  | .misaligned => .misalignedAccess

/-- One turn outside the engine's control. -/
def turnStep (t : Turn) (s : State) : Result :=
  match t with
  | .engine => engineStep s
  | .hwReset => .next (blockReset s)
  | .host a =>
    match decodeHost a with
    | .ok i => exec i s
    | .error e => .refused (refusalOf e)

/-- The machine's next action: the next turn, and without one the engine's (R110, R114; log entry 8). -/
def nextAction (s : State) : Result :=
  match s.turns with
  | t :: rest => turnStep t { s with turns := rest }
  | [] => engineStep s

/-- A Huffman table with the one code `0`, for the symbol `sym`. -/
def oneCode (sym : Byte) : HuffTable := ⟨(Vector.replicate 16 0#8).set 0 1#8, [sym]⟩

/-- The state in which the next action reads the element `sym` with additional bits `a` as `c` says. -/
def placeElement (c : ElementCtx) (sym : Byte) (a : List Bool) (s : State) : State :=
  match c with
  | .dc =>
    { s with
      turns := []
      state := .scan
      bits := false :: a
      cur := { s.cur with phase := .dc }
      htDc := s.htDc.set (slot s.sc[s.cur.j].th) (oneCode sym)
      htDcValid := s.htDcValid.set (slot s.sc[s.cur.j].th) true }
  | .ac =>
    { s with
      turns := []
      state := .scan
      bits := false :: a
      k := 1
      cur := { s.cur with phase := .ac }
      htAc := s.htAc.set (slot s.sc[s.cur.j].th) (oneCode sym)
      htAcValid := s.htAcValid.set (slot s.sc[s.cur.j].th) true }

/-- The state in which the next action reads the additional bits `a` of a COEF with run `r` and size `n`. -/
def placeValue (r n : BitVec 4) (a : List Bool) (s : State) : State :=
  { s with
    turns := []
    state := .scan
    bits := a
    k := 1
    cur := { s.cur with phase := .value r n } }

/-- The state in which the next action reads the bytes `l` where `c` says. -/
def placeBytes (c : StreamCtx) (l : List Byte) (s : State) : State :=
  match c with
  | .soi => { s with turns := [], state := .expectSoi, fetched := l }
  | .segments fv rem => { s with turns := [], state := .segments, frameValid := fv, rem := rem, fetched := l }
  | .eoi => { s with turns := [], state := .expectEoi, fetched := l }
  | .ecs =>
    { s with
      turns := []
      state := .scan
      bits := []
      bitcnt := 0
      fetched := l
      cur := { s.cur with phase := .dc } }

/-- The state in which the next action reads these words where `c` says. -/
def placeCode (c : Ctx) (w : Code) (s : State) : State :=
  match c, w with
  | .stream c, .bytes l => placeBytes c l s
  | .element c, .element sym a => placeElement c sym a s
  | .value r n, .value a => placeValue r n a s
  | _, .action h => { s with turns := [.host h] }
  | _, _ => s

end Sys2Proof.Machine
end

