-- ==== Sys2Proof/Machine/Step.lean ====
section
/-! DEFINITION. One step of the machine, and the placing of an instruction where the next step reads it. -/

namespace Sys2Proof.Machine

/-- One step (70_reset_and_hazards.md R489): a turn of the host, or one action of the engine. -/
def step (s : State) : Host.Outcome State Fault Refusal := nextAction s

/-- `s` with the instruction of a table word placed where the next step reads it (log entry 9): the bytes taken, the code
bits taken, or the host's action, with the engine where that instruction can stand. -/
def State.withFetchWord (s : State) (nbits w : Nat) : State :=
  match tableCode nbits w with
  | some (c, code) => placeCode c code s
  | none => s

end Sys2Proof.Machine
end

