-- ==== Sys2Proof/Safety.lean ====
section
/-! DEFINITION. What a good state is, in the terms claims use: the invariants of tables, frame, scan, errors and raster, the count of emitted pixels, and the real numbers the exact samples stand for. -/

namespace Sys2Proof.Machine

/-! ## Invariants -/

/-- A Huffman table that passed R318's checks. -/
structure Built (t : HuffTable) : Prop where
  kraft    : kraftSum t.counts ≤ 2 ^ 16
  capacity : totalOf t.counts ≤ Config.huffSymCap
  symbols  : t.symbols.length = totalOf t.counts

/-- Every valid slot holds a table its rule could have stored (R34, R230, R231). -/
structure TablesOk (s : State) : Prop where
  dc : ∀ i : Fin 16, s.htDcValid[i] = true → Built s.htDc[i]
  ac : ∀ i : Fin 16, s.htAcValid[i] = true → Built s.htAc[i]
  qt : ∀ i : Fin 16, s.qtValid[i] = true → ∀ n : Fin 64, ((s.qt[i])[n]).toNat ≤ 255

/-- A valid frame passed R319's and R320's checks. -/
structure FrameOk (s : State) : Prop where
  precision : s.precision = 8#8
  nf        : s.nf = 3#8
  sampling  : ∀ i : Fin 3, s.comp[i].H ≠ 0#4 ∧ s.comp[i].V ≠ 0#4
  ids       : ∀ i j : Fin 3, s.comp[i].id = s.comp[j].id → i = j
  hmax      : s.hmax.toNat = max s.comp[0].H.toNat (max s.comp[1].H.toNat s.comp[2].H.toNat)
  vmax      : s.vmax.toNat = max s.comp[0].V.toNat (max s.comp[1].V.toNat s.comp[2].V.toNat)

/-- Where the loops of R371, R372 and R386 can stand. -/
def CursorOk (s : State) : Prop :=
  match s.cur.phase with
  | .loop => True
  | .dc | .ac | .finish =>
    s.yPos.toNat < s.height.toNat ∧ s.cur.row < (s.comp[curComp s]).V.toNat ∧ s.cur.col < (s.comp[curComp s]).H.toNat
  | .value _ n =>
    s.yPos.toNat < s.height.toNat ∧ s.cur.row < (s.comp[curComp s]).V.toNat ∧ s.cur.col < (s.comp[curComp s]).H.toNat ∧
      s.k ≤ 63 ∧ n ≠ 0#4
  | .emit => s.yPos.toNat < s.height.toNat ∧ s.cur.px < 8 * s.hmax.toNat ∧ s.cur.py ≤ 8 * s.vmax.toNat

/-- A running scan has a frame, distinct components, defined tables, and a position inside the frame (R323, R324, R371). -/
structure ScanOk (s : State) : Prop where
  frame    : s.frameValid = true
  scan     : s.scanValid = true
  distinct : ∀ i j : Fin 3, s.sc[i].fi = s.sc[j].fi → i = j
  tables   : ∀ j : Fin 3, tablesDefined s j = true
  column   : s.xPos.toNat = 0 ∨ s.xPos.toNat < s.width.toNat
  cursor   : CursorOk s

/-- R42, R440, R441, R442: an error is recorded exactly in ERROR, with one of the causes and its kind. -/
def ErrorOk (s : State) : Prop :=
  if s.state = .error then ∃ c : Cause, s.errKind = c.kind.code ∧ s.errCause = c.code
  else s.errKind = 0#3 ∧ s.errCause = 0#8 ∧ s.errPos = 0#32

/-- R40, R377, R378, R379: the AC cursor is at most 64, except that the run which raised AC_OVERFLOW leaves it past that. -/
def AcCursorOk (s : State) : Prop := s.k ≤ if s.state = .error then 78 else 64

/-- The invariant of the machine. -/
structure Inv (s : State) : Prop where
  tables : TablesOk s
  frame  : s.frameValid = true → FrameOk s
  scan   : s.state = .scan → ScanOk s
  ended  : s.state = .expectEoi ∨ s.state = .done → s.frameValid = true ∧ s.scanValid = true
  error  : ErrorOk s
  pred   : ∀ c : Fin 3, inRange Config.predWidth s.pred[c] = true
  cursor : AcCursorOk s
  align  : s.state ≠ .scan → s.state ≠ .error → s.bitcnt = 0
  warn   : s.warn = true ↔ s.warnCount ≠ 0#8
  rem    : s.rem % 65 = 0
  raster : s.raster.wf = true

/-! ## Counting pixels -/

/-- In-frame positions the engine has passed in R371's and R386's loops. -/
def emitted (s : State) : Nat :=
  let w := s.width.toNat
  let h := s.height.toNat
  let rows := min (s.yPos.toNat + 8 * s.vmax.toNat) h - min s.yPos.toNat h
  let cols := min (s.xPos.toNat + 8 * s.hmax.toNat) w - min s.xPos.toNat w
  min s.yPos.toNat h * w + min s.xPos.toNat w * rows
    + (if s.cur.phase = .emit then
        min s.cur.py rows * cols + (if s.cur.py < rows then min s.cur.px cols else 0)
      else 0)

/-- R43, R456: the pixel counter counts them, modulo 2^32, and at the end all of the frame's. -/
def CountOk (s : State) : Prop :=
  match s.state with
  | .idle | .expectSoi | .segments => s.pixelsOut = 0#32
  | .scan => s.pixelsOut = BitVec.ofNat 32 (emitted s)
  | .expectEoi | .done => s.pixelsOut = BitVec.ofNat 32 (s.width.toNat * s.height.toNat)
  | .error => True

/-- The in-frame positions the engine has passed in those loops, as a set. -/
def passed (s : State) (X Y : Nat) : Prop :=
  X < s.width.toNat ∧ Y < s.height.toNat ∧
    (Y < s.yPos.toNat ∨
      (Y < s.yPos.toNat + 8 * s.vmax.toNat ∧
        (X < s.xPos.toNat ∨
          (s.cur.phase = .emit ∧ X < s.xPos.toNat + 8 * s.hmax.toNat ∧
            (Y < s.yPos.toNat + s.cur.py ∨ (Y = s.yPos.toNat + s.cur.py ∧ X < s.xPos.toNat + s.cur.px))))))

/-- The sink holds a pixel: its three cells have values. -/
def pixelHeld (s : State) (X Y : Nat) : Prop :=
  ∀ c : Fin 3, (s.raster.read (pixelAddr X Y c.val)).isSome = true

/-- R386, R456: every position passed, and at the end every position of the frame, has reached the sink. -/
def PixelsOk (s : State) : Prop :=
  match s.state with
  | .scan => ∀ X Y, passed s X Y → pixelHeld s X Y
  | .expectEoi | .done => ∀ X Y, X < s.width.toNat → Y < s.height.toNat → pixelHeld s X Y
  | .idle | .expectSoi | .segments | .error => True

/-! ## Which causes an instruction can record -/

/-- R441's "raised by" column, read by instruction: the causes an instruction's rule can raise. -/
def causesOf : Instr → List Cause
  | .soi _ _ => [.soiMissing]
  | .eoi _ _ => [.eoiMissing]
  | .soiInSegments | .eoiInSegments | .sof0Second | .sosBeforeSof0 => [.unexpectedMarker]
  | .rstn _ | .ecsRst _ => [.restart]
  | .dqt (.header _) | .app0 _ _ | .com _ _ | .other _ _ _ => [.segmentLength]
  | .dht _ _ => [.segmentLength, .huffKraft, .huffCapacity]
  | .sof0 _ _ => [.segmentLength, .channelCount, .precision, .frameParam, .componentRef, .mcuCapacity]
  | .sof2 _ => [.segmentLength, .progressive]
  | .sos _ _ => [.segmentLength, .channelCount, .componentRef, .tableUndefined]
  | .markerPrefixErr _ => [.markerPrefix]
  | .ecsMarker _ => [.markerInScan]
  | .dcZero | .dcDiff _ _ => [.predRange]
  | .dcTooWide _ => [.numberWidth]
  | .zrl | .zsr _ | .coef _ _ [] => [.acOverflow]
  | .dqt (.record _ _) | .data _ | .stuff | .eob | .coef _ _ (_ :: _) | .start _ | .softReset _ | .softResetAndStart _
  | .ctrlNop _ | .irqEnWrite _ | .irqAck _ | .roWrite _ _ | .regRead _ | .streamByte _ _ | .pixelAccept => []

/-! ## What the engine reads next -/

/-- The element the scan decoder is reading: its Huffman table, and which symbol it is (R373, R374). -/
def elementCtx (s : State) : Option (HuffTable × ElementCtx) :=
  if s.state = .scan then
    match s.cur.phase with
    | .dc => some (dcTable s, .dc)
    | .ac => if s.k ≤ 63 then some (acTable s, .ac) else none
    | .loop | .value _ _ | .finish | .emit => none
  else none

/-- What the bits taken so far stand for: an element, or a COEF's additional bits; `none` where the engine reads no bits
(R373, R374, R377). -/
def elementBits (s : State) : Option ElementResult :=
  if s.state = .scan then
    match s.cur.phase with
    | .dc => some (decodeElement (dcTable s) .dc s.bits)
    | .ac => if s.k ≤ 63 then some (decodeElement (acTable s) .ac s.bits) else none
    | .value r n => some (decodeValue r n s.bits).toElement
    | .loop | .finish | .emit => none
  else none

/-- The element being read needs another bit (R233, R204). -/
def needsBit (s : State) : Prop := elementBits s = some .more

/-- Where in the stream the engine reads its next byte (R203): the parser's place in EXPECT_SOI, SEGMENTS and EXPECT_EOI,
and the ECS when an element needs a bit and the bit buffer is empty (R200). -/
inductive ReadsFrom (s : State) : StreamCtx → Prop where
  | soi : s.state = .expectSoi → ReadsFrom s .soi
  | segments : s.state = .segments → ReadsFrom s (.segments s.frameValid s.rem)
  | eoi : s.state = .expectEoi → ReadsFrom s .eoi
  | ecs : needsBit s → s.bitcnt.val = 0 → ReadsFrom s .ecs

/-- The engine's next action is a ReadByte (R201): the bytes taken so far are not a whole instruction. -/
def needsByte (s : State) : Prop := ∃ c, ReadsFrom s c ∧ decodeStream c s.fetched = .more

/-! ## The real numbers the exact samples stand for -/

/-- The real number of a coordinate vector: `a[0] + Σ a[m]·2cos(mπ/16)`. -/
noncomputable def coordReal (a : Sample) : ℝ :=
  (a[0] : ℝ) + ∑ m : Fin 7, (a[m.val + 1] : ℝ) * (2 * Real.cos ((m.val + 1) * Real.pi / 16))

/-- The real number a sample stands for. -/
noncomputable def sampleReal (a : Sample) : ℝ := coordReal a / 16

/-- PIXEL_TOL (R7, R289). -/
noncomputable def pixelTol : ℝ := (Config.pixelTolNum : ℝ) / (Config.pixelTolDenPred + 1)

/-- R287's `C(k)`. -/
noncomputable def dctC (k : Nat) : ℝ := if k = 0 then Real.sqrt (1 / 8) else Real.sqrt (2 / 8)

/-- The real block an exact block stands for. -/
noncomputable def ExactBlock.real (a : ExactBlock) : Block ℝ := Vector.ofFn (fun n => coordReal a.cells[n] / a.den)

/-- R287's formula. -/
noncomputable def idctReal (f : Block Int) (x y : Nat) : ℝ :=
  ∑ u : Fin 8, ∑ v : Fin 8,
    dctC u.val * dctC v.val * (f[8 * v.val + u.val]'(by omega) : ℝ)
      * Real.cos (Real.pi * (2 * x + 1) * u.val / 16) * Real.cos (Real.pi * (2 * y + 1) * v.val / 16)

/-- R385: `Q8(v) = floor(clamp(v, 0, 255) + 0.5)`. -/
noncomputable def q8Real (v : ℝ) : ℤ := ⌊max 0 (min v 255) + 1 / 2⌋

end Sys2Proof.Machine
end

