-- ==== Sys2Proof/Certificates/Slice0/Obligations.lean ====
section
/-! DEFINITION. The statements for the provers: encoding, bit reader, Huffman, quantization, transform and colour, parser, scan, host commands, errors and interrupts, and the rules about the whole machine. -/

open Sys2Proof Sys2Proof.Machine

/-! ## Encoding -/

/-- Every operand of every well-formed instruction survives encoding and decoding, wherever the instruction can stand. -/
def Obligations.DecodeEncodeAgree : Prop :=
  ∀ (c : Ctx) (i : Instr), i.WellFormed = true → admits c i = true → decode c (encode i) = some i

/-- What a decoder reads is a well-formed instruction that can stand there, and the words it read are that instruction's
encoding; a register read has no data, so the encoder writes 0 there. -/
def Obligations.DecodersReadEncodings : Prop :=
  (∀ (c : StreamCtx) (l : List Byte) (i : Instr), decodeStream c l = .instr i →
    i.WellFormed = true ∧ admits (.stream c) i = true ∧ ∃ p, encode i = .bytes p ∧ p <+: l) ∧
  (∀ (c : ElementCtx) (sym : Byte) (a : List Bool) (i : Instr), decodeSymbol c sym a = .instr i →
    i.WellFormed = true ∧ admits (.element c) i = true ∧ ∃ p, encode i = .element sym p ∧ p <+: a) ∧
  (∀ (r n : BitVec 4) (a : List Bool) (i : Instr), n ≠ 0#4 → decodeValue r n a = .instr i →
    i.WellFormed = true ∧ admits (.value r n) i = true ∧ ∃ p, encode i = .value p ∧ p <+: a) ∧
  (∀ (h : HostAction) (i : Instr), decodeHost h = .ok i →
    i.WellFormed = true ∧ admits .host i = true ∧
      (encode i = .action h ∨ ∃ off d, h = .bus ⟨false, off, .w32, d⟩ ∧ encode i = .action (.bus ⟨false, off, .w32, 0#32⟩)))

/-- R158: an instruction of the stream takes all its bytes and no more; every shorter run of its bytes asks for another. -/
def Obligations.ShorterPrefixesNeedMore : Prop :=
  ∀ (c : StreamCtx) (i : Instr) (l p : List Byte), i.WellFormed = true → admits (.stream c) i = true →
    encode i = .bytes l → p <+: l → p ≠ l → decodeStream c p = .more

/-- Words written out from 30_encoding.md and the examples of 44_segment_parser.md. -/
def Obligations.SpecWordsDecode : Prop :=
  decodeStream .soi [0xFF#8, 0xD8#8] = .instr (.soi 0xFF#8 0xD8#8) ∧
  decodeStream .eoi [0xFF#8, 0xD9#8] = .instr (.eoi 0xFF#8 0xD9#8) ∧
  decodeStream (.segments false 0) [0xFF#8, 0xD5#8] = .instr (.rstn 5#3) ∧
  decodeStream (.segments false 0) [0xFF#8, 0xDB#8, 0x00#8, 0x43#8] = .instr (.dqt (.header 0x0043#16)) ∧
  decodeStream (.segments false 0)
      [0xFF#8, 0xC0#8, 0x00#8, 0x11#8, 0x08#8, 0x00#8, 0x08#8, 0x00#8, 0x10#8, 0x03#8,
       0x01#8, 0x21#8, 0x00#8, 0x02#8, 0x11#8, 0x00#8, 0x03#8, 0x11#8, 0x00#8]
    = .instr (.sof0 0x0011#16 (some ⟨0x08#8, 8#16, 16#16, 3#8,
        some #v[⟨1#8, 0x21#8, 0#8⟩, ⟨2#8, 0x11#8, 0#8⟩, ⟨3#8, 0x11#8, 0#8⟩]⟩)) ∧
  decodeStream (.segments true 0)
      [0xFF#8, 0xDA#8, 0x00#8, 0x0C#8, 0x03#8, 0x01#8, 0x00#8, 0x02#8, 0x11#8, 0x03#8, 0x11#8, 0x00#8, 0x3F#8, 0x00#8]
    = .instr (.sos 0x000C#16 (some ⟨3#8, some ⟨#v[⟨1#8, 0x00#8⟩, ⟨2#8, 0x11#8⟩, ⟨3#8, 0x11#8⟩], #v[0x00#8, 0x3F#8, 0x00#8]⟩⟩)) ∧
  decodeStream (.segments false 0) [0xFF#8, 0xFE#8, 0x00#8, 0x05#8, 0x41#8, 0x42#8, 0x43#8]
    = .instr (.com 0x0005#16 [0x41#8, 0x42#8, 0x43#8]) ∧
  decodeStream .ecs [0xFF#8, 0x00#8] = .instr .stuff ∧
  decodeStream .ecs [0xFF#8, 0xD9#8] = .instr (.ecsMarker 0xD9#8) ∧
  decodeSymbol .dc 0x03#8 [true, false, true] = .instr (.dcDiff 3#8 [true, false, true]) ∧
  decodeSymbol .ac 0x23#8 [] = .instr (.coef 2#4 3#4 []) ∧
  decodeValue 2#4 3#4 [true, false, true] = .instr (.coef 2#4 3#4 [true, false, true]) ∧
  decodeSymbol .ac 0xF0#8 [] = .instr .zrl ∧
  decodeHost (.bus ⟨true, 0x04#8, .w32, 0x00000003#32⟩) = .ok (.softResetAndStart 0#30) ∧
  decodeHost (.bus ⟨true, 0x34#8, .w32, 0x00000001#32⟩) = .ok (.irqAck 1#32)

/-! ## Huffman codes -/

/-- R236, which the spec derives from R232: the j-th symbol of length `L` has the code `start(L) + j` as an `L`-bit number,
most significant bit first, and NextSymbol decodes that code, whatever follows it, to `symbols[offset(L) + j]`. -/
def Obligations.HuffmanCodesDecode : Prop :=
  ∀ (t : HuffTable), Built t → ∀ (L j : Nat), 1 ≤ L → L ≤ 16 → j < countOf t.counts L →
    (codeBits t L j).length = L ∧ bitsValue (codeBits t L j) = codeStart t.counts L + j ∧
    ∀ (code rest : List Bool), code.length = L → bitsValue code = codeStart t.counts L + j →
      ∃ sym, t.symbols[codeOffset t.counts L + j]? = some sym ∧ nextSymbol t (code ++ rest) = .found sym rest

/-- R237: no code is a prefix of a longer one, so a bit string starts with at most one code. -/
def Obligations.HuffmanCodesArePrefixFree : Prop :=
  ∀ (t : HuffTable), Built t → ∀ (L L' j j' : Nat), 1 ≤ L → L < L' → L' ≤ 16 →
    j < countOf t.counts L → j' < countOf t.counts L' → ¬ (codeBits t L j <+: codeBits t L' j')

/-- R233, R234: NextSymbol finds a symbol only by a code of the table, takes another bit only while no code fits and fewer
than sixteen bits are taken, and fails exactly when sixteen bits start with no code; the failure raises HUFF_NOT_FOUND. -/
def Obligations.NextSymbolOutcomes : Prop :=
  (∀ (t : HuffTable), Built t → ∀ (bits : List Bool),
    (∀ sym rest, nextSymbol t bits = .found sym rest →
      ∃ L j, 1 ≤ L ∧ L ≤ 16 ∧ j < countOf t.counts L ∧ bits = codeBits t L j ++ rest ∧
        t.symbols[codeOffset t.counts L + j]? = some sym) ∧
    (nextSymbol t bits = .more ↔
      bits.length < 16 ∧ ∀ L j, 1 ≤ L → L ≤ 16 → j < countOf t.counts L → ¬ (codeBits t L j <+: bits)) ∧
    (nextSymbol t bits = .notFound ↔
      16 ≤ bits.length ∧ ∀ L j, 1 ≤ L → L ≤ 16 → j < countOf t.counts L → ¬ (codeBits t L j <+: bits))) ∧
  (∀ (s : State) (t : HuffTable) (c : ElementCtx), s.turns = [] → elementCtx s = some (t, c) →
    nextSymbol t s.bits = .notFound → step s = .next (raise .huffNotFound s))

/-! ## One step -/

/-- A step runs the decoded instruction: the bytes or bits taken at the place the engine reads from, or the host's turn,
decode to `i`, and the step is `exec i` with those words consumed.  A turn given to the engine is the engine's step. -/
def Obligations.StepRunsTheDecodedInstruction : Prop :=
  (∀ (s : State) (c : StreamCtx) (i : Instr), s.turns = [] → ReadsFrom s c → decodeStream c s.fetched = .instr i →
    step s = exec i { s with fetched := [] }) ∧
  (∀ (s : State) (t : HuffTable) (c : ElementCtx) (i : Instr), s.turns = [] → elementCtx s = some (t, c) →
    decodeElement t c s.bits = .instr i → step s = exec i { s with bits := [] }) ∧
  (∀ (s : State) (r n : BitVec 4) (i : Instr), s.turns = [] → s.state = .scan → s.cur.phase = .value r n →
    decodeValue r n s.bits = .instr i → step s = exec i { s with bits := [] }) ∧
  (∀ (s : State) (a : HostAction) (rest : List Turn) (i : Instr), s.turns = .host a :: rest → decodeHost a = .ok i →
    step s = exec i { s with turns := rest }) ∧
  (∀ (s : State) (rest : List Turn), s.turns = .engine :: rest → step s = engineStep { s with turns := rest })

/-- R201: when the engine's next action is a ReadByte, it raises TRUNCATED if the stream has ended, holds while no byte is
offered, and else takes the byte. -/
def Obligations.ReadByteTakesOneByte : Prop :=
  ∀ (s : State), s.turns = [] → needsByte s →
    (s.lastSeen = true → step s = .next (raise .truncated s)) ∧
    (s.lastSeen = false → s.offered = [] → step s = .next s) ∧
    (∀ b last rest, s.lastSeen = false → s.offered = (b, last) :: rest →
      step s = .next { s with
        offered := rest, pos := s.pos + 1#32, lastSeen := last, fetched := s.fetched ++ [b] })

/-- R102: only an aligned 32-bit access to the register window has a meaning. -/
def Obligations.OnlyWordAccessesHaveMeaning : Prop :=
  ∀ (s : State) (a : Access) (rest : List Turn), s.turns = .host (.bus a) :: rest →
    (a.width ≠ .w32 → step s = .refused .subWordAccess) ∧
    (a.width = .w32 → a.off.toNat % 4 ≠ 0 → step s = .refused .misalignedAccess) ∧
    (a.width = .w32 → a.off.toNat % 4 = 0 → ∃ t, step s = .next t)

/-- R200, R106: a needed bit comes from the buffer while it holds one, and eight takes after a refill are the byte's bits
from the most significant down, with no byte taken. -/
def Obligations.NextBitIsMostSignificantFirst : Prop :=
  (∀ (s : State), s.turns = [] → needsBit s → s.bitcnt.val ≠ 0 →
    step s = .next { s with
      bits := s.bits ++ [s.bitbuf.getLsbD (s.bitcnt.val - 1)], bitcnt := ⟨s.bitcnt.val - 1, by omega⟩ }) ∧
  (∀ (s : State) (b : Byte), Nat.iterate takeBit 8 (loadBits b s) = { s with
    bitbuf := b, bitcnt := 0,
    bits := s.bits ++ [b.getLsbD 7, b.getLsbD 6, b.getLsbD 5, b.getLsbD 4, b.getLsbD 3, b.getLsbD 2, b.getLsbD 1,
      b.getLsbD 0] })

/-- R204's value of the additional bits: the raw value, or it less `2^n − 1`; its range; and every value of that range has
exactly one bit string. -/
def Obligations.SignedMagnitudeIsABijection : Prop :=
  signedMagnitude [] = 0 ∧
  (∀ (a : List Bool), signedMagnitude (true :: a) = (bitsValue (true :: a) : Int)) ∧
  (∀ (a : List Bool), signedMagnitude (false :: a) = (bitsValue (false :: a) : Int) - (2 ^ (a.length + 1) - 1)) ∧
  (∀ (n : Nat), 1 ≤ n → ∀ (v : Int),
    (2 ^ (n - 1) ≤ v.natAbs ∧ v.natAbs ≤ 2 ^ n - 1) ↔ ∃! a : List Bool, a.length = n ∧ signedMagnitude a = v)

/-- R101: no lookahead.  What the engine does depends on the offered bytes only through the first one, which it either
takes, adding 1 to `pos`, or leaves. -/
def Obligations.EngineNeverLooksAhead : Prop :=
  ∀ (s : State) (x : Byte × Bool) (r₁ r₂ : List (Byte × Bool)), s.turns = [] →
    ∃ (t : State) (took : Bool),
      step { s with offered := x :: r₁ } = .next { t with offered := if took then r₁ else x :: r₁ } ∧
      step { s with offered := x :: r₂ } = .next { t with offered := if took then r₂ else x :: r₂ } ∧
      t.pos = (if took then s.pos + 1#32 else s.pos) ∧
      (took = true ↔ needsByte s ∧ s.lastSeen = false)

/-- R202: the four classes of entropy-coded bytes. -/
def Obligations.EcsBytesActByClass : Prop :=
  (∀ (b : Byte) (s : State), exec (.data b) s = .next { s with bitbuf := b, bitcnt := 8 }) ∧
  (∀ (s : State), exec .stuff s = .next { s with bitbuf := 0xFF#8, bitcnt := 8 }) ∧
  (∀ (n : BitVec 3) (s : State), exec (.ecsRst n) s = .next (raise .restart s)) ∧
  (∀ (cc : Byte) (s : State), exec (.ecsMarker cc) s = .next (raise .markerInScan s))

/-! ## Quantization -/

/-- R261: ZZ2N is the inverse of R260's zig-zag position and a permutation of 0 to 63. -/
def Obligations.ZigzagIsAPermutation : Prop :=
  (∀ (x y : Fin 8), ∃ h : zigzagPosition x.val y.val < 64, (zz2n ⟨zigzagPosition x.val y.val, h⟩).val = 8 * y.val + x.val) ∧
  Function.Bijective zz2n

/-- R262: entry `ZZ2N[i]` of the built table is the i-th byte, zero-extended to 16 bits. -/
def Obligations.BuildQtPlacesEveryEntry : Prop :=
  ∀ (qzz : Block Byte) (i : Fin 64), (buildQt qzz)[zz2n i] = BitVec.zeroExtend 16 qzz[i]

/-- R263: the products, cell by cell, unless one of them leaves the signed range of `w` bits; and its derived corner: with
entries of at most 255 and AC cells an element can carry, only the DC cell can leave the coefficient range. -/
def Obligations.MultiplyBlockIsExactOrFails : Prop :=
  (∀ (w : Nat) (q : Block (BitVec 16)) (b : Block Int),
    ((∃ n : Fin 64, b[n] * (q[n]).toNat < -(2 ^ (w - 1)) ∨ 2 ^ (w - 1) - 1 < b[n] * (q[n]).toNat) →
      multiplyBlock w q b = none) ∧
    ((∀ n : Fin 64, -(2 ^ (w - 1)) ≤ b[n] * (q[n]).toNat ∧ b[n] * (q[n]).toNat ≤ 2 ^ (w - 1) - 1) →
      ∃ b', multiplyBlock w q b = some b' ∧ ∀ n : Fin 64, b'[n] = b[n] * (q[n]).toNat)) ∧
  (∀ (q : Block (BitVec 16)) (b : Block Int), (∀ n : Fin 64, (q[n]).toNat ≤ 255) →
    (∀ n : Fin 64, n ≠ 0 → (b[n]).natAbs ≤ 2 ^ 15 - 1) →
    (multiplyBlock Config.coefWidth q b = none ↔ inRange Config.coefWidth (b[0] * (q[0]).toNat) = false))

/-! ## Transform, colour and output -/

/-- R287: the sample a cell of the inverse DCT stands for is the formula's exact real value. -/
def Obligations.InverseDctIsExact : Prop :=
  ∀ (f : Block Int) (x y : Fin 8),
    sampleReal ((inverseDct f)[8 * y.val + x.val]'(by omega)) = idctReal f x.val y.val

/-- R290, which the spec derives from R287: a DC-only block gives exactly `F(0,0)/8` in every cell. -/
def Obligations.DcOnlyBlocksAreExact : Prop :=
  ∀ (f : Block Int), (∀ n : Fin 64, n ≠ 0 → f[n] = 0) → ∀ n : Fin 64, sampleReal (inverseDct f)[n] = (f[0] : ℝ) / 8

/-- R385: Q8 clamps to 0 to 255 and rounds half up. -/
def Obligations.Q8RoundsHalfUp : Prop :=
  ∀ (v : Sample) (den : Nat), 0 < den → (q8 v den : ℤ) = q8Real (coordReal v / den)

/-- R289: the values between `admittedLow` and `admittedHigh` are exactly the Q8 of the numbers within the tolerance. -/
def Obligations.AdmittedValuesAreTheToleranceSet : Prop :=
  ∀ (v : Sample) (den num tden q : Nat), 0 < den → 0 < tden →
    ((admittedLow v den num tden ≤ q ∧ q ≤ admittedHigh v den num tden) ↔
      ∃ v' : ℝ, |v' - coordReal v / den| ≤ (num : ℝ) / tden ∧ (q : ℤ) = q8Real v')

/-- R383's level shift and R384's colour conversion, on the real numbers the samples stand for. -/
def Obligations.ColourConversionIsExact : Prop :=
  ∀ (y cb cr : Sample),
    sampleReal (levelShift y) = sampleReal y + 128 ∧
    coordReal (redOf y cr) / channelDen = sampleReal y + 1.402 * sampleReal cr ∧
    coordReal (greenOf y cb cr) / channelDen = sampleReal y - 0.344136 * sampleReal cb - 0.714136 * sampleReal cr ∧
    coordReal (blueOf y cb) / channelDen = sampleReal y + 1.772 * sampleReal cb

/-- R382: the sample indices of a position in the MCU stay inside the component's blocks, and the sample is the cell R382
names. -/
def Obligations.UpsamplingStaysInsideTheMcu : Prop :=
  ∀ (s : State) (c : Fin 3) (px py : Nat), FrameOk s → px < 8 * s.hmax.toNat → py < 8 * s.vmax.toNat →
    let sx := px * s.comp[c].H.toNat / s.hmax.toNat
    let sy := py * s.comp[c].V.toNat / s.vmax.toNat
    let b := sy / 8 * s.comp[c].H.toNat + sx / 8
    sx < 8 * s.comp[c].H.toNat ∧ sy < 8 * s.comp[c].V.toNat ∧
      b < s.comp[c].H.toNat * s.comp[c].V.toNat ∧
      ∃ hb : b < 225, sampleAt s c px py = (s.samples[c][b])[8 * (sy % 8) + sx % 8]'(by omega)

/-- R382 to R386 and R289 end to end: each byte of an accepted pixel is Q8 of a number within PIXEL_TOL of R384's exact
channel value for the three components' samples. -/
def Obligations.AcceptedPixelsAreWithinTolerance : Prop :=
  ∀ (s : State), presenting s = true →
    let y := sampleReal (sampleAt s 0 s.cur.px s.cur.py) + 128
    let cb := sampleReal (sampleAt s 1 s.cur.px s.cur.py)
    let cr := sampleReal (sampleAt s 2 s.cur.px s.cur.py)
    ∃ (t : State) (r g b : Byte), exec .pixelAccept s = .next t ∧
      t.raster.read (pixelAddr (pixelX s) (pixelY s) 0) = some r ∧
      t.raster.read (pixelAddr (pixelX s) (pixelY s) 1) = some g ∧
      t.raster.read (pixelAddr (pixelX s) (pixelY s) 2) = some b ∧
      (∃ v' : ℝ, |v' - (y + 1.402 * cr)| ≤ pixelTol ∧ (r.toNat : ℤ) = q8Real v') ∧
      (∃ v' : ℝ, |v' - (y - 0.344136 * cb - 0.714136 * cr)| ≤ pixelTol ∧ (g.toNat : ℤ) = q8Real v') ∧
      (∃ v' : ℝ, |v' - (y + 1.772 * cb)| ≤ pixelTol ∧ (b.toNat : ℤ) = q8Real v')

/-! ## The segment parser -/

/-- R311, R332: the pair that must be SOI, and the pair that must be EOI; nothing but `state`, and for EOI the DONE status
bit, changes. -/
def Obligations.SoiAndEoiAreCompared : Prop :=
  (∀ (s : State), exec (.soi 0xFF#8 0xD8#8) s = .next { s with state := .segments }) ∧
  (∀ (a b : Byte) (s : State), a ≠ 0xFF#8 ∨ b ≠ 0xD8#8 → exec (.soi a b) s = .next (raise .soiMissing s)) ∧
  (∀ (s : State), exec (.eoi 0xFF#8 0xD9#8) s = .next { s with state := .done, irqStatus := s.irqStatus ||| 0b001#3 }) ∧
  (∀ (a b : Byte) (s : State), a ≠ 0xFF#8 ∨ b ≠ 0xD9#8 → exec (.eoi a b) s = .next (raise .eoiMissing s))

/-- R328 to R331 and R334: a marker out of place raises as soon as its code byte is taken, with no length read. -/
def Obligations.MarkersOutOfPlaceRaise : Prop :=
  (∀ (fv : Bool), decodeStream (.segments fv 0) [0xFF#8, 0xD8#8] = .instr .soiInSegments) ∧
  (∀ (s : State), exec .soiInSegments s = .next (raise .unexpectedMarker s)) ∧
  (∀ (fv : Bool), decodeStream (.segments fv 0) [0xFF#8, 0xD9#8] = .instr .eoiInSegments) ∧
  (∀ (s : State), exec .eoiInSegments s = .next (raise .unexpectedMarker s)) ∧
  (∀ (fv : Bool) (cc : Byte), 0xD0 ≤ cc.toNat → cc.toNat ≤ 0xD7 →
    decodeStream (.segments fv 0) [0xFF#8, cc] = .instr (.rstn (cc.extractLsb' 0 3))) ∧
  (∀ (n : BitVec 3) (s : State), exec (.rstn n) s = .next (raise .restart s)) ∧
  decodeStream (.segments true 0) [0xFF#8, 0xC0#8] = .instr .sof0Second ∧
  (∀ (s : State), exec .sof0Second s = .next (raise .unexpectedMarker s)) ∧
  decodeStream (.segments false 0) [0xFF#8, 0xDA#8] = .instr .sosBeforeSof0 ∧
  (∀ (s : State), exec .sosBeforeSof0 s = .next (raise .unexpectedMarker s)) ∧
  (Cause.unexpectedMarker.kind = .invalidFileFormat ∧ Cause.unexpectedMarker.code = 0x08#8) ∧
  (Cause.restart.kind = .unsupportedFeature ∧ Cause.restart.code = 0x11#8)

/-- R312, R321: a byte other than 0xFF where a marker is due raises at once, and SOF2 raises after its length. -/
def Obligations.PrefixAndProgressiveRaise : Prop :=
  (∀ (fv : Bool) (p : Byte), p ≠ 0xFF#8 → decodeStream (.segments fv 0) [p] = .instr (.markerPrefixErr p)) ∧
  (∀ (p : Byte) (s : State), exec (.markerPrefixErr p) s = .next (raise .markerPrefix s)) ∧
  (∀ (fv : Bool) (hi lo : Byte), decodeStream (.segments fv 0) [0xFF#8, 0xC2#8, hi, lo] = .instr (.sof2 (hi ++ lo))) ∧
  (∀ (L : Half) (s : State), L.toNat < 2 → exec (.sof2 L) s = .next (raise .segmentLength s)) ∧
  (∀ (L : Half) (s : State), 2 ≤ L.toNat → exec (.sof2 L) s = .next (raise .progressive s)) ∧
  (Cause.markerPrefix.kind = .invalidFileFormat ∧ Cause.markerPrefix.code = 0x02#8) ∧
  (Cause.progressive.kind = .unsupportedFeature ∧ Cause.progressive.code = 0x10#8)

/-- R325 to R327, R313: APP0, COM and every other length-bearing code are skipped whole; the instruction is the marker's
`L + 2` bytes and changes nothing beyond having taken them. -/
def Obligations.SkippedSegmentsChangeNothing : Prop :=
  (∀ (fv : Bool) (cc hi lo : Byte) (p : List Byte), cc = 0xE0#8 ∨ cc = 0xFE#8 ∨ isOther cc = true →
    p.length = (hi ++ lo : Half).toNat - 2 →
    decodeStream (.segments fv 0) (0xFF#8 :: cc :: hi :: lo :: p) = .instr
      (if cc = 0xE0#8 then .app0 (hi ++ lo) p else if cc = 0xFE#8 then .com (hi ++ lo) p else .other cc (hi ++ lo) p)) ∧
  (∀ (cc : Byte) (L : Half) (p : List Byte) (s : State), 2 ≤ L.toNat →
    exec (.app0 L p) s = .next s ∧ exec (.com L p) s = .next s ∧ exec (.other cc L p) s = .next s) ∧
  (∀ (cc : Byte) (L : Half) (p : List Byte) (s : State), L.toNat < 2 →
    exec (.app0 L p) s = .next (raise .segmentLength s) ∧ exec (.com L p) s = .next (raise .segmentLength s) ∧
      exec (.other cc L p) s = .next (raise .segmentLength s))

/-- R315 to R317: the head of a DQT checks the length, a record with an id of at most 15 replaces that slot's table, and a
record with a greater id only warns. -/
def Obligations.DqtStoresOrWarns : Prop :=
  (∀ (L : Half) (s : State), L.toNat < 2 ∨ (L.toNat - 2) % 65 ≠ 0 →
    exec (.dqt (.header L)) s = .next (raise .segmentLength s)) ∧
  (∀ (L : Half) (s : State), 2 ≤ L.toNat → (L.toNat - 2) % 65 = 0 →
    exec (.dqt (.header L)) s = .next { s with rem := L.toNat - 2 }) ∧
  (∀ (tq : Byte) (h : tq.toNat < 16) (qzz : Block Byte) (s : State),
    exec (.dqt (.record tq qzz)) s = .next { s with
      rem := s.rem - 65, qt := s.qt.set tq.toNat (buildQt qzz) h, qtValid := s.qtValid.set tq.toNat true h }) ∧
  (∀ (tq : Byte) (qzz : Block Byte) (s : State), 16 ≤ tq.toNat → ∃ n : Byte, n.toNat = min (s.warnCount.toNat + 1) 255 ∧
    exec (.dqt (.record tq qzz)) s = .next { s with
      rem := s.rem - 65, warn := true, warnLastId := tq, warnCount := n, irqStatus := s.irqStatus ||| 0b100#3 })

/-- R318, R231, R235: the DHT's checks in their order, and the table it stores in the slot and class `ref` names. -/
def Obligations.DhtChecksThenStores : Prop :=
  (∀ (L : Half) (s : State), exec (.dht L none) s = .next (raise .segmentLength s)) ∧
  (∀ (L : Half) (ref : Byte) (t : HuffTable) (s : State), L.toNat ≠ totalOf t.counts + 19 →
    exec (.dht L (some ⟨ref, t⟩)) s = .next (raise .segmentLength s)) ∧
  (∀ (L : Half) (ref : Byte) (t : HuffTable) (s : State), L.toNat = totalOf t.counts + 19 → 2 ^ 16 < kraftSum t.counts →
    exec (.dht L (some ⟨ref, t⟩)) s = .next (raise .huffKraft s)) ∧
  (∀ (L : Half) (ref : Byte) (t : HuffTable) (s : State), L.toNat = totalOf t.counts + 19 → kraftSum t.counts ≤ 2 ^ 16 →
    256 < totalOf t.counts → exec (.dht L (some ⟨ref, t⟩)) s = .next (raise .huffCapacity s)) ∧
  (∀ (L : Half) (ref : Byte) (t : HuffTable) (s : State), L.toNat = totalOf t.counts + 19 → kraftSum t.counts ≤ 2 ^ 16 →
    totalOf t.counts ≤ 256 →
    exec (.dht L (some ⟨ref, t⟩)) s = .next
      (if ref.getLsbD 4 = false then
        { s with htDc := s.htDc.set (ref.toNat % 16) t, htDcValid := s.htDcValid.set (ref.toNat % 16) true }
      else
        { s with htAc := s.htAc.set (ref.toNat % 16) t, htAcValid := s.htAcValid.set (ref.toNat % 16) true }))

/-- R319, R320: the SOF0's checks in their order, each leaving the frame record as it was, and the record it stores.
R320's last check never fails at the default capacity of 675 blocks. -/
def Obligations.Sof0ChecksThenStores : Prop :=
  (∀ (L : Half) (s : State), exec (.sof0 L none) s = .next (raise .segmentLength s)) ∧
  (∀ (L : Half) (b : Sof0Body) (s : State), L.toNat ≠ 8 + 3 * b.nf.toNat →
    exec (.sof0 L (some b)) s = .next (raise .segmentLength s)) ∧
  (∀ (L : Half) (b : Sof0Body) (s : State), L.toNat = 8 + 3 * b.nf.toNat → b.nf ≠ 3#8 →
    exec (.sof0 L (some b)) s = .next (raise .channelCount s)) ∧
  (∀ (p : Byte) (h w : Half) (cs : Vector FrameSpec 3) (s : State),
    let H := fun i : Fin 3 => (cs[i].hv).toNat / 16
    let V := fun i : Fin 3 => (cs[i].hv).toNat % 16
    let r := exec (.sof0 17#16 (some ⟨p, h, w, 3#8, some cs⟩)) s
    (p ≠ 8#8 → r = .next (raise .precision s)) ∧
    (p = 8#8 → (∃ i, H i = 0 ∨ V i = 0) → r = .next (raise .frameParam s)) ∧
    (p = 8#8 → (∀ i, H i ≠ 0 ∧ V i ≠ 0) → (∃ i j : Fin 3, i ≠ j ∧ cs[i].id = cs[j].id) → r = .next (raise .componentRef s)) ∧
    (p = 8#8 → (∀ i, H i ≠ 0 ∧ V i ≠ 0) → (∀ i j : Fin 3, i ≠ j → cs[i].id ≠ cs[j].id) →
      ∃ (comp : Vector FrameComp 3) (hmax vmax : BitVec 4),
        (∀ i : Fin 3, comp[i].id = cs[i].id ∧ comp[i].H.toNat = H i ∧ comp[i].V.toNat = V i ∧ comp[i].tq = cs[i].tq) ∧
        hmax.toNat = max (H 0) (max (H 1) (H 2)) ∧ vmax.toNat = max (V 0) (max (V 1) (V 2)) ∧
        r = .next { s with
          precision := p, height := h, width := w, nf := 3#8, comp := comp, hmax := hmax, vmax := vmax,
          frameValid := true }))

/-- R322 to R324: the SOS's checks in their order, and the scan it starts.  A check of R323 that fails leaves the scan
positions resolved before it (log entry 17). -/
def Obligations.SosChecksThenStartsTheScan : Prop :=
  (∀ (L : Half) (s : State), exec (.sos L none) s = .next (raise .segmentLength s)) ∧
  (∀ (L : Half) (b : SosBody) (s : State), L.toNat ≠ 6 + 2 * b.ns.toNat →
    exec (.sos L (some b)) s = .next (raise .segmentLength s)) ∧
  (∀ (L : Half) (b : SosBody) (s : State), L.toNat = 6 + 2 * b.ns.toNat → b.ns ≠ 3#8 →
    exec (.sos L (some b)) s = .next (raise .channelCount s)) ∧
  (∀ (cs : Vector ScanSpec 3) (tr : Vector Byte 3) (s : State), (∀ i j : Fin 3, s.comp[i].id = s.comp[j].id → i = j) →
    let r := exec (.sos 12#16 (some ⟨3#8, some ⟨cs, tr⟩⟩)) s
    ((∃ j : Fin 3, ∀ i : Fin 3, s.comp[i].id ≠ cs[j].cs) → ∃ sc, r = .next (raise .componentRef { s with sc := sc })) ∧
    ((∃ j j' : Fin 3, j ≠ j' ∧ cs[j].cs = cs[j'].cs) → ∃ sc, r = .next (raise .componentRef { s with sc := sc })) ∧
    (∀ (sc : Vector ScanComp 3),
      (∀ j : Fin 3, s.comp[sc[j].fi].id = cs[j].cs ∧ sc[j].th.toNat = (cs[j].t).toNat % 16) →
      (∀ j j' : Fin 3, sc[j].fi = sc[j'].fi → j = j') →
      let defined := fun j : Fin 3 => ∃ h : (s.comp[sc[j].fi].tq).toNat < 16,
        s.qtValid[(s.comp[sc[j].fi].tq).toNat] = true ∧ s.htDcValid[sc[j].th.toNat] = true ∧
          s.htAcValid[sc[j].th.toNat] = true
      ((∃ j, ¬ defined j) → r = .next (raise .tableUndefined { s with sc := sc })) ∧
      ((∀ j, defined j) → r = .next { s with
        sc := sc, scanValid := true, inScan := #v[true, true, true], pred := #v[0, 0, 0], xPos := 0#17, yPos := 0#17,
        bitcnt := 0, cur := Cursor.init, state := .scan })))

/-! ## The scan decoder -/

/-- R373, R205: the DC element of component `c`, the one the current scan position decodes. -/
def Obligations.DcElementsUpdateThePredictor : Prop :=
  (∀ (s : State), let c := s.sc[s.cur.j].fi
    inRange 32 s.pred[c] = true →
    exec .dcZero s = .next { s with
      coef := s.coef.set 0 s.pred[c], k := 1, cur := { s.cur with phase := .ac } }) ∧
  (∀ (n : Byte) (a : List Bool) (s : State), let c := s.sc[s.cur.j].fi
    let p := s.pred[c] + signedMagnitude a
    (-2 ^ 31 ≤ p → p ≤ 2 ^ 31 - 1 →
      exec (.dcDiff n a) s = .next { s with
        pred := s.pred.set c p, coef := s.coef.set 0 p, k := 1, cur := { s.cur with phase := .ac } }) ∧
    (p < -2 ^ 31 ∨ 2 ^ 31 - 1 < p → exec (.dcDiff n a) s = .next (raise .predRange s))) ∧
  (∀ (n : Byte) (s : State), exec (.dcTooWide n) s = .next (raise .numberWidth s)) ∧
  (∀ (n : Byte) (a : List Bool), decodeSymbol .dc n a =
    if n.toNat = 0 then .instr .dcZero
    else if 16 < n.toNat then .instr (.dcTooWide n)
    else if a.length < n.toNat then .more
    else .instr (.dcDiff n (a.take n.toNat)))

/-- R375 to R378: the AC elements at cursor `k`, where they do not pass position 63; a COEF moves the cursor by its run
before its additional bits are taken. -/
def Obligations.AcElementsPlaceAndSkip : Prop :=
  (∀ (s : State), exec .eob s = .next { s with cur := { s.cur with phase := .finish } }) ∧
  (∀ (s : State), s.k + 16 ≤ 64 → exec .zrl s = .next { s with k := s.k + 16 }) ∧
  (∀ (r : BitVec 4) (s : State) (h : s.k + r.toNat < 64), exec (.zsr r) s = .next { s with
    coef := s.coef.set (zz2n ⟨s.k + r.toNat, h⟩) 0, k := s.k + r.toNat + 1 }) ∧
  (∀ (r n : BitVec 4) (s : State), s.k + r.toNat < 64 → exec (.coef r n []) s = .next { s with
    k := s.k + r.toNat, cur := { s.cur with phase := .value r n } }) ∧
  (∀ (r n : BitVec 4) (a : List Bool) (s : State) (h : s.k < 64), a ≠ [] → exec (.coef r n a) s = .next { s with
    coef := s.coef.set (zz2n ⟨s.k, h⟩) (signedMagnitude a), k := s.k + 1, cur := { s.cur with phase := .ac } })

/-- R376 to R379: a ZRL that would pass position 63 raises before it moves the cursor, a ZSR and a COEF after they have added
their run to it; a COEF's RS byte is read with no additional bit. -/
def Obligations.AcOverflowRaises : Prop :=
  (∀ (s : State), 64 < s.k + 16 → exec .zrl s = .next (raise .acOverflow s)) ∧
  (∀ (r : BitVec 4) (s : State), 63 < s.k + r.toNat →
    exec (.zsr r) s = .next (raise .acOverflow { s with k := s.k + r.toNat })) ∧
  (∀ (r n : BitVec 4) (s : State), 63 < s.k + r.toNat →
    exec (.coef r n []) s = .next (raise .acOverflow { s with k := s.k + r.toNat })) ∧
  (∀ (r n : BitVec 4), n ≠ 0#4 → decodeSymbol .ac (r ++ n) [] = .instr (.coef r n []))

/-- R380, R381, R372: at the end of a block's AC loop the block is dequantized, transformed and stored as `S[c][b]`, and
the loops go on to the next block or, after the last, to the MCU's pixels. -/
def Obligations.BlockEndDequantizesAndStores : Prop :=
  ∀ (s : State), s.turns = [] → s.state = .scan → s.cur.phase = .finish →
    let c := s.sc[s.cur.j].fi
    ∀ (h : s.comp[c].tq.toNat < 16),
    let q := s.qt[s.comp[c].tq.toNat]
    let H := s.comp[c].H.toNat
    let b := s.cur.row * H + s.cur.col
    (multiplyBlock 32 q s.coef = none → step s = .next (raise .coefRange s)) ∧
    (∀ f, multiplyBlock 32 q s.coef = some f → ∃ (samples : Vector (Vector (Block Sample) 225) 3),
      (∀ (c' : Fin 3) (b' : Fin 225),
        samples[c'][b'] = if c' = c ∧ b'.val = b then inverseDct f else (s.samples[c'])[b']) ∧
      step s = .next
        (if s.cur.col + 1 < H then { s with
            samples := samples, coef := Vector.replicate 64 0, cur := { s.cur with phase := .dc, col := s.cur.col + 1 } }
        else if s.cur.row + 1 < s.comp[c].V.toNat then { s with
            samples := samples, coef := Vector.replicate 64 0,
            cur := { s.cur with phase := .dc, row := s.cur.row + 1, col := 0 } }
        else if s.cur.j.val + 1 < 3 then { s with
            samples := samples, coef := Vector.replicate 64 0,
            cur := { s.cur with phase := .dc, j := s.cur.j + 1, row := 0, col := 0 } }
        else { s with samples := samples, coef := f, cur := { s.cur with phase := .emit, px := 0, py := 0 } }))

/-- R371, R386, R387: the MCU loop, its pixel positions outside the frame, and the end of the scan, which takes no byte. -/
def Obligations.ScanLoopsFollowTheFrame : Prop :=
  ∀ (s : State), s.turns = [] → s.state = .scan →
    (s.cur.phase = .loop → s.yPos.toNat < s.height.toNat → step s = .next { s with
      coef := Vector.replicate 64 0, cur := { s.cur with phase := .dc, j := 0, row := 0, col := 0 } }) ∧
    (s.cur.phase = .loop → s.height.toNat ≤ s.yPos.toNat → step s = .next { s with bitcnt := 0, state := .expectEoi }) ∧
    (s.cur.phase = .ac → s.k = 64 → step s = .next { s with cur := { s.cur with phase := .finish } }) ∧
    (s.cur.phase = .emit → s.cur.px < 8 * s.hmax.toNat → s.cur.py < 8 * s.vmax.toNat →
      s.width.toNat ≤ s.xPos.toNat + s.cur.px ∨ s.height.toNat ≤ s.yPos.toNat + s.cur.py →
      step s = .next { s with
        cur := if s.cur.px + 1 < 8 * s.hmax.toNat then { s.cur with px := s.cur.px + 1 }
          else { s.cur with px := 0, py := s.cur.py + 1 } }) ∧
    (s.cur.phase = .emit → s.cur.py = 8 * s.vmax.toNat →
      (s.xPos.toNat + 8 * s.hmax.toNat < s.width.toNat → ∃ t, step s = .next t ∧
        t.xPos.toNat = s.xPos.toNat + 8 * s.hmax.toNat ∧
        t = { s with xPos := t.xPos, cur := { s.cur with phase := .loop } }) ∧
      (s.width.toNat ≤ s.xPos.toNat + 8 * s.hmax.toNat → s.yPos.toNat < s.height.toNat → ∃ t, step s = .next t ∧
        t.yPos.toNat = s.yPos.toNat + 8 * s.vmax.toNat ∧
        t = { s with xPos := 0#17, yPos := t.yPos, cur := { s.cur with phase := .loop } }))

/-- R386, R429: an accepted pixel is stored at its own coordinates and nowhere else, is counted, and the loops go on; while
it is not accepted the engine holds. -/
def Obligations.PixelAcceptStoresOnePixel : Prop :=
  ∀ (s : State), s.state = .scan → s.cur.phase = .emit → s.cur.py < 8 * s.vmax.toNat → s.cur.px < 8 * s.hmax.toNat →
    let X := s.xPos.toNat + s.cur.px
    let Y := s.yPos.toNat + s.cur.py
    X < s.width.toNat → Y < s.height.toNat →
    (∃ t, exec .pixelAccept s = .next t ∧
      (∀ c : Fin 3, (t.raster.read (pixelAddr X Y c.val)).isSome = true) ∧
      (∀ a : Nat, (∀ c : Fin 3, a ≠ pixelAddr X Y c.val) → t.raster.read a = s.raster.read a) ∧
      t = { s with
        raster := t.raster, pixelsOut := s.pixelsOut + 1#32, freeCtr := t.freeCtr,
        cur := if s.cur.px + 1 < 8 * s.hmax.toNat then { s.cur with px := s.cur.px + 1 }
          else { s.cur with px := 0, py := s.cur.py + 1 } }) ∧
    (s.turns = [] → step s = .next s)

/-! ## Host commands -/

/-- R420, R482: START in IDLE, DONE and ERROR gives R70's START column, keeps the interrupt state and everything outside
the block, and in every other state does nothing. -/
def Obligations.StartBeginsADecodeWhenIdle : Prop :=
  ∀ (hi : BitVec 30) (s : State),
    (s.state = .idle ∨ s.state = .done ∨ s.state = .error →
      ∃ (bitbuf : Byte) (qt : Vector (Block (BitVec 16)) 16) (htDc htAc : Vector HuffTable 16) (coef : Block Int)
        (k : Fin 65) (samples : Vector (Vector (Block Sample) 225) 3) (n : Nat),
        exec (.start hi) s = .next { State.reset with
          state := .expectSoi, irqEn := s.irqEn, irqStatus := s.irqStatus, bitbuf := bitbuf, qt := qt, htDc := htDc,
          htAc := htAc, coef := coef, k := k.val, samples := samples, offered := s.offered, raster := s.raster,
          busRead := s.busRead, turns := s.turns, freeCtr := n }) ∧
    (s.state = .expectSoi ∨ s.state = .segments ∨ s.state = .scan ∨ s.state = .expectEoi →
      exec (.start hi) s = .next s)

/-- R421, R422, R480: SOFT_RESET, with or without the START bit, and the hardware reset give R70's reset column in every
state; what is outside the block stays. -/
def Obligations.ResetsGiveTheResetColumn : Prop :=
  ∀ (hi : BitVec 30) (s : State),
    ∃ (bitbuf : Byte) (qt : Vector (Block (BitVec 16)) 16) (htDc htAc : Vector HuffTable 16) (coef : Block Int)
      (k : Fin 65) (samples : Vector (Vector (Block Sample) 225) 3) (n : Nat),
      let t := { State.reset with
        bitbuf := bitbuf, qt := qt, htDc := htDc, htAc := htAc, coef := coef, k := k.val, samples := samples,
        offered := s.offered, raster := s.raster, busRead := s.busRead, turns := s.turns, freeCtr := n }
      exec (.softReset hi) s = .next t ∧ exec (.softResetAndStart hi) s = .next t ∧
        ∀ rest, s.turns = .hwReset :: rest → step s = .next { t with turns := rest }

/-- R70's reset column: the values the spec gives for the state right after reset. -/
def Obligations.ResetStateIsTheResetColumn : Prop :=
  let s := State.reset
  s.state = .idle ∧ s.pos = 0#32 ∧ s.bitcnt = 0 ∧ s.qtValid = Vector.replicate 16 false ∧
  s.htDcValid = Vector.replicate 16 false ∧ s.htAcValid = Vector.replicate 16 false ∧
  s.frameValid = false ∧ s.precision = 0#8 ∧ s.height = 0#16 ∧ s.width = 0#16 ∧ s.nf = 0#8 ∧
  s.comp = Vector.replicate 3 ⟨0#8, 0#4, 0#4, 0#8⟩ ∧ s.hmax = 0#4 ∧ s.vmax = 0#4 ∧
  s.scanValid = false ∧ s.sc = Vector.replicate 3 ⟨0, 0#4⟩ ∧ s.inScan = Vector.replicate 3 false ∧
  s.pred = Vector.replicate 3 0 ∧ s.xPos = 0#17 ∧ s.yPos = 0#17 ∧
  s.errKind = 0#3 ∧ s.errCause = 0#8 ∧ s.errPos = 0#32 ∧ s.warn = false ∧ s.warnLastId = 0#8 ∧ s.warnCount = 0#8 ∧
  s.pixelsOut = 0#32 ∧ s.irqEn = 0#3 ∧ s.irqStatus = 0#3 ∧ s.lastSeen = false

/-- R423, R426: a CTRL write with neither command bit, and a write to any offset other than 0x04, 0x30 and 0x34, have no
effect. -/
def Obligations.WritesWithoutEffect : Prop :=
  (∀ (hi : BitVec 30) (s : State), exec (.ctrlNop hi) s = .next s) ∧
  (∀ (d : Word), d.getLsbD 1 = false → d.getLsbD 0 = false → ∃ hi,
    decodeHost (.bus ⟨true, 0x04#8, .w32, d⟩) = .ok (.ctrlNop hi)) ∧
  (∀ (off : Byte) (d : Word) (s : State), exec (.roWrite off d) s = .next s) ∧
  (∀ (off : Byte) (d : Word), off.toNat % 4 = 0 → off ≠ 0x04#8 → off ≠ 0x30#8 → off ≠ 0x34#8 →
    decodeHost (.bus ⟨true, off, .w32, d⟩) = .ok (.roWrite off d))

/-- R424, R425: the two interrupt registers; an acknowledge clears exactly the bits written as 1. -/
def Obligations.InterruptRegisterWrites : Prop :=
  (∀ (d : Word) (s : State), exec (.irqEnWrite d) s = .next { s with irqEn := d.extractLsb' 0 3 }) ∧
  (∀ (d : Word) (s : State), ∃ v : BitVec 3, exec (.irqAck d) s = .next { s with irqStatus := v } ∧
    ∀ i, i < 3 → v.getLsbD i = (s.irqStatus.getLsbD i && !d.getLsbD i)) ∧
  (∀ (d : Word), decodeHost (.bus ⟨true, 0x30#8, .w32, d⟩) = .ok (.irqEnWrite d)) ∧
  (∀ (d : Word), decodeHost (.bus ⟨true, 0x34#8, .w32, d⟩) = .ok (.irqAck d))

/-- R447: the level interrupt line. -/
def Obligations.InterruptLineIsLevel : Prop :=
  ∀ (s : State), irqLine s = true ↔ ∃ i : Fin 3, s.irqEn.getLsbD i.val = true ∧ s.irqStatus.getLsbD i.val = true

/-- R427, R51 to R68: a read returns the register's fields, bit by bit as the map places them, and changes nothing but
what the bus shows.  TH is read at the scan position that decodes the component. -/
def Obligations.RegisterReadsFollowTheMap : Prop :=
  ∀ (s : State) (off : Byte), off.toNat % 4 = 0 → ∃ v : Word, exec (.regRead off) s = .next { s with busRead := v } ∧
    (off = 0x00#8 → v = 0x4A504407#32) ∧
    (off = 0x04#8 → v = 0#32) ∧
    (off = 0x08#8 → v.extractLsb' 0 3 = s.state.code ∧ v.extractLsb' 3 1 = 0#1 ∧
      (v.getLsbD 4 = true ↔ s.state = .expectSoi ∨ s.state = .segments ∨ s.state = .scan ∨ s.state = .expectEoi) ∧
      (v.getLsbD 5 = true ↔ s.state = .done) ∧ (v.getLsbD 6 = true ↔ s.state = .error) ∧ v.getLsbD 7 = s.warn ∧
      v.extractLsb' 8 3 = s.errKind ∧ v.extractLsb' 11 5 = 0#5 ∧ v.extractLsb' 16 8 = s.errCause ∧
      v.extractLsb' 24 8 = 0#8) ∧
    (off = 0x0C#8 → v = s.errPos) ∧
    (off = 0x10#8 → v = s.pos) ∧
    (off = 0x14#8 → v.extractLsb' 0 16 = s.width ∧ v.extractLsb' 16 16 = s.height) ∧
    (off = 0x18#8 → v.extractLsb' 0 8 = s.precision ∧ v.extractLsb' 8 8 = s.nf ∧ v.extractLsb' 16 4 = s.hmax ∧
      v.extractLsb' 20 4 = s.vmax ∧ v.getLsbD 24 = s.frameValid ∧ v.getLsbD 25 = s.scanValid ∧
      v.extractLsb' 26 6 = 0#6) ∧
    (∀ c : Fin 3, off = BitVec.ofNat 8 (0x1C + 4 * c.val) →
      v.extractLsb' 0 8 = s.comp[c].id ∧ v.extractLsb' 8 4 = s.comp[c].H ∧ v.extractLsb' 12 4 = s.comp[c].V ∧
      v.extractLsb' 16 8 = s.comp[c].tq ∧ v.getLsbD 28 = s.inScan[c] ∧ v.extractLsb' 29 3 = 0#3 ∧
      (∀ j : Fin 3, s.sc[j].fi = c → (∀ j' : Fin 3, s.sc[j'].fi = c → j' = j) → v.extractLsb' 24 4 = s.sc[j].th) ∧
      ((∀ j : Fin 3, s.sc[j].fi ≠ c) → v.extractLsb' 24 4 = 0#4)) ∧
    (off = 0x28#8 → (∀ i : Fin 16, v.getLsbD i.val = s.qtValid[i]) ∧ v.extractLsb' 16 16 = 0#16) ∧
    (off = 0x2C#8 → ∀ i : Fin 16, v.getLsbD i.val = s.htDcValid[i] ∧ v.getLsbD (16 + i.val) = s.htAcValid[i]) ∧
    (off = 0x30#8 → v.extractLsb' 0 3 = s.irqEn ∧ v.extractLsb' 3 29 = 0#29) ∧
    (off = 0x34#8 → v.extractLsb' 0 3 = s.irqStatus ∧ v.extractLsb' 3 29 = 0#29) ∧
    (off = 0x38#8 → v.extractLsb' 0 8 = s.warnLastId ∧ v.extractLsb' 8 8 = s.warnCount ∧ v.extractLsb' 16 16 = 0#16) ∧
    (off = 0x3C#8 → (v.extractLsb' 0 16).toNat = s.xPos.toNat % 2 ^ 16 ∧
      (v.extractLsb' 16 16).toNat = s.yPos.toNat % 2 ^ 16) ∧
    (off = 0x40#8 → v = s.pixelsOut) ∧
    (off = 0x44#8 → (v.extractLsb' 0 16).toNat = 256 ∧ (v.extractLsb' 16 8).toNat = 32 ∧
      (v.extractLsb' 24 8).toNat = 32) ∧
    (off = 0x48#8 → (v.extractLsb' 0 16).toNat = 675 ∧ (v.extractLsb' 16 8).toNat = 16 ∧ v.extractLsb' 24 8 = 0#8) ∧
    (0x4C ≤ off.toNat → v = 0#32)

/-- R428, R110: an offered byte waits at the port behind those already offered, and the block's own state does not
change. -/
def Obligations.OfferedBytesWaitAtThePort : Prop :=
  (∀ (b : Byte) (last : Bool) (s : State),
    exec (.streamByte b last) s = .next { s with offered := s.offered ++ [(b, last)] }) ∧
  (∀ (s : State), presenting s = false → exec .pixelAccept s = .next s)

/-! ## Errors and warnings -/

/-- R442, R450: error entry, and no rule of the engine runs in ERROR. -/
def Obligations.ErrorEntryRecordsTheCause : Prop :=
  (∀ (c : Cause) (s : State), raise c s = { s with
    errKind := c.kind.code, errCause := c.code, errPos := s.pos, state := .error,
    irqStatus := s.irqStatus ||| 0b010#3 }) ∧
  (∀ (s : State), s.state = .error → s.turns = [] → step s = .next s)

/-- R440, R441, R31: the codes of the kinds, of the causes with their kinds, and of the control states. -/
def Obligations.CodesAreTheSpecs : Prop :=
  [Kind.invalidFileFormat, .unsupportedFeature, .argumentError, .implementationLimit].map Kind.code = [1#3, 2#3, 3#3, 4#3] ∧
  ([Cause.soiMissing, .markerPrefix, .segmentLength, .huffKraft, .huffNotFound, .acOverflow, .eoiMissing,
      .unexpectedMarker, .componentRef, .tableUndefined, .truncated, .frameParam].map (fun c => (c.code, c.kind))
    = [0x01#8, 0x02#8, 0x03#8, 0x04#8, 0x05#8, 0x06#8, 0x07#8, 0x08#8, 0x09#8, 0x0A#8, 0x0B#8, 0x0C#8].map
        (fun c => (c, Kind.invalidFileFormat))) ∧
  ([Cause.progressive, .restart, .markerInScan, .channelCount, .precision].map (fun c => (c.code, c.kind))
    = [0x10#8, 0x11#8, 0x12#8, 0x13#8, 0x14#8].map (fun c => (c, Kind.unsupportedFeature))) ∧
  (Cause.numberWidth.code = 0x20#8 ∧ Cause.numberWidth.kind = .argumentError) ∧
  ([Cause.huffCapacity, .predRange, .coefRange, .mcuCapacity].map (fun c => (c.code, c.kind))
    = [0x30#8, 0x31#8, 0x32#8, 0x33#8].map (fun c => (c, Kind.implementationLimit))) ∧
  [EngineState.idle, .expectSoi, .segments, .scan, .expectEoi, .done, .error].map EngineState.code
    = [0#3, 1#3, 2#3, 3#3, 4#3, 5#3, 6#3]

/-- R446: the warning. -/
def Obligations.WarningRecordsTheId : Prop :=
  ∀ (id : Byte) (s : State), ∃ n : Byte, n.toNat = min (s.warnCount.toNat + 1) 255 ∧
    warnQtId id s = { s with warn := true, warnLastId := id, warnCount := n, irqStatus := s.irqStatus ||| 0b100#3 }

/-! ## The whole machine -/

/-- R103, R30, R111, R32, R310, R441, R448: the frame of every instruction other than START and the two resets.  Each kind
of state is written only by the instructions named, an error is recorded only with a cause R441 gives the instruction's
rule, an interrupt status bit is set only by its event, and no instruction moves `pos`. -/
def Obligations.EveryInstructionKeepsItsFrame : Prop :=
  ∀ (i : Instr) (s t : State), exec i s = .next t →
    (∀ hi, i ≠ .start hi ∧ i ≠ .softReset hi ∧ i ≠ .softResetAndStart hi) →
    t.pos = s.pos ∧ t.lastSeen = s.lastSeen ∧ t.turns = s.turns ∧ t.fetched = s.fetched ∧ t.bits = s.bits ∧
    ((∀ tq qzz, i ≠ .dqt (.record tq qzz)) → t.qt = s.qt ∧ t.qtValid = s.qtValid ∧ t.warn = s.warn ∧
      t.warnLastId = s.warnLastId ∧ t.warnCount = s.warnCount) ∧
    ((∀ p, i ≠ .dqt p) → t.rem = s.rem) ∧
    ((∀ L b, i ≠ .dht L b) → t.htDc = s.htDc ∧ t.htDcValid = s.htDcValid ∧ t.htAc = s.htAc ∧ t.htAcValid = s.htAcValid) ∧
    ((∀ L b, i ≠ .sof0 L b) → t.frameValid = s.frameValid ∧ t.precision = s.precision ∧ t.height = s.height ∧
      t.width = s.width ∧ t.nf = s.nf ∧ t.comp = s.comp ∧ t.hmax = s.hmax ∧ t.vmax = s.vmax) ∧
    ((∀ L b, i ≠ .sos L b) → t.scanValid = s.scanValid ∧ t.sc = s.sc ∧ t.inScan = s.inScan ∧ t.xPos = s.xPos ∧
      t.yPos = s.yPos ∧ ((∀ n a, i ≠ .dcDiff n a) → i ≠ .dcZero → t.pred = s.pred)) ∧
    ((∀ L b, i ≠ .sos L b) → (∀ b, i ≠ .data b) → i ≠ .stuff → t.bitcnt = s.bitcnt ∧ t.bitbuf = s.bitbuf) ∧
    (i ≠ .pixelAccept → t.pixelsOut = s.pixelsOut ∧ ∀ a, t.raster.read a = s.raster.read a) ∧
    ((∀ d, i ≠ .irqEnWrite d) → t.irqEn = s.irqEn) ∧
    ((∀ off, i ≠ .regRead off) → t.busRead = s.busRead) ∧
    ((∀ b l, i ≠ .streamByte b l) → t.offered = s.offered) ∧
    (i ≠ .dcZero → (∀ n a, i ≠ .dcDiff n a) → i ≠ .zrl → (∀ r, i ≠ .zsr r) → (∀ r n a, i ≠ .coef r n a) →
      t.coef = s.coef ∧ t.k = s.k) ∧
    (t.state = s.state ∨ (t.state = .error ∧ causesOf i ≠ []) ∨ (t.state = .segments ∧ ∃ a b, i = .soi a b) ∨
      (t.state = .done ∧ ∃ a b, i = .eoi a b) ∨ (t.state = .scan ∧ ∃ L b, i = .sos L b)) ∧
    ((∀ L b, i ≠ .sos L b) → i ≠ .dcZero → (∀ n a, i ≠ .dcDiff n a) → i ≠ .eob →
      (∀ r n a, i ≠ .coef r n a) → i ≠ .pixelAccept → t.cur = s.cur) ∧
    (i ≠ .pixelAccept → t.freeCtr = s.freeCtr) ∧
    ((t.errKind = s.errKind ∧ t.errCause = s.errCause ∧ t.errPos = s.errPos) ∨
      (t.state = .error ∧ t.errPos = s.pos ∧ ∃ c ∈ causesOf i, t.errKind = c.kind.code ∧ t.errCause = c.code)) ∧
    (∀ n, n < 3 → s.irqStatus.getLsbD n = false → t.irqStatus.getLsbD n = true →
      (n = 0 ∧ t.state = .done ∧ ∃ a b, i = .eoi a b) ∨ (n = 1 ∧ t.state = .error ∧ causesOf i ≠ []) ∨
      (n = 2 ∧ ∃ tq qzz, i = .dqt (.record tq qzz) ∧ 16 ≤ tq.toNat)) ∧
    ((∀ d, i ≠ .irqAck d) → ∀ n, n < 3 → s.irqStatus.getLsbD n = true → t.irqStatus.getLsbD n = true) ∧
    t.samples = s.samples

/-- The invariant holds right after reset. -/
def Obligations.InvariantHoldsAtReset : Prop := Inv State.reset ∧ CountOk State.reset ∧ PixelsOk State.reset

/-- Every step keeps the invariant: tables that passed their checks, a checked frame, a scan inside its frame, errors
recorded exactly in ERROR, predictors and the AC cursor in range, and a canonical raster. -/
def Obligations.StepKeepsTheInvariant : Prop :=
  ∀ (s t : State), Inv s → step s = .next t → Inv t

/-- R43, R456: the pixel counter counts the in-frame positions passed, so in DONE it is `width · height` modulo 2^32. -/
def Obligations.StepKeepsThePixelCount : Prop :=
  ∀ (s t : State), Inv s → CountOk s → step s = .next t → CountOk t

/-- R386, R456: every in-frame position passed has reached the sink, so in DONE every pixel of the frame has. -/
def Obligations.StepKeepsEveryPixelDelivered : Prop :=
  ∀ (s t : State), Inv s → PixelsOk s → step s = .next t → PixelsOk t

/-- R490: no step taken in SCAN changes a table, unless it resets the block; and in no state does a host access other
than a START or SOFT_RESET command. -/
def Obligations.TablesAreReadOnlyDuringTheScan : Prop :=
  (∀ (s t : State), s.state = .scan → step s = .next t →
    (t.qt = s.qt ∧ t.qtValid = s.qtValid ∧ t.htDc = s.htDc ∧ t.htDcValid = s.htDcValid ∧ t.htAc = s.htAc ∧
      t.htAcValid = s.htAcValid) ∨
    (t.state = .idle ∧ t.qtValid = Vector.replicate 16 false ∧ t.htDcValid = Vector.replicate 16 false ∧
      t.htAcValid = Vector.replicate 16 false)) ∧
  (∀ (s t : State) (a : Access) (rest : List Turn), s.turns = .host (.bus a) :: rest →
    (a.write = true → a.off = 0x04#8 → a.data.getLsbD 0 = false ∧ a.data.getLsbD 1 = false) → step s = .next t →
    t.qt = s.qt ∧ t.qtValid = s.qtValid ∧ t.htDc = s.htDc ∧ t.htDcValid = s.htDcValid ∧ t.htAc = s.htAc ∧
      t.htAcValid = s.htAcValid)

/-- R32, R420, R421, R480: `pos` changes only by taking a byte, which adds 1, or to 0 by a START that is not ignored, a
SOFT_RESET or the hardware reset. -/
def Obligations.PosCountsTakenBytes : Prop :=
  ∀ (s t : State), step s = .next t →
    (t.pos = s.pos ∧ (t.offered = s.offered ∨ ∃ x, t.offered = s.offered ++ [x])) ∨
    (∃ x, s.offered = x :: t.offered ∧ t.pos = s.pos + 1#32 ∧ t.lastSeen = x.2 ∧ s.lastSeen = false) ∨
    (t.pos = 0#32 ∧ t.offered = s.offered ∧
      ((∃ d rest, s.turns = .host (.bus ⟨true, 0x04#8, .w32, d⟩) :: rest ∧ d.getLsbD 1 = false ∧ d.getLsbD 0 = true ∧
          (s.state = .idle ∨ s.state = .done ∨ s.state = .error) ∧ t.state = .expectSoi) ∨
        (∃ d rest, s.turns = .host (.bus ⟨true, 0x04#8, .w32, d⟩) :: rest ∧ d.getLsbD 1 = true ∧ t.state = .idle) ∨
        (∃ rest, s.turns = .hwReset :: rest ∧ t.state = .idle)))

/-- R333, R455, R489: the engine does nothing in IDLE, DONE and ERROR, and while busy every step of it changes the state
unless it waits for a byte or for the sink. -/
def Obligations.EngineWaitsOnlyForTheHost : Prop :=
  ∀ (s : State), s.turns = [] →
    (step s = .next s ↔
      (s.state = .idle ∨ s.state = .done ∨ s.state = .error) ∨
      (needsByte s ∧ s.lastSeen = false ∧ s.offered = []) ∨ presenting s = true)

/-- R449, R115, R310: ERROR and DONE are left only by START, to EXPECT_SOI, and by a reset, to IDLE, and until then no pixel
is emitted, no byte is taken, and the recorded error stays. -/
def Obligations.EndedDecodesStayEnded : Prop :=
  ∀ (s t : State), s.state = .error ∨ s.state = .done → step s = .next t →
    (t.state = s.state ∧ t.raster = s.raster ∧ t.pixelsOut = s.pixelsOut ∧ t.pos = s.pos ∧ t.errKind = s.errKind ∧
      t.errCause = s.errCause ∧ t.errPos = s.errPos) ∨
    (∃ d rest, s.turns = .host (.bus ⟨true, 0x04#8, .w32, d⟩) :: rest ∧ d.getLsbD 1 = false ∧ d.getLsbD 0 = true ∧
      t.state = .expectSoi) ∨
    (∃ d rest, s.turns = .host (.bus ⟨true, 0x04#8, .w32, d⟩) :: rest ∧ d.getLsbD 1 = true ∧ t.state = .idle) ∨
    (∃ rest, s.turns = .hwReset :: rest ∧ t.state = .idle)

/-- R448, R117: an interrupt status bit is set only by its event, and is cleared only by writing 1 to it or by a reset;
START keeps it. -/
def Obligations.InterruptStatusIsSticky : Prop :=
  ∀ (s t : State) (i : Fin 3), step s = .next t →
    (s.irqStatus.getLsbD i.val = false → t.irqStatus.getLsbD i.val = true →
      (i = 0 ∧ s.state = .expectEoi ∧ t.state = .done) ∨
      (i = 1 ∧ s.state.busy = true ∧ t.state = .error) ∨
      (i = 2 ∧ s.state = .segments ∧ t.state = .segments ∧ t.warn = true ∧ 16 ≤ t.warnLastId.toNat)) ∧
    (s.irqStatus.getLsbD i.val = true → t.irqStatus.getLsbD i.val = false →
      (∃ d rest, s.turns = .host (.bus ⟨true, 0x34#8, .w32, d⟩) :: rest ∧ d.getLsbD i.val = true) ∨
      (∃ d rest, s.turns = .host (.bus ⟨true, 0x04#8, .w32, d⟩) :: rest ∧ d.getLsbD 1 = true) ∨
      (∃ rest, s.turns = .hwReset :: rest))

/-- R310: the transitions of the parser's states that one action of the engine can make, and no others. -/
def Obligations.EngineMakesOnlyTheParsersTransitions : Prop :=
  ∀ (s t : State), s.turns = [] → step s = .next t → t.state ≠ s.state →
    (s.state = .expectSoi ∧ t.state = .segments) ∨ (s.state = .segments ∧ t.state = .scan) ∨
    (s.state = .scan ∧ t.state = .expectEoi) ∨ (s.state = .expectEoi ∧ t.state = .done) ∨
    (s.state.busy = true ∧ t.state = .error ∧ t.irqStatus.getLsbD 1 = true ∧ t.errPos = s.pos)
end

