-- ==== Sys2Proof/Laws/Engine.lean ====
section
/-! SUPPORT. What a step can do, said once: the engine's actions, the turns, and which instructions each decoder can read. -/

namespace Sys2Proof.Machine

theorem step_engine (s : State) (h : s.turns = []) : step s = engineStep s := by
  simp [step, nextAction, h]

theorem step_turn (s : State) (t : Turn) (rest : List Turn) (h : s.turns = t :: rest) :
    step s = turnStep t { s with turns := rest } := by
  simp [step, nextAction, h]

/-! ## The engine's actions -/

/-- Every action one engine step can be, with its guard. -/
inductive EngineAction (s : State) : Result → Prop where
  | idle : s.state = .idle ∨ s.state = .done ∨ s.state = .error → EngineAction s (.next s)
  | read : needsByte s → EngineAction s (readByte s)
  | stream (c : StreamCtx) (i : Instr) : ReadsFrom s c → decodeStream c s.fetched = .instr i →
      EngineAction s (exec i { s with fetched := [] })
  | bit : needsBit s → s.bitcnt.val ≠ 0 → EngineAction s (.next (takeBit s))
  | element (i : Instr) : elementBits s = some (.instr i) → EngineAction s (exec i { s with bits := [] })
  | noSymbol : elementBits s = some .notFound → EngineAction s (.next (raise .huffNotFound s))
  | loop : s.state = .scan → s.cur.phase = .loop → EngineAction s (.next (loopTest s))
  | acDone : s.state = .scan → s.cur.phase = .ac → 63 < s.k →
      EngineAction s (.next { s with cur := { s.cur with phase := .finish } })
  | finish : s.state = .scan → s.cur.phase = .finish → EngineAction s (.next (finishBlock s))
  | mcu : s.state = .scan → s.cur.phase = .emit → 8 * s.vmax.toNat ≤ s.cur.py → EngineAction s (.next (nextMcu s))
  | hold : presenting s = true → EngineAction s (.next s)
  | skip : s.state = .scan → s.cur.phase = .emit → s.cur.py < 8 * s.vmax.toNat → presenting s = false →
      EngineAction s (.next (nextPixel s))

theorem streamStep_action (s : State) (c : StreamCtx) (h : ReadsFrom s c) : EngineAction s (streamStep c s) := by
  unfold streamStep runBytes
  cases hd : decodeStream c s.fetched with
  | more => exact .read ⟨c, h, hd⟩
  | instr i => exact .stream c i h hd

theorem runBits_action (s : State) (r : ElementResult) (h : elementBits s = some r) : EngineAction s (runBits r s) := by
  cases r with
  | more =>
    have hn : needsBit s := h
    show EngineAction s (bitStep s)
    unfold bitStep
    split
    · rename_i h0; exact streamStep_action s .ecs (.ecs hn h0)
    · rename_i h0; exact .bit hn h0
  | instr i => exact .element i h
  | notFound => exact .noSymbol h

/-- Every engine step is one of these actions. -/
theorem engineStep_action (s : State) : EngineAction s (engineStep s) := by
  unfold engineStep
  split
  · exact .idle (.inl ‹_›)
  · exact .idle (.inr (.inl ‹_›))
  · exact .idle (.inr (.inr ‹_›))
  · exact streamStep_action s .soi (.soi ‹_›)
  · exact streamStep_action s _ (.segments ‹_›)
  · rename_i hs
    unfold scanStep
    split
    · exact .loop hs ‹_›
    · rename_i hp; exact runBits_action s _ (by simp [elementBits, hs, hp])
    · rename_i hp
      split
      · exact .acDone hs hp ‹_›
      · rename_i hk; exact runBits_action s _ (by simp [elementBits, hs, hp]; omega)
    · rename_i hp; exact runBits_action s _ (by simp [elementBits, hs, hp])
    · exact .finish hs ‹_›
    · rename_i hp
      split
      · exact .mcu hs hp ‹_›
      · split
        · exact .hold ‹_›
        · rename_i h1 h2; exact .skip hs hp (by omega) (by simpa using h2)
  · exact streamStep_action s .eoi (.eoi ‹_›)

/-- Where the engine reads bits, its step runs or goes on with what they stand for. -/
theorem runBits_of_bits (s : State) (r : ElementResult) (h : elementBits s = some r) : engineStep s = runBits r s := by
  unfold elementBits at h
  split at h
  · rename_i hs
    split at h
    · rename_i hp; cases h; simp [engineStep, hs, scanStep, hp]
    · rename_i hp
      split at h
      · rename_i hk; cases h; simp [engineStep, hs, scanStep, hp]; omega
      · cases h
    · rename_i hp; cases h; simp [engineStep, hs, scanStep, hp]
    all_goals cases h
  · cases h

theorem streamStep_of_reads (s : State) (c : StreamCtx) (h : ReadsFrom s c) : engineStep s = streamStep c s := by
  cases h with
  | soi h => simp [engineStep, h]
  | segments h => simp [engineStep, h]
  | eoi h => simp [engineStep, h]
  | ecs hn h0 => rw [runBits_of_bits s _ hn]; simp [runBits, bitStep, h0]

/-- The bits of an element with a Huffman code. -/
theorem elementBits_of_ctx {s : State} {t : HuffTable} {c : ElementCtx} (h : elementCtx s = some (t, c)) :
    elementBits s = some (decodeElement t c s.bits) := by
  unfold elementCtx at h
  unfold elementBits
  split at h
  · rename_i hs
    simp only [hs, if_true]
    split at h
    · rename_i hp; cases h; simp [hp]
    · rename_i hp
      split at h
      · rename_i hk; cases h; simp [hp, hk]
      · cases h
    all_goals cases h
  · cases h

/-- The additional bits of a COEF. -/
theorem elementBits_of_value {s : State} {r n : BitVec 4} (hs : s.state = .scan) (hp : s.cur.phase = .value r n) :
    elementBits s = some (decodeValue r n s.bits).toElement := by
  simp [elementBits, hs, hp]

theorem runBits_of_element (s : State) (t : HuffTable) (c : ElementCtx) (h : elementCtx s = some (t, c)) :
    engineStep s = runBits (decodeElement t c s.bits) s := runBits_of_bits s _ (elementBits_of_ctx h)

/-! ## Turns -/

/-- A bus write of the word `d` at `off`. -/
def busWrite (off : Byte) (d : Word) : HostAction := .bus ⟨true, off, .w32, d⟩

/-- Every meaning a host action can have, with the action it comes from. -/
inductive HostCase (a : HostAction) : Instr → Prop where
  | start (d : Word) (hi : BitVec 30) : a = busWrite 0x04#8 d → d.getLsbD 1 = false → d.getLsbD 0 = true →
      HostCase a (.start hi)
  | softReset (d : Word) (hi : BitVec 30) : a = busWrite 0x04#8 d → d.getLsbD 1 = true → d.getLsbD 0 = false →
      HostCase a (.softReset hi)
  | softResetAndStart (d : Word) (hi : BitVec 30) : a = busWrite 0x04#8 d → d.getLsbD 1 = true → d.getLsbD 0 = true →
      HostCase a (.softResetAndStart hi)
  | ctrlNop (d : Word) (hi : BitVec 30) : a = busWrite 0x04#8 d → d.getLsbD 1 = false → d.getLsbD 0 = false →
      HostCase a (.ctrlNop hi)
  | irqEnWrite (d : Word) : a = busWrite 0x30#8 d → HostCase a (.irqEnWrite d)
  | irqAck (d : Word) : a = busWrite 0x34#8 d → HostCase a (.irqAck d)
  | roWrite (off : Byte) (d : Word) : a = busWrite off d → off ≠ 0x04#8 → HostCase a (.roWrite off d)
  | regRead (off : Byte) (d : Word) : a = .bus ⟨false, off, .w32, d⟩ → HostCase a (.regRead off)
  | streamByte (b : Byte) (last : Bool) : a = .offer b last → HostCase a (.streamByte b last)
  | pixelAccept : a = .accept → HostCase a .pixelAccept

theorem decodeHost_case (a : HostAction) (i : Instr) (h : decodeHost a = .ok i) : HostCase a i := by
  cases a with
  | offer b last => cases h; exact .streamByte b last rfl
  | accept => cases h; exact .pixelAccept rfl
  | bus a =>
    obtain ⟨w, off, wd, d⟩ := a
    simp only [decodeHost] at h
    split at h
    · cases h
    split at h
    · cases h
    rename_i hw hoff
    have hw := not_not.1 hw
    subst hw
    split at h
    · rename_i hwr; subst hwr; cases h
      unfold decodeWrite
      split
      · rename_i e; subst e
        split
        · split
          · exact .softResetAndStart d _ rfl ‹_› ‹_›
          · exact .softReset d _ rfl ‹_› ((Bool.not_eq_true _).mp ‹_›)
        · split
          · exact .start d _ rfl ((Bool.not_eq_true _).mp ‹_›) ‹_›
          · exact .ctrlNop d _ rfl ((Bool.not_eq_true _).mp ‹_›) ((Bool.not_eq_true _).mp ‹_›)
      split
      · subst_vars; exact .irqEnWrite d rfl
      split
      · subst_vars; exact .irqAck d rfl
      · exact .roWrite off d rfl ‹_›
    · rename_i hwr; simp only [Bool.not_eq_true] at hwr; subst hwr; cases h
      exact .regRead off d rfl

/-- Every way a step can answer a next state: the engine acts, the block is reset, or the host's instruction runs. -/
inductive StepCase (s : State) : Result → Prop where
  | engine (r : Result) : s.turns = [] → EngineAction s r → StepCase s r
  | engineTurn (rest : List Turn) (r : Result) : s.turns = .engine :: rest →
      EngineAction { s with turns := rest } r → StepCase s r
  | hwReset (rest : List Turn) : s.turns = .hwReset :: rest → StepCase s (.next (blockReset { s with turns := rest }))
  | host (a : HostAction) (rest : List Turn) (i : Instr) : s.turns = .host a :: rest → HostCase a i →
      StepCase s (exec i { s with turns := rest })
  | refused (r : Refusal) : StepCase s (.refused r)

theorem step_case (s : State) : StepCase s (step s) := by
  cases h : s.turns with
  | nil => rw [step_engine s h]; exact .engine _ h (engineStep_action s)
  | cons t rest =>
    rw [step_turn s t rest h]
    cases t with
    | engine => exact .engineTurn rest _ h (engineStep_action _)
    | hwReset => exact .hwReset rest h
    | host a =>
      show StepCase s (match decodeHost a with | .ok i => exec i _ | .error e => .refused (refusalOf e))
      cases hd : decodeHost a with
      | ok i => exact .host a rest i h (decodeHost_case a i hd)
      | error e => exact .refused _

/-! ## What a decoder can read -/

/-- The instructions that stand among the segments. -/
inductive SegmentInstr : Instr → Prop where
  | soiInSegments : SegmentInstr .soiInSegments
  | eoiInSegments : SegmentInstr .eoiInSegments
  | rstn (n : BitVec 3) : SegmentInstr (.rstn n)
  | dqt (p : DqtPart) : SegmentInstr (.dqt p)
  | dht (L : Half) (b : Option DhtBody) : SegmentInstr (.dht L b)
  | sof0 (L : Half) (b : Option Sof0Body) : SegmentInstr (.sof0 L b)
  | sof0Second : SegmentInstr .sof0Second
  | sof2 (L : Half) : SegmentInstr (.sof2 L)
  | sos (L : Half) (b : Option SosBody) : SegmentInstr (.sos L b)
  | sosBeforeSof0 : SegmentInstr .sosBeforeSof0
  | app0 (L : Half) (p : List Byte) : SegmentInstr (.app0 L p)
  | com (L : Half) (p : List Byte) : SegmentInstr (.com L p)
  | other (cc : Byte) (L : Half) (p : List Byte) : SegmentInstr (.other cc L p)
  | markerPrefixErr (p : Byte) : SegmentInstr (.markerPrefixErr p)

theorem decodeSkip_eq (mk : List Byte → Instr) (L : Half) (p : List Byte) (i : Instr) (h : decodeSkip mk L p = .instr i) :
    ∃ q, i = mk q := by
  unfold decodeSkip at h; split at h
  · cases h
  · cases h; exact ⟨_, rfl⟩

theorem decodeDht_eq (L : Half) (p : List Byte) (i : Instr) (h : decodeDht L p = .instr i) : ∃ b, i = .dht L b := by
  unfold decodeDht at h
  repeat' split at h
  all_goals cases h <;> exact ⟨_, rfl⟩

theorem decodeSof0_eq (L : Half) (p : List Byte) (i : Instr) (h : decodeSof0 L p = .instr i) : ∃ b, i = .sof0 L b := by
  unfold decodeSof0 at h
  repeat' split at h
  all_goals cases h <;> exact ⟨_, rfl⟩

theorem decodeSos_eq (L : Half) (p : List Byte) (i : Instr) (h : decodeSos L p = .instr i) : ∃ b, i = .sos L b := by
  unfold decodeSos at h
  repeat' split at h
  all_goals cases h <;> exact ⟨_, rfl⟩

theorem decodeSegment_class (cc : Byte) (L : Half) (p : List Byte) (i : Instr) (h : decodeSegment cc L p = .instr i) :
    SegmentInstr i ∧ (∀ L b, i = .sof0 L b → cc = 0xC0#8) ∧ (∀ L b, i = .sos L b → cc = 0xDA#8) := by
  unfold decodeSegment at h
  split at h
  · cases h; exact ⟨.dqt _, nofun, nofun⟩
  split at h
  · obtain ⟨b, rfl⟩ := decodeDht_eq _ _ _ h; exact ⟨.dht _ _, nofun, nofun⟩
  split at h
  · obtain ⟨b, rfl⟩ := decodeSof0_eq _ _ _ h; exact ⟨.sof0 _ _, fun _ _ _ => ‹_›, nofun⟩
  split at h
  · cases h; exact ⟨.sof2 _, nofun, nofun⟩
  split at h
  · obtain ⟨b, rfl⟩ := decodeSos_eq _ _ _ h; exact ⟨.sos _ _, nofun, fun _ _ _ => ‹_›⟩
  split at h
  · obtain ⟨b, rfl⟩ := decodeSkip_eq _ _ _ _ h; exact ⟨.app0 _ _, nofun, nofun⟩
  split at h
  · obtain ⟨b, rfl⟩ := decodeSkip_eq _ _ _ _ h; exact ⟨.com _ _, nofun, nofun⟩
  · obtain ⟨b, rfl⟩ := decodeSkip_eq _ _ _ _ h; exact ⟨.other _ _ _, nofun, nofun⟩

/-- Among the segments: a segment's instruction; SOF0 only without a frame and SOS only with one. -/
theorem decodeStream_segments (fv : Bool) (rem : Nat) (l : List Byte) (i : Instr)
    (h : decodeStream (.segments fv rem) l = .instr i) :
    SegmentInstr i ∧ (∀ L b, i = .sof0 L b → fv = false) ∧ (∀ L b, i = .sos L b → fv = true) ∧
      ((∃ tq q, i = .dqt (.record tq q)) ↔ rem ≠ 0) := by
  unfold decodeStream at h
  simp only at h
  split at h
  · rename_i hr
    unfold decodeMarker at h
    split at h
    · cases h
    split at h
    · cases h; exact ⟨.markerPrefixErr _, nofun, nofun, by simp [hr]⟩
    split at h
    · cases h
    unfold decodeCode at h
    split at h
    · cases h; exact ⟨.soiInSegments, nofun, nofun, by simp [hr]⟩
    split at h
    · cases h; exact ⟨.eoiInSegments, nofun, nofun, by simp [hr]⟩
    split at h
    · cases h; exact ⟨.rstn _, nofun, nofun, by simp [hr]⟩
    split at h
    · cases h; exact ⟨.sof0Second, nofun, nofun, by simp [hr]⟩
    split at h
    · cases h; exact ⟨.sosBeforeSof0, nofun, nofun, by simp [hr]⟩
    rename_i h4 h5
    split at h
    · obtain ⟨a, b, c⟩ := decodeSegment_class _ _ _ _ h
      refine ⟨a, fun L x e => ?_, fun L x e => ?_, ?_⟩
      · by_contra hc; exact h4 ⟨b L x e, by simpa using hc⟩
      · by_contra hc; exact h5 ⟨c L x e, by simpa using hc⟩
      · constructor
        · rintro ⟨tq, q, rfl⟩
          exfalso
          unfold decodeSegment at h
          repeat' split at h
          all_goals first
            | (cases h)
            | (obtain ⟨b, hb⟩ := decodeDht_eq _ _ _ h; cases hb)
            | (obtain ⟨b, hb⟩ := decodeSof0_eq _ _ _ h; cases hb)
            | (obtain ⟨b, hb⟩ := decodeSos_eq _ _ _ h; cases hb)
            | (obtain ⟨b, hb⟩ := decodeSkip_eq _ _ _ _ h; cases hb)
        · intro hh; exact absurd hr hh
    · cases h
  · rename_i hr
    unfold decodeRecord at h
    split at h
    · cases h
    · cases h; exact ⟨.dqt _, nofun, nofun, by simp [hr]⟩

theorem decodeStream_soi (l : List Byte) (i : Instr) (h : decodeStream .soi l = .instr i) : ∃ a b, i = .soi a b := by
  simp only [decodeStream, decodeSoi] at h; split at h <;> cases h; exact ⟨_, _, rfl⟩

theorem decodeStream_eoi (l : List Byte) (i : Instr) (h : decodeStream .eoi l = .instr i) : ∃ a b, i = .eoi a b := by
  simp only [decodeStream, decodeEoi] at h; split at h <;> cases h; exact ⟨_, _, rfl⟩

theorem decodeStream_ecs (l : List Byte) (i : Instr) (h : decodeStream .ecs l = .instr i) :
    (∃ b, i = .data b) ∨ i = .stuff ∨ (∃ n, i = .ecsRst n) ∨ ∃ cc, i = .ecsMarker cc := by
  simp only [decodeStream] at h
  unfold decodeEcs at h
  split at h
  · cases h
  split at h
  · cases h; exact .inl ⟨_, rfl⟩
  split at h
  · cases h
  split at h
  · cases h; exact .inr (.inl rfl)
  split at h
  · cases h; exact .inr (.inr (.inl ⟨_, rfl⟩))
  · cases h; exact .inr (.inr (.inr ⟨_, rfl⟩))

@[simp] theorem toElement_instr {d : Decoded} {i : Instr} : d.toElement = .instr i ↔ d = .instr i := by
  cases d <;> simp [Decoded.toElement]

@[simp] theorem toElement_more {d : Decoded} : d.toElement = .more ↔ d = .more := by
  cases d <;> simp [Decoded.toElement]

@[simp] theorem toElement_notFound {d : Decoded} : d.toElement ≠ .notFound := by
  cases d <;> simp [Decoded.toElement]

/-- An element's instruction is its symbol's. -/
theorem decodeElement_symbol {t : HuffTable} {c : ElementCtx} {bits : List Bool} {i : Instr}
    (h : decodeElement t c bits = .instr i) : ∃ sym a, decodeSymbol c sym a = .instr i := by
  unfold decodeElement at h
  split at h
  · cases h
  · cases h
  · exact ⟨_, _, toElement_instr.1 h⟩

theorem decodeElement_dc (t : HuffTable) (bits : List Bool) (i : Instr) (h : decodeElement t .dc bits = .instr i) :
    i = .dcZero ∨ (∃ n a, i = .dcDiff n a) ∨ ∃ n, i = .dcTooWide n := by
  obtain ⟨sym, a, hd⟩ := decodeElement_symbol h
  simp only [decodeSymbol, decodeDcSymbol] at hd
  repeat' split at hd
  all_goals cases hd
  · exact .inl rfl
  · exact .inr (.inr ⟨_, rfl⟩)
  · exact .inr (.inl ⟨_, _, rfl⟩)

theorem decodeElement_ac (t : HuffTable) (bits : List Bool) (i : Instr) (h : decodeElement t .ac bits = .instr i) :
    i = .eob ∨ i = .zrl ∨ (∃ r, i = .zsr r) ∨ ∃ r n, n ≠ 0#4 ∧ i = .coef r n [] := by
  obtain ⟨sym, a, hd⟩ := decodeElement_symbol h
  simp only [decodeSymbol, decodeAcSymbol] at hd
  repeat' split at hd
  all_goals cases hd
  · exact .inl rfl
  · exact .inr (.inl rfl)
  · exact .inr (.inr (.inl ⟨_, rfl⟩))
  · exact .inr (.inr (.inr ⟨_, _, ‹_›, rfl⟩))

theorem decodeValue_instr {r n : BitVec 4} {a : List Bool} {i : Instr} (h : decodeValue r n a = .instr i) :
    ∃ b rest, a = b :: rest ∧ n.toNat - 1 ≤ rest.length ∧ i = .coef r n (b :: rest.take (n.toNat - 1)) := by
  unfold decodeValue at h
  split at h
  · cases h
  · split at h <;> cases h
    exact ⟨_, _, rfl, by omega, rfl⟩

/-- The element being read is a DC element in phase `dc` and an AC element in phase `ac`. -/
theorem elementCtx_cases (s : State) (t : HuffTable) (c : ElementCtx) (h : elementCtx s = some (t, c)) :
    s.state = .scan ∧ ((s.cur.phase = .dc ∧ t = dcTable s ∧ c = .dc) ∨
      (s.cur.phase = .ac ∧ s.k ≤ 63 ∧ t = acTable s ∧ c = .ac)) := by
  unfold elementCtx at h
  split at h
  · rename_i hs
    split at h
    · cases h; exact ⟨hs, .inl ⟨‹_›, rfl, rfl⟩⟩
    · split at h
      · cases h; exact ⟨hs, .inr ⟨‹_›, ‹_›, rfl, rfl⟩⟩
      · cases h
    all_goals cases h
  · cases h

/-- The engine reads bits in the scan only: a DC element, an AC symbol, or a COEF's additional bits. -/
theorem elementBits_cases (s : State) (r : ElementResult) (h : elementBits s = some r) :
    s.state = .scan ∧ ((s.cur.phase = .dc ∧ r = decodeElement (dcTable s) .dc s.bits) ∨
      (s.cur.phase = .ac ∧ s.k ≤ 63 ∧ r = decodeElement (acTable s) .ac s.bits) ∨
      ∃ x n, s.cur.phase = .value x n ∧ r = (decodeValue x n s.bits).toElement) := by
  unfold elementBits at h
  split at h
  · rename_i hs
    refine ⟨hs, ?_⟩
    split at h
    · cases h; exact .inl ⟨‹_›, rfl⟩
    · split at h
      · cases h; exact .inr (.inl ⟨‹_›, ‹_›, rfl⟩)
      · cases h
    · cases h; exact .inr (.inr ⟨_, _, ‹_›, rfl⟩)
    all_goals cases h
  · cases h

theorem needsBit_scan (s : State) (h : needsBit s) : s.state = .scan := (elementBits_cases s _ h).1

/-- Every instruction the scan's bits can stand for, with the phase it is read in. -/
inductive BitsInstr (s : State) : Instr → Prop where
  | dcZero : s.cur.phase = .dc → BitsInstr s .dcZero
  | dcDiff (n : Byte) (a : List Bool) : s.cur.phase = .dc → BitsInstr s (.dcDiff n a)
  | dcTooWide (n : Byte) : s.cur.phase = .dc → BitsInstr s (.dcTooWide n)
  | eob : s.cur.phase = .ac → s.k ≤ 63 → BitsInstr s .eob
  | zrl : s.cur.phase = .ac → s.k ≤ 63 → BitsInstr s .zrl
  | zsr (r : BitVec 4) : s.cur.phase = .ac → s.k ≤ 63 → BitsInstr s (.zsr r)
  | run (r n : BitVec 4) : s.cur.phase = .ac → s.k ≤ 63 → n ≠ 0#4 → BitsInstr s (.coef r n [])
  | value (r n : BitVec 4) (b : Bool) (a : List Bool) : s.cur.phase = .value r n → BitsInstr s (.coef r n (b :: a))

theorem elementBits_instr (s : State) (i : Instr) (h : elementBits s = some (.instr i)) :
    s.state = .scan ∧ BitsInstr s i := by
  obtain ⟨hs, ⟨hp, hd⟩ | ⟨hp, hk, hd⟩ | ⟨r, n, hp, hd⟩⟩ := elementBits_cases s _ h
  · rcases decodeElement_dc _ _ _ hd.symm with rfl | ⟨n, a, rfl⟩ | ⟨n, rfl⟩
    · exact ⟨hs, .dcZero hp⟩
    · exact ⟨hs, .dcDiff n a hp⟩
    · exact ⟨hs, .dcTooWide n hp⟩
  · rcases decodeElement_ac _ _ _ hd.symm with rfl | rfl | ⟨r, rfl⟩ | ⟨r, n, hn, rfl⟩
    · exact ⟨hs, .eob hp hk⟩
    · exact ⟨hs, .zrl hp hk⟩
    · exact ⟨hs, .zsr r hp hk⟩
    · exact ⟨hs, .run r n hp hk hn⟩
  · obtain ⟨b, a, -, -, rfl⟩ := decodeValue_instr (toElement_instr.1 hd.symm)
    exact ⟨hs, .value r n b _ hp⟩

end Sys2Proof.Machine
end

