-- ==== Sys2Proof/Laws/Memory.lean ====
section
/-! SUPPORT. Laws of the raster's cells: reading after writing, the canonical form, and one stored pixel. -/

namespace Sys2Proof.Machine

theorem Memory.read_write_self (m : Memory) (a : Nat) (v : Byte) : (m.write a v).read a = some v := by
  induction m with
  | nil => simp [Memory.write, Memory.read]
  | cons x rest ih =>
    obtain ⟨b, w⟩ := x
    simp only [Memory.write]
    split
    · simp [Memory.read]
    split
    · simp [Memory.read]
    · rename_i h; simp [Memory.read, h, ih]

theorem Memory.read_write_other (m : Memory) (a b : Nat) (v : Byte) (h : b ≠ a) :
    (m.write a v).read b = m.read b := by
  induction m with
  | nil => simp [Memory.write, Memory.read, h]
  | cons x rest ih =>
    obtain ⟨c, w⟩ := x
    simp only [Memory.write]
    split
    · simp [Memory.read, h]
    split
    · subst_vars; simp [Memory.read, h]
    · simp only [Memory.read, ih]

/-- The canonical form as a chain: every listed address is above the one before it. -/
theorem Memory.wf_cons (a : Nat) (v : Byte) (m : Memory) :
    Memory.wf ((a, v) :: m) = true ↔ (∀ b w, m.head? = some (b, w) → a < b) ∧ Memory.wf m = true := by
  cases m with
  | nil => simp [Memory.wf]
  | cons x rest => obtain ⟨b, w⟩ := x; simp [Memory.wf]

theorem Memory.head_write (m : Memory) (a : Nat) (v : Byte) (c : Nat) (w : Byte)
    (h : (m.write a v).head? = some (c, w)) : c = a ∨ ∃ w', m.head? = some (c, w') := by
  cases m with
  | nil => simp [Memory.write] at h; exact .inl h.1.symm
  | cons x rest =>
    obtain ⟨b, u⟩ := x
    simp only [Memory.write] at h
    split at h
    · simp at h; exact .inl h.1.symm
    split at h
    · simp at h; exact .inl h.1.symm
    · simp at h; exact .inr ⟨u, by simp [h.1]⟩

/-- Every write keeps the canonical form. -/
theorem Memory.write_wf (m : Memory) (a : Nat) (v : Byte) (h : m.wf = true) : (m.write a v).wf = true := by
  induction m with
  | nil => simp [Memory.write, Memory.wf]
  | cons x rest ih =>
    obtain ⟨b, u⟩ := x
    simp only [Memory.write]
    rw [Memory.wf_cons] at h
    split
    · rename_i hab
      rw [Memory.wf_cons, Memory.wf_cons]
      refine ⟨?_, h⟩
      rintro b' w hb
      simp at hb; omega
    split
    · rename_i e; subst e; rw [Memory.wf_cons]; exact h
    · rename_i h1 h2
      rw [Memory.wf_cons]
      refine ⟨?_, ih h.2⟩
      rintro c w hc
      rcases Memory.head_write _ _ _ _ _ hc with rfl | ⟨w', hw⟩
      · omega
      · exact h.1 _ _ hw

theorem Memory.writePixel_wf (m : Memory) (x y : Nat) (r g b : Byte) (h : m.wf = true) :
    (m.writePixel x y r g b).wf = true :=
  Memory.write_wf _ _ _ (Memory.write_wf _ _ _ (Memory.write_wf _ _ _ h))

/-- Different positions below 65536 × 65536, or different channels, have different cells. -/
theorem pixelAddr_inj {x y c x' y' c' : Nat} (hc : c < 3) (hc' : c' < 3) (hx : x < 65536) (hx' : x' < 65536)
    (h : pixelAddr x y c = pixelAddr x' y' c') : x = x' ∧ y = y' ∧ c = c' := by
  unfold pixelAddr at h; omega

theorem pixelAddr_ne (x y c d : Nat) (h : c ≠ d) : pixelAddr x y c ≠ pixelAddr x y d := by
  unfold pixelAddr; omega

/-- The three cells of a stored pixel. -/
theorem Memory.read_writePixel (m : Memory) (x y : Nat) (r g b : Byte) :
    (m.writePixel x y r g b).read (pixelAddr x y 0) = some r ∧
    (m.writePixel x y r g b).read (pixelAddr x y 1) = some g ∧
    (m.writePixel x y r g b).read (pixelAddr x y 2) = some b := by
  refine ⟨?_, ?_, ?_⟩ <;> unfold Memory.writePixel
  · rw [read_write_other _ _ _ _ (pixelAddr_ne _ _ _ _ (by decide)),
      read_write_other _ _ _ _ (pixelAddr_ne _ _ _ _ (by decide)), read_write_self]
  · rw [read_write_other _ _ _ _ (pixelAddr_ne _ _ _ _ (by decide)), read_write_self]
  · rw [read_write_self]

/-- A stored pixel leaves every other cell alone. -/
theorem Memory.read_writePixel_other (m : Memory) (x y : Nat) (r g b : Byte) (a : Nat)
    (h : ∀ c : Fin 3, a ≠ pixelAddr x y c.val) : (m.writePixel x y r g b).read a = m.read a := by
  have h0 : a ≠ pixelAddr x y 0 := h 0
  have h1 : a ≠ pixelAddr x y 1 := h 1
  have h2 : a ≠ pixelAddr x y 2 := h 2
  unfold Memory.writePixel
  rw [read_write_other _ _ _ _ h2, read_write_other _ _ _ _ h1, read_write_other _ _ _ _ h0]

/-- A cell that has a value keeps having one. -/
theorem Memory.isSome_write (m : Memory) (a b : Nat) (v : Byte) (h : (m.read b).isSome = true) :
    ((m.write a v).read b).isSome = true := by
  by_cases e : b = a
  · subst e; simp [read_write_self]
  · rw [read_write_other _ _ _ _ e]; exact h

theorem Memory.isSome_writePixel (m : Memory) (x y : Nat) (r g b : Byte) (a : Nat) (h : (m.read a).isSome = true) :
    ((m.writePixel x y r g b).read a).isSome = true :=
  Memory.isSome_write _ _ _ _ (Memory.isSome_write _ _ _ _ (Memory.isSome_write _ _ _ _ h))

theorem reset_raster_wf : State.reset.raster.wf = true := by decide

end Sys2Proof.Machine
end

