-- ==== Sys2Proof/Laws/Numeric.lean ====
section
/-! SUPPORT. Laws of the exact numbers: what a coordinate vector stands for, and that its sign is decided exactly. -/

namespace Sys2Proof.Machine

theorem coordReal_eq (a : Sample) : coordReal a = a[0] + a[1] * (2 * Real.cos (1 * Real.pi / 16))
    + a[2] * (2 * Real.cos (2 * Real.pi / 16)) + a[3] * (2 * Real.cos (3 * Real.pi / 16))
    + a[4] * (2 * Real.cos (4 * Real.pi / 16)) + a[5] * (2 * Real.cos (5 * Real.pi / 16))
    + a[6] * (2 * Real.cos (6 * Real.pi / 16)) + a[7] * (2 * Real.cos (7 * Real.pi / 16)) := by
  simp only [coordReal, Fin.sum_univ_succ, Fin.val_zero, Fin.val_succ, Finset.univ_eq_empty, Finset.sum_empty]
  push_cast
  norm_num
  ring

theorem coordReal_add (a b : Sample) : coordReal (coordAdd a b) = coordReal a + coordReal b := by
  simp only [coordReal_eq, coordAdd, Vector.getElem_ofFn, Fin.getElem_fin]; push_cast; ring

theorem coordReal_scale (c : Int) (a : Sample) : coordReal (coordScale c a) = c * coordReal a := by
  simp only [coordReal_eq, coordScale, Vector.getElem_ofFn, Fin.getElem_fin]; push_cast; ring

theorem coordReal_ofInt (c : Int) : coordReal (coordOfInt c) = c := by
  simp [coordReal_eq, coordOfInt, Vector.getElem_ofFn]

/-! ## The cosines of the multiples of π/16 -/

theorem cosCoord_mod (n m : Nat) : cosCoord (n % 32) m = cosCoord n m := by simp [cosCoord]

theorem cos_sixteenth_mod (n : Nat) : Real.cos (n * Real.pi / 16) = Real.cos ((n % 32 : Nat) * Real.pi / 16) := by
  conv_lhs => rw [← Nat.mod_add_div n 32]
  have : ((n % 32 + 32 * (n / 32) : Nat) : ℝ) * Real.pi / 16
      = (n % 32 : Nat) * Real.pi / 16 + (n / 32 : Nat) * (2 * Real.pi) := by push_cast; ring
  rw [this, Real.cos_add_nat_mul_two_pi]

theorem cos_sixteenth_of_add_eq_32 (n k : Nat) (h : n + k = 32) :
    Real.cos (n * Real.pi / 16) = Real.cos (k * Real.pi / 16) := by
  have : (n : ℝ) = 32 - k := by
    have : ((n + k : Nat) : ℝ) = 32 := by rw [h]; norm_num
    push_cast at this; linarith
  rw [this, show ((32 - k : ℝ)) * Real.pi / 16 = 2 * Real.pi - k * Real.pi / 16 by ring, Real.cos_two_pi_sub]

theorem cos_sixteenth_of_add_eq_16 (n k : Nat) (h : n + k = 16) :
    Real.cos (n * Real.pi / 16) = - Real.cos (k * Real.pi / 16) := by
  have : (n : ℝ) = 16 - k := by
    have : ((n + k : Nat) : ℝ) = 16 := by rw [h]; norm_num
    push_cast at this; linarith
  rw [this, show ((16 - k : ℝ)) * Real.pi / 16 = Real.pi - k * Real.pi / 16 by ring, Real.cos_pi_sub]

theorem cos_eight_sixteenths : Real.cos (8 * Real.pi / 16) = 0 := by
  rw [show 8 * Real.pi / 16 = Real.pi / 2 by ring, Real.cos_pi_div_two]

/-- `cosCoord n` is the coordinate vector of `2cos(nπ/16)`. -/
theorem coordReal_cosCoord (n : Nat) :
    coordReal (Vector.ofFn fun m => cosCoord n m.val) = 2 * Real.cos (n * Real.pi / 16) := by
  rw [cos_sixteenth_mod]
  simp only [← cosCoord_mod n]
  have hr : n % 32 < 32 := Nat.mod_lt _ (by norm_num)
  generalize n % 32 = r at hr
  rw [coordReal_eq]
  simp only [Vector.getElem_ofFn]
  have h8 := cos_eight_sixteenths
  have e9 := cos_sixteenth_of_add_eq_16 9 7 (by norm_num)
  have e10 := cos_sixteenth_of_add_eq_16 10 6 (by norm_num)
  have e11 := cos_sixteenth_of_add_eq_16 11 5 (by norm_num)
  have e12 := cos_sixteenth_of_add_eq_16 12 4 (by norm_num)
  have e13 := cos_sixteenth_of_add_eq_16 13 3 (by norm_num)
  have e14 := cos_sixteenth_of_add_eq_16 14 2 (by norm_num)
  have e15 := cos_sixteenth_of_add_eq_16 15 1 (by norm_num)
  have e16 := cos_sixteenth_of_add_eq_16 16 0 (by norm_num)
  by_cases h16 : r ≤ 16
  · interval_cases r <;> simp [cosCoord] <;> push_cast at * <;>
      first | linarith | (simp only [e15]; simp)
  · obtain ⟨k, hk⟩ : ∃ k, r + k = 32 := ⟨32 - r, by omega⟩
    rw [cos_sixteenth_of_add_eq_32 r k hk]
    have : r = 32 - k := by omega
    subst this
    have hk16 : k < 16 := by omega
    have hk0 : 0 < k := by omega
    interval_cases k <;> simp [cosCoord] <;> push_cast at * <;>
      first | linarith | (simp only [e15]; simp)

/-! ## The tower ℤ[√2] ⊂ ℤ[√(2+√2)] ⊂ ℤ[2cos(π/16)] -/

/-- The real number of a `Quad`. -/
noncomputable def quadReal (x : Quad) : ℝ := x.1 + x.2 * (2 * Real.cos (4 * Real.pi / 16))

/-- The real number of a `Quart`. -/
noncomputable def quartReal (x : Quart) : ℝ := quadReal x.1 + quadReal x.2 * (2 * Real.cos (2 * Real.pi / 16))

/-- `SignIs s x`: `s` is the sign of `x`. -/
def SignIs (s : Int) (x : ℝ) : Prop := (0 < x ∧ s = 1) ∨ (x = 0 ∧ s = 0) ∨ (x < 0 ∧ s = -1)

theorem signIs_sign0 (x : Int) : SignIs (sign0 x) (x : ℝ) := by
  unfold SignIs sign0
  rcases lt_trichotomy x 0 with h | h | h
  · simp [h, h.not_gt, h.ne]
  · simp [h]
  · simp [h, h.not_gt, h.ne']

/-- The sign of `a + b·d` for `d > 0` from the signs of `a`, `b` and `a² − d²b²`. -/
theorem signIs_ext {sa sb sn : Int} {a b d : ℝ} (hd : 0 < d) (ha : SignIs sa a) (hb : SignIs sb b)
    (hn : SignIs sn (a * a - d * d * (b * b))) : SignIs (signExt sa sb sn) (a + b * d) := by
  have key : a * a - d * d * (b * b) = (a - b * d) * (a + b * d) := by ring
  rw [key] at hn
  unfold SignIs at *
  rcases ha with ⟨ha, rfl⟩ | ⟨ha, rfl⟩ | ⟨ha, rfl⟩ <;> rcases hb with ⟨hb, rfl⟩ | ⟨hb, rfl⟩ | ⟨hb, rfl⟩ <;>
    simp [signExt]
  · positivity
  · simpa [hb] using ha
  · have : 0 < a - b * d := by nlinarith
    rcases hn with ⟨h, rfl⟩ | ⟨h, rfl⟩ | ⟨h, rfl⟩
    · left; exact ⟨(mul_pos_iff_of_pos_left this).1 h, rfl⟩
    · right; left; exact ⟨by rcases mul_eq_zero.1 h with h | h <;> linarith, rfl⟩
    · right; right; exact ⟨by by_contra hc; have := mul_nonneg this.le (not_lt.1 hc); linarith, rfl⟩
  · simpa [ha] using mul_pos hb hd
  · simp [ha, hb]
  · simpa [ha] using mul_neg_of_neg_of_pos hb hd
  · have : a - b * d < 0 := by nlinarith
    rcases hn with ⟨h, rfl⟩ | ⟨h, rfl⟩ | ⟨h, rfl⟩
    · right; right; exact ⟨by by_contra hc; have := mul_nonpos_of_nonpos_of_nonneg this.le (not_lt.1 hc); linarith, rfl⟩
    · right; left; exact ⟨by rcases mul_eq_zero.1 h with h | h <;> linarith, rfl⟩
    · left; exact ⟨by by_contra hc; have := mul_nonneg_of_nonpos_of_nonpos this.le (not_lt.1 hc); linarith, rfl⟩
  · simpa [hb] using ha
  · nlinarith [mul_neg_of_neg_of_pos hb hd]

/-- `2cos` doubles its angle: `(2cos t)² = 2 + 2cos 2t`. -/
theorem two_cos_sq (n : ℝ) : (2 * Real.cos (n * Real.pi / 16)) * (2 * Real.cos (n * Real.pi / 16))
    = 2 + 2 * Real.cos (2 * n * Real.pi / 16) := by
  rw [show 2 * n * Real.pi / 16 = 2 * (n * Real.pi / 16) by ring, Real.cos_two_mul]; ring

/-- `2cos a · 2cos b = 2cos(a+b) + 2cos(a−b)`. -/
theorem two_cos_mul (a b : ℝ) : (2 * Real.cos a) * (2 * Real.cos b) = 2 * Real.cos (a + b) + 2 * Real.cos (a - b) := by
  rw [Real.cos_add, Real.cos_sub]; ring

theorem two_cos_pos (n : ℝ) (h0 : 0 ≤ n) (h : n < 8) : 0 < 2 * Real.cos (n * Real.pi / 16) := by
  have := Real.pi_pos
  have : 0 < Real.cos (n * Real.pi / 16) := Real.cos_pos_of_mem_Ioo ⟨by nlinarith, by nlinarith⟩
  linarith

theorem signIs_quad (x : Quad) : SignIs (quadSign x) (quadReal x) := by
  refine signIs_ext (two_cos_pos 4 (by norm_num) (by norm_num)) (signIs_sign0 _) (signIs_sign0 _) ?_
  rw [two_cos_sq 4]
  have : Real.cos (2 * 4 * Real.pi / 16) = 0 := by
    rw [show 2 * 4 * Real.pi / 16 = 8 * Real.pi / 16 by ring]; exact cos_eight_sixteenths
  rw [this]
  convert signIs_sign0 (x.1 * x.1 - 2 * (x.2 * x.2)) using 1
  push_cast; ring

theorem quadReal_mul (x y : Quad) : quadReal (quadMul x y) = quadReal x * quadReal y := by
  have h := two_cos_sq 4
  rw [show 2 * 4 * Real.pi / 16 = 8 * Real.pi / 16 by ring, cos_eight_sixteenths] at h
  simp only [quadReal, quadMul]; push_cast
  linear_combination (-(x.2 : ℝ) * y.2) * h

theorem quadReal_sub (x y : Quad) : quadReal (quadSub x y) = quadReal x - quadReal y := by
  simp only [quadReal, quadSub]; push_cast; ring

theorem quadReal_add (x y : Quad) : quadReal (quadAdd x y) = quadReal x + quadReal y := by
  simp only [quadReal, quadAdd]; push_cast; ring

theorem two_cos_two_sq : (2 * Real.cos (2 * Real.pi / 16)) * (2 * Real.cos (2 * Real.pi / 16)) = quadReal (2, 1) := by
  rw [two_cos_sq 2, show 2 * 2 * Real.pi / 16 = 4 * Real.pi / 16 by ring]; simp [quadReal]

theorem signIs_quart (x : Quart) : SignIs (quartSign x) (quartReal x) := by
  refine signIs_ext (two_cos_pos 2 (by norm_num) (by norm_num)) (signIs_quad _) (signIs_quad _) ?_
  rw [two_cos_two_sq, ← quadReal_mul, ← quadReal_mul, ← quadReal_mul, ← quadReal_sub]
  exact signIs_quad _

theorem quartReal_mul (x y : Quart) : quartReal (quartMul x y) = quartReal x * quartReal y := by
  have h := two_cos_two_sq
  simp only [quartReal, quartMul, quadReal_add, quadReal_mul]
  linear_combination (-(quadReal x.2) * quadReal y.2) * h

theorem quartReal_sub (x y : Quart) : quartReal (quartSub x y) = quartReal x - quartReal y := by
  simp only [quartReal, quartSub, quadReal_sub]; ring

/-- A coordinate vector as `A + B·2cos(π/16)`. -/
theorem coordReal_tower (a : Sample) :
    coordReal a = quartReal (evenPart a) + quartReal (oddPart a) * (2 * Real.cos (1 * Real.pi / 16)) := by
  have m11 := two_cos_mul (1 * Real.pi / 16) (2 * Real.pi / 16)
  have m41 := two_cos_mul (1 * Real.pi / 16) (4 * Real.pi / 16)
  have m42 := two_cos_mul (2 * Real.pi / 16) (4 * Real.pi / 16)
  have m61 := two_cos_mul (1 * Real.pi / 16) (6 * Real.pi / 16)
  have n1 : Real.cos (1 * Real.pi / 16 - 2 * Real.pi / 16) = Real.cos (1 * Real.pi / 16) := by
    rw [← Real.cos_neg]; congr 1; ring
  have n2 : Real.cos (1 * Real.pi / 16 - 4 * Real.pi / 16) = Real.cos (3 * Real.pi / 16) := by
    rw [← Real.cos_neg]; congr 1; ring
  have n3 : Real.cos (2 * Real.pi / 16 - 4 * Real.pi / 16) = Real.cos (2 * Real.pi / 16) := by
    rw [← Real.cos_neg]; congr 1; ring
  have n4 : Real.cos (1 * Real.pi / 16 - 6 * Real.pi / 16) = Real.cos (5 * Real.pi / 16) := by
    rw [← Real.cos_neg]; congr 1; ring
  rw [n1, show 1 * Real.pi / 16 + 2 * Real.pi / 16 = 3 * Real.pi / 16 by ring] at m11
  rw [n2, show 1 * Real.pi / 16 + 4 * Real.pi / 16 = 5 * Real.pi / 16 by ring] at m41
  rw [n3, show 2 * Real.pi / 16 + 4 * Real.pi / 16 = 6 * Real.pi / 16 by ring] at m42
  rw [n4, show 1 * Real.pi / 16 + 6 * Real.pi / 16 = 7 * Real.pi / 16 by ring] at m61
  rw [coordReal_eq]
  simp only [quartReal, quadReal, evenPart, oddPart]
  push_cast
  generalize 2 * Real.cos (1 * Real.pi / 16) = c1 at *
  generalize 2 * Real.cos (2 * Real.pi / 16) = c2 at *
  generalize 2 * Real.cos (3 * Real.pi / 16) = c3 at *
  generalize 2 * Real.cos (4 * Real.pi / 16) = c4 at *
  generalize 2 * Real.cos (5 * Real.pi / 16) = c5 at *
  generalize 2 * Real.cos (6 * Real.pi / 16) = c6 at *
  generalize 2 * Real.cos (7 * Real.pi / 16) = c7 at *
  have e3 : c3 = c1 * c2 - c1 := by linarith
  have e5 : c5 = c1 * c4 - c3 := by linarith
  have e6 : c6 = c2 * c4 - c2 := by linarith
  have e7 : c7 = c1 * c6 - c5 := by linarith
  subst e3; subst e5; subst e6; subst e7
  ring

/-- The sign of a coordinate vector is decided exactly. -/
theorem signIs_coord (a : Sample) : SignIs (coordSign a) (coordReal a) := by
  rw [coordReal_tower]
  refine signIs_ext (two_cos_pos 1 (by norm_num) (by norm_num)) (signIs_quart _) (signIs_quart _) ?_
  have h : (2 * Real.cos (1 * Real.pi / 16)) * (2 * Real.cos (1 * Real.pi / 16)) = quartReal ((2, 0), (1, 0)) := by
    rw [two_cos_sq 1, show 2 * 1 * Real.pi / 16 = 2 * Real.pi / 16 by ring]; simp [quartReal, quadReal]
  rw [h, ← quartReal_mul, ← quartReal_mul, ← quartReal_mul, ← quartReal_sub]
  exact signIs_quart _

theorem coordSign_nonneg (a : Sample) : 0 ≤ coordSign a ↔ 0 ≤ coordReal a := by
  rcases signIs_coord a with ⟨h, e⟩ | ⟨h, e⟩ | ⟨h, e⟩ <;> rw [e]
  · simp [h.le]
  · simp [h]
  · simp [h]

/-- `atLeastHalf` compares the number `v/den` with `h/2`. -/
theorem atLeastHalf_iff (v : Sample) (den : Nat) (hd : 0 < den) (h : Int) :
    atLeastHalf v den h = true ↔ (h : ℝ) / 2 ≤ coordReal v / den := by
  have hd' : (0 : ℝ) < den := by exact_mod_cast hd
  simp only [atLeastHalf, decide_eq_true_eq, coordSign_nonneg, coordReal_add, coordReal_scale, coordReal_ofInt]
  rw [div_le_div_iff₀ (by norm_num) hd']
  push_cast
  constructor <;> intro h <;> linarith

/-! ## Block division (R285) -/

@[simp] theorem ExactBlock.real_getElem (a : ExactBlock) (n : Fin 64) : a.real[n] = coordReal a.cells[n] / a.den := by
  simp [ExactBlock.real]

@[simp] theorem blockDivScalar_getElem {α : Type} [Field α] (a : Block α) (k : α) (n : Fin 64) :
    (blockDivScalar a k)[n] = a[n] / k := by
  simp [blockDivScalar]

/-- Dividing an exact block is the real division of the block it stands for. -/
theorem ExactBlock.real_divScalar (a : ExactBlock) (k : Nat) : (a.divScalar k).real = blockDivScalar a.real (k : ℝ) := by
  ext n hn
  have h := (a.divScalar k).real_getElem ⟨n, hn⟩
  have h' := blockDivScalar_getElem a.real (k : ℝ) ⟨n, hn⟩
  simp only [Fin.getElem_fin] at h h'
  rw [h, h', show a.real[n] = _ from a.real_getElem ⟨n, hn⟩]
  simp [ExactBlock.divScalar, div_div]

end Sys2Proof.Machine
end

