-- ==== Sys2Proof/Laws/Ops.lean ====
section
/-! SUPPORT. What each shared operation can do, said once: checks, the result of any meaning, scan resolution, the pixel loops, tables and nibbles, and that no meaning reads the offered bytes. -/

namespace Sys2Proof.Machine

/-! ## Every meaning answers a next state -/

theorem next_inj {s t : State} (h : (Host.Outcome.next s : Result) = .next t) : t = s := by cases h; rfl

theorem check_next (c : Option Cause) (s : State) (k : State → Result) (h : ∀ s, ∃ t, k s = .next t) :
    ∃ t, check c s k = .next t := by
  cases c with
  | none => exact h s
  | some c => exact ⟨_, rfl⟩

/-- A check raises its cause, or the continuation runs. -/
theorem check_cases {c : Option Cause} {s t : State} {k : State → Result} (h : check c s k = .next t) :
    (∃ e, c = some e ∧ t = raise e s) ∨ (c = none ∧ k s = .next t) := by
  cases c with
  | none => exact .inr ⟨rfl, h⟩
  | some e => cases h; exact .inl ⟨e, rfl, rfl⟩

theorem exec_next (i : Instr) (s : State) : ∃ t, exec i s = .next t := by
  cases i <;> simp only [exec]
  case soi => unfold execSoi; split <;> exact ⟨_, rfl⟩
  case eoi => unfold execEoi; split <;> exact ⟨_, rfl⟩
  case dqt p =>
    cases p
    · exact check_next _ _ _ fun s => ⟨_, rfl⟩
    · simp only [execDqt]; split <;> exact ⟨_, rfl⟩
  case dht L b =>
    cases b
    · exact ⟨_, rfl⟩
    · exact check_next _ _ _ fun s => ⟨_, rfl⟩
  case sof0 L b =>
    cases b with
    | none => exact ⟨_, rfl⟩
    | some b =>
      simp only [execSof0]
      split
      · exact ⟨_, rfl⟩
      · exact check_next _ _ _ fun s => check_next _ _ _ fun s => ⟨_, rfl⟩
  case sos L b =>
    cases b with
    | none => exact ⟨_, rfl⟩
    | some b =>
      simp only [execSos]
      split
      · exact ⟨_, rfl⟩
      · exact check_next _ _ _ fun s => check_next _ _ _ fun s => ⟨_, rfl⟩
  case sof2 => exact check_next _ _ _ fun s => ⟨_, rfl⟩
  case app0 => exact check_next _ _ _ fun s => ⟨_, rfl⟩
  case com => exact check_next _ _ _ fun s => ⟨_, rfl⟩
  case other => exact check_next _ _ _ fun s => ⟨_, rfl⟩
  case dcZero => unfold execDcZero dcAccept; split <;> exact ⟨_, rfl⟩
  case dcDiff => unfold execDcDiff dcAccept; split <;> exact ⟨_, rfl⟩
  case zrl => unfold execZrl; split <;> exact ⟨_, rfl⟩
  case zsr => exact check_next _ _ _ fun s => ⟨_, rfl⟩
  case coef r n a =>
    cases a
    · exact check_next _ _ _ fun s => ⟨_, rfl⟩
    · exact ⟨_, rfl⟩
  case start => unfold execStart; split <;> exact ⟨_, rfl⟩
  case pixelAccept => unfold execPixelAccept; split <;> exact ⟨_, rfl⟩
  all_goals exact ⟨_, rfl⟩

/-- R377, R378, R379: the run is added to the cursor; past position 63 that raises, and else the rest follows. -/
theorem skipRun_cases (r : BitVec 4) (s : State) (f : State → State) :
    (63 < s.k + r.toNat ∧ skipRun r s f = .next (raise .acOverflow { s with k := s.k + r.toNat })) ∨
    (s.k + r.toNat ≤ 63 ∧ skipRun r s f = .next (f { s with k := s.k + r.toNat })) := by
  unfold skipRun acCause
  split
  · exact .inl ⟨‹_›, rfl⟩
  · exact .inr ⟨by omega, rfl⟩

/-- R376 and its check. -/
theorem execZrl_cases (s : State) :
    (64 < s.k + 16 ∧ execZrl s = .next (raise .acOverflow s)) ∨
    (s.k + 16 ≤ 64 ∧ execZrl s = .next { s with k := s.k + 16 }) := by
  unfold execZrl
  split
  · exact .inl ⟨‹_›, rfl⟩
  · exact .inr ⟨by omega, rfl⟩

/-- R373: the predictor and the block's DC cell, or PRED_RANGE. -/
theorem dcAccept_cases (d : Int) (s : State) :
    (inRange Config.predWidth (s.pred[curComp s] + d) = false ∧ dcAccept d s = .next (raise .predRange s)) ∨
    (inRange Config.predWidth (s.pred[curComp s] + d) = true ∧ dcAccept d s = .next { s with
      pred := s.pred.set (curComp s) (s.pred[curComp s] + d)
      coef := setAtZigzag s.coef 0 (s.pred[curComp s] + d)
      k := 1
      cur := { s.cur with phase := .ac } }) := by
  unfold dcAccept
  split
  · exact .inr ⟨‹_›, rfl⟩
  · exact .inl ⟨Bool.not_eq_true _ ▸ ‹¬ _›, rfl⟩

/-- R201: ReadByte raises, holds, or takes one byte. -/
theorem readByte_cases (s : State) :
    (s.lastSeen = true ∧ readByte s = .next (raise .truncated s)) ∨
    (s.lastSeen = false ∧ s.offered = [] ∧ readByte s = .next s) ∨
    ∃ b last rest, s.lastSeen = false ∧ s.offered = (b, last) :: rest ∧ readByte s = .next { s with
      offered := rest, pos := s.pos + 1#32, lastSeen := last, fetched := s.fetched ++ [b] } := by
  unfold readByte
  split
  · exact .inl ⟨‹_›, rfl⟩
  · rename_i h
    split
    · exact .inr (.inl ⟨by simpa using h, ‹_›, rfl⟩)
    · exact .inr (.inr ⟨_, _, _, by simpa using h, ‹_›, rfl⟩)

theorem readByte_next (s : State) : ∃ t, readByte s = .next t := by
  rcases readByte_cases s with ⟨-, h⟩ | ⟨-, -, h⟩ | ⟨_, _, _, -, -, h⟩ <;> exact ⟨_, h⟩

theorem engineStep_next (s : State) : ∃ t, engineStep s = .next t := by
  have h := engineStep_action s
  generalize engineStep s = r at h
  cases h
  case read => exact readByte_next s
  case stream => exact exec_next _ _
  case element => exact exec_next _ _
  all_goals exact ⟨_, rfl⟩

/-! ## Decoders need at least one byte or bit -/

theorem decodeElement_nil (t : HuffTable) (c : ElementCtx) : decodeElement t c [] = .more := by
  simp [decodeElement, nextSymbol, nextSymbolFrom]

theorem decodeStream_nil (c : StreamCtx) : decodeStream c [] = .more := by
  cases c <;> simp [decodeStream, decodeSoi, decodeEoi, decodeEcs, decodeMarker, decodeRecord]

/-- A DHT that passes its header checks has been read with all its symbols. -/
theorem decodeDht_length (L : Half) (p : List Byte) (b : DhtBody) (h : decodeDht L p = .instr (.dht L (some b)))
    (hc : dhtCause L b.table.counts = none) : b.table.symbols.length = totalOf b.table.counts := by
  unfold decodeDht at h
  split at h
  · cases h
  split at h
  · cases h
  split at h
  · rename_i h3; cases h; simp only at hc; rw [hc] at h3; cases h3
  split at h
  · cases h
  · cases h; simp only [List.length_take, List.length_drop]; omega

theorem decodeSegment_dht (cc : Byte) (L L' : Half) (p : List Byte) (b : DhtBody)
    (h : decodeSegment cc L p = .instr (.dht L' (some b))) : decodeDht L p = .instr (.dht L' (some b)) := by
  unfold decodeSegment at h
  split at h
  · cases h
  split at h
  · exact h
  split at h
  · obtain ⟨b', hb⟩ := decodeSof0_eq _ _ _ h; cases hb
  split at h
  · cases h
  split at h
  · obtain ⟨b', hb⟩ := decodeSos_eq _ _ _ h; cases hb
  split at h
  · obtain ⟨b', hb⟩ := decodeSkip_eq _ _ _ _ h; cases hb
  split at h
  · obtain ⟨b', hb⟩ := decodeSkip_eq _ _ _ _ h; cases hb
  · obtain ⟨b', hb⟩ := decodeSkip_eq _ _ _ _ h; cases hb

theorem decodeStream_dht_length (fv : Bool) (rem : Nat) (l : List Byte) (L : Half) (b : DhtBody)
    (h : decodeStream (.segments fv rem) l = .instr (.dht L (some b))) (hc : dhtCause L b.table.counts = none) :
    b.table.symbols.length = totalOf b.table.counts := by
  unfold decodeStream at h
  simp only at h
  split at h
  · unfold decodeMarker at h
    split at h
    · cases h
    split at h
    · cases h
    split at h
    · cases h
    unfold decodeCode at h
    split at h
    · cases h
    split at h
    · cases h
    split at h
    · cases h
    split at h
    · cases h
    split at h
    · cases h
    split at h
    · have hd := decodeSegment_dht _ _ _ _ _ h
      obtain ⟨b', hb⟩ := decodeDht_eq _ _ _ hd
      cases hb
      exact decodeDht_length _ _ _ hd hc
    · cases h
  · unfold decodeRecord at h
    split at h <;> cases h

/-! ## Checks that passed -/

theorem dhtCause_none {L : Half} {c : Vector Byte 16} (h : dhtCause L c = none) :
    kraftSum c ≤ 2 ^ 16 ∧ totalOf c ≤ Config.huffSymCap := by
  unfold dhtCause at h
  split at h
  · cases h
  split at h
  · cases h
  split at h
  · cases h
  · omega

theorem sof0Cause_none {L : Half} {n : Byte} (h : sof0Cause L n = none) : n = 3#8 := by
  unfold sof0Cause at h
  split at h
  · cases h
  split at h
  · cases h
  · rename_i h2; exact not_not.1 h2

theorem frameCause_none {p : Byte} {cs : Vector FrameSpec 3} (h : frameCause p cs = none) :
    p = 8#8 ∧ (∀ i : Fin 3, hiNibble cs[i].hv ≠ 0#4 ∧ loNibble cs[i].hv ≠ 0#4) ∧
      cs[0].id ≠ cs[1].id ∧ cs[0].id ≠ cs[2].id ∧ cs[1].id ≠ cs[2].id := by
  unfold frameCause at h
  split at h
  · cases h
  split at h
  · cases h
  split at h
  · cases h
  rename_i h1 h2 h3
  refine ⟨not_not.1 h1, ?_, by tauto⟩
  intro i
  simp only [List.any_eq_true, not_exists, not_and] at h2
  simpa using h2 i (List.mem_finRange i)

/-! ## Scan resolution (R323) -/

/-- Resolving the first of the positions: it fails and writes nothing, or it writes the position and goes on. -/
theorem resolveComps_cons (cs : Vector ScanSpec 3) (j : Fin 3) (js used : List (Fin 3)) (s : State) :
    (resolveComps cs (j :: js) used s = (s, some .componentRef) ∧
      (findComp s cs[j].cs = none ∨ ∃ fi ∈ used, findComp s cs[j].cs = some fi)) ∨
    ∃ fi, fi ∉ used ∧ findComp s cs[j].cs = some fi ∧
      resolveComps cs (j :: js) used s = resolveComps cs js (fi :: used) { s with sc := s.sc.set j ⟨fi, loNibble cs[j].t⟩ } := by
  rw [resolveComps]
  split
  · exact .inl ⟨rfl, .inl ‹_›⟩
  · split
    · rename_i hc; exact .inl ⟨rfl, .inr ⟨_, by simpa using hc, ‹_›⟩⟩
    · rename_i hc; exact .inr ⟨_, by simpa using hc, ‹_›, rfl⟩

/-- Only `sc` is written. -/
theorem resolveComps_eq (cs : Vector ScanSpec 3) (js used : List (Fin 3)) (s : State) :
    ∃ sc, (resolveComps cs js used s).1 = { s with sc := sc } := by
  induction js generalizing used s with
  | nil => exact ⟨s.sc, rfl⟩
  | cons j js ih =>
    rcases resolveComps_cons cs j js used s with ⟨e, -⟩ | ⟨fi, -, -, e⟩
    · exact ⟨s.sc, by rw [e]⟩
    · obtain ⟨sc, h⟩ := ih (fi :: used) { s with sc := s.sc.set j ⟨fi, loNibble cs[j].t⟩ }
      exact ⟨sc, by rw [e, h]⟩

theorem scanResolve_eq (cs : Vector ScanSpec 3) (s : State) : ∃ sc, (scanResolve cs s).1 = { s with sc := sc } := by
  unfold scanResolve
  obtain ⟨sc, h⟩ := resolveComps_eq cs [0, 1, 2] [] s
  refine ⟨sc, ?_⟩
  rw [← h]
  split <;> rename_i e <;> simp [e]

theorem set_all {α : Type} (a b c : α) (v : Vector α 3) : ((v.set 0 a).set 1 b).set 2 c = #v[a, b, c] := by
  apply Vector.ext
  intro i hi
  interval_cases i <;> simp

/-- A resolution that succeeds has found three distinct components. -/
theorem resolveComps_none (cs : Vector ScanSpec 3) (s : State) (h : (resolveComps cs [0, 1, 2] [] s).2 = none) :
    ∃ f0 f1 f2, findComp s cs[0].cs = some f0 ∧ findComp s cs[1].cs = some f1 ∧ findComp s cs[2].cs = some f2 ∧
      f0 ≠ f1 ∧ f0 ≠ f2 ∧ f1 ≠ f2 ∧ (resolveComps cs [0, 1, 2] [] s).1 = { s with
        sc := #v[⟨f0, loNibble cs[0].t⟩, ⟨f1, loNibble cs[1].t⟩, ⟨f2, loNibble cs[2].t⟩] } := by
  rcases resolveComps_cons cs 0 [1, 2] [] s with ⟨e, -⟩ | ⟨f0, -, k0, e⟩
  · rw [e] at h; cases h
  rw [e] at h ⊢
  generalize hu : ({ s with sc := _ } : State) = u at h ⊢
  rcases resolveComps_cons cs 1 [2] [f0] u with ⟨e, -⟩ | ⟨f1, h1, k1, e⟩
  · rw [e] at h; cases h
  rw [e] at h ⊢
  generalize hv : ({ u with sc := _ } : State) = v at h ⊢
  rcases resolveComps_cons cs 2 [] [f1, f0] v with ⟨e, -⟩ | ⟨f2, h2, k2, e⟩
  · rw [e] at h; cases h
  rw [e, resolveComps]
  simp only [List.mem_cons, List.not_mem_nil, or_false, not_or] at h1 h2
  subst hv hu
  refine ⟨f0, f1, f2, k0, k1, k2, fun h => h1 h.symm, fun h => h2.2 h.symm, fun h => h2.1 h.symm, ?_⟩
  exact congrArg (fun v => ({ s with sc := v } : State)) (set_all _ _ _ s.sc)

theorem findComp_some {s : State} {id : Byte} {i : Fin 3} (h : findComp s id = some i) : s.comp[i].id = id := by
  unfold findComp at h
  split at h
  · cases h; assumption
  split at h
  · cases h; assumption
  split at h
  · cases h; assumption
  · cases h

theorem findComp_none {s : State} {id : Byte} (h : ∀ i : Fin 3, s.comp[i].id ≠ id) : findComp s id = none := by
  cases e : findComp s id with
  | none => rfl
  | some i => exact absurd (findComp_some e) (h i)

theorem findComp_eq {s : State} (hd : ∀ i j : Fin 3, s.comp[i].id = s.comp[j].id → i = j) {id : Byte} (i : Fin 3)
    (h : s.comp[i].id = id) : findComp s id = some i := by
  cases e : findComp s id with
  | none =>
    exfalso
    unfold findComp at e
    split at e
    · cases e
    split at e
    · cases e
    split at e
    · cases e
    · fin_cases i <;> contradiction
  | some j => rw [hd j i ((findComp_some e).trans h.symm)]

/-! ## The pixel loops -/

theorem presenting_cases {s : State} (h : presenting s = true) :
    s.state = .scan ∧ s.cur.phase = .emit ∧ s.cur.py < 8 * s.vmax.toNat ∧ s.cur.px < 8 * s.hmax.toNat ∧
      pixelX s < s.width.toNat ∧ pixelY s < s.height.toNat := by
  simpa [presenting, and_assoc] using h

/-- Only the cursor moves. -/
theorem nextPixel_eq (s : State) : ∃ px py, nextPixel s = { s with cur := { s.cur with px := px, py := py } } := by
  unfold nextPixel; split <;> exact ⟨_, _, rfl⟩

/-! ## Numbers -/

theorem satSucc_eq (n : Byte) : (satSucc n).toNat = min (n.toNat + 1) 255 := by revert n; decide

theorem hiNibble_eq (b : Byte) : (hiNibble b).toNat = b.toNat / 16 := by revert b; decide

theorem loNibble_eq (b : Byte) : (loNibble b).toNat = b.toNat % 16 := by revert b; decide

theorem nibbles (r n : BitVec 4) : hiNibble (r ++ n) = r ∧ loNibble (r ++ n) = n := by revert r n; decide

theorem n2zz_zz2n (i : Fin 64) : n2zz (zz2n i) = i := by revert i; decide

theorem getElem_qtSlot {α : Type} (v : Vector α 16) (b : Byte) (h : b.toNat < 16) : v[qtSlot b] = v[b.toNat] := by
  have : (qtSlot b).val = b.toNat := by unfold qtSlot; simp; omega
  simp only [Fin.getElem_fin, this]

/-- Multiplying a block fails exactly when one product leaves the range. -/
theorem multiplyBlock_none (w : Nat) (q : Block (BitVec 16)) (b : Block Int) :
    multiplyBlock w q b = none ↔ ∃ n : Fin 64, inRange w (b[n] * (q[n]).toNat) = false := by
  unfold multiplyBlock
  split
  · rename_i h
    simp only [List.all_eq_true, List.mem_finRange, true_implies] at h
    simp; intro n; exact h n
  · rename_i h
    simp only [List.all_eq_true, List.mem_finRange, true_implies, not_forall, Bool.not_eq_true] at h
    simpa using h

/-! ## No meaning but STREAM_BYTE reads or writes the offered bytes -/

/-- `s` with other bytes on the port. -/
def withOffered (o : List (Byte × Bool)) (s : State) : State := { s with offered := o }

/-- Whatever bytes are offered, the meaning does the same and leaves them. -/
def IgnoresOffered (f : State → Result) : Prop :=
  ∀ s o, ∃ t, f s = .next t ∧ f (withOffered o s) = .next (withOffered o t)

theorem ignoresOffered_check (c : Option Cause) (k : State → Result) (h : IgnoresOffered k) :
    IgnoresOffered (fun s => check c s k) := by
  intro s o
  cases c with
  | none => exact h s o
  | some c => exact ⟨_, rfl, rfl⟩

theorem resolveComps_withOffered (cs : Vector ScanSpec 3) (js used : List (Fin 3)) (s : State) (o : List (Byte × Bool)) :
    resolveComps cs js used (withOffered o s)
      = (withOffered o (resolveComps cs js used s).1, (resolveComps cs js used s).2) := by
  induction js generalizing used s with
  | nil => rfl
  | cons j js ih =>
    have hf : ∀ id, findComp (withOffered o s) id = findComp s id := fun _ => rfl
    rw [resolveComps, resolveComps, hf]
    split
    · rfl
    · split
      · rfl
      · exact ih _ { s with sc := _ }

theorem scanResolve_withOffered (cs : Vector ScanSpec 3) (s : State) (o : List (Byte × Bool)) :
    scanResolve cs (withOffered o s) = (withOffered o (scanResolve cs s).1, (scanResolve cs s).2) := by
  unfold scanResolve
  rw [resolveComps_withOffered]
  generalize resolveComps cs [0, 1, 2] [] s = r
  obtain ⟨u, c⟩ := r
  cases c <;> rfl

theorem exec_ignoresOffered (i : Instr) (h : ∀ b l, i ≠ .streamByte b l) : IgnoresOffered (exec i) := by
  cases i
  case soi a b => intro s o; simp only [exec, execSoi]; split <;> exact ⟨_, rfl, rfl⟩
  case eoi a b => intro s o; simp only [exec, execEoi]; split <;> exact ⟨_, rfl, rfl⟩
  case dqt p =>
    cases p with
    | header L => exact ignoresOffered_check _ _ fun s o => ⟨_, rfl, rfl⟩
    | record tq q => intro s o; simp only [exec, execDqt]; split <;> exact ⟨_, rfl, rfl⟩
  case dht L b =>
    cases b with
    | none => exact fun s o => ⟨_, rfl, rfl⟩
    | some b => exact ignoresOffered_check _ _ fun s o => ⟨_, rfl, by simp only [storeHt]; split <;> rfl⟩
  case sof0 L b =>
    cases b with
    | none => exact fun s o => ⟨_, rfl, rfl⟩
    | some b =>
      intro s o
      simp only [exec, execSof0]
      split
      · exact ⟨_, rfl, rfl⟩
      · exact ignoresOffered_check _ _ (ignoresOffered_check _ _ fun s o => ⟨_, rfl, rfl⟩) s o
  case sos L b =>
    cases b with
    | none => exact fun s o => ⟨_, rfl, rfl⟩
    | some b =>
      intro s o
      simp only [exec, execSos]
      split
      · exact ⟨_, rfl, rfl⟩
      · refine ignoresOffered_check _ _ ?_ s o
        intro s o
        simp only [scanResolve_withOffered]
        exact ignoresOffered_check _ _ (fun s o => ⟨_, rfl, rfl⟩) (scanResolve _ s).1 o
  case sof2 => exact ignoresOffered_check _ _ fun s o => ⟨_, rfl, rfl⟩
  case app0 => exact ignoresOffered_check _ _ fun s o => ⟨_, rfl, rfl⟩
  case com => exact ignoresOffered_check _ _ fun s o => ⟨_, rfl, rfl⟩
  case other => exact ignoresOffered_check _ _ fun s o => ⟨_, rfl, rfl⟩
  case dcZero =>
    intro s o
    simp only [exec, execDcZero, dcAccept, show (withOffered o s).pred = s.pred from rfl,
      show curComp (withOffered o s) = curComp s from rfl]
    split <;> exact ⟨_, rfl, rfl⟩
  case dcDiff =>
    intro s o
    simp only [exec, execDcDiff, dcAccept, show (withOffered o s).pred = s.pred from rfl,
      show curComp (withOffered o s) = curComp s from rfl]
    split <;> exact ⟨_, rfl, rfl⟩
  case zrl =>
    intro s o
    simp only [exec, execZrl, show (withOffered o s).k = s.k from rfl]
    split <;> exact ⟨_, rfl, rfl⟩
  case zsr r =>
    intro s o
    exact ignoresOffered_check _ (fun s => .next (placeCoef 0 s)) (fun s o => ⟨_, rfl, rfl⟩) { s with k := s.k + r.toNat } o
  case coef r n a =>
    intro s o
    cases a with
    | nil =>
      exact ignoresOffered_check _ (fun s => .next { s with cur := { s.cur with phase := .value r n } })
        (fun s o => ⟨_, rfl, rfl⟩) { s with k := s.k + r.toNat } o
    | cons b a => exact ⟨_, rfl, rfl⟩
  case start =>
    intro s o
    simp only [exec, execStart, show (withOffered o s).state = s.state from rfl]
    split <;> exact ⟨_, rfl, rfl⟩
  case pixelAccept =>
    intro s o
    simp only [exec, execPixelAccept, show presenting (withOffered o s) = presenting s from rfl]
    split
    · refine ⟨_, rfl, ?_⟩
      unfold deliverPixel nextPixel
      simp only [show (withOffered o s).cur = s.cur from rfl, show (withOffered o s).hmax = s.hmax from rfl]
      split <;> rfl
    · exact ⟨_, rfl, rfl⟩
  case streamByte b l => exact absurd rfl (h b l)
  all_goals exact fun s o => ⟨_, rfl, rfl⟩

end Sys2Proof.Machine
end

