-- ==== Sys2Proof/Laws/Outcome.lean ====
section
/-! SUPPORT. What one engine step does to the control state and the interrupt status, said once: R310's transitions, error entry, R446's warning. -/

namespace Sys2Proof.Machine

/-- What one engine step does to the control state, the interrupt status and the tables. -/
inductive EngineOutcome (s t : State) : Prop where
  | same : t.state = s.state → t.irqStatus = s.irqStatus → EngineOutcome s t
  | error (c : Cause) (u : State) : s.state.busy = true → u.pos = s.pos → u.irqStatus = s.irqStatus → t = raise c u →
      EngineOutcome s t
  | segments : s.state = .expectSoi → t.state = .segments → t.irqStatus = s.irqStatus → EngineOutcome s t
  | scan : s.state = .segments → t.state = .scan → t.irqStatus = s.irqStatus → EngineOutcome s t
  | endScan : s.state = .scan → t.state = .expectEoi → t.irqStatus = s.irqStatus → EngineOutcome s t
  | done : s.state = .expectEoi → t.state = .done → t.irqStatus = s.irqStatus ||| 0b001#3 → EngineOutcome s t
  | warned (id : Byte) (u : State) : s.state = .segments → u.state = s.state → u.irqStatus = s.irqStatus →
      16 ≤ id.toNat → t = warnQtId id u → EngineOutcome s t

theorem outcome_check {c : Option Cause} {s u t : State} {k : State → Result} (hb : s.state.busy = true)
    (h1 : u.pos = s.pos) (h2 : u.irqStatus = s.irqStatus) (e : check c u k = .next t)
    (hk : k u = .next t → EngineOutcome s t) : EngineOutcome s t := by
  cases c with
  | none => exact hk e
  | some c => cases e; exact .error c u hb h1 h2 rfl

theorem outcome_segments {s u t : State} (i : Instr) (hs : s.state = .segments) (h0 : u.state = s.state)
    (h1 : u.pos = s.pos) (h2 : u.irqStatus = s.irqStatus) (hi : SegmentInstr i) (e : exec i u = .next t) :
    EngineOutcome s t := by
  have hb : s.state.busy = true := by rw [hs]; rfl
  have ra : ∀ c, EngineOutcome s (raise c u) := fun c => .error c u hb h1 h2 rfl
  cases hi <;> simp only [exec] at e
  case dqt p =>
    cases p with
    | header L => simp only [execDqt] at e; refine outcome_check hb h1 h2 e fun e => ?_; cases e; exact .same h0 h2
    | record tq q =>
      simp only [execDqt] at e; split at e <;> cases e
      · exact .same h0 h2
      · exact .warned tq { u with rem := u.rem - 65 } hs h0 h2 (by omega) rfl
  case dht L b =>
    cases b with
    | none => cases e; exact ra _
    | some b =>
      simp only [execDht] at e
      refine outcome_check hb h1 h2 e fun e => ?_
      cases e; unfold storeHt; split <;> exact .same h0 h2
  case sof0 L b =>
    cases b with
    | none => cases e; exact ra _
    | some b =>
      simp only [execSof0] at e
      split at e
      · cases e; exact ra _
      · refine outcome_check hb h1 h2 e fun e => outcome_check hb h1 h2 e fun e => ?_
        cases e; exact .same h0 h2
  case sos L b =>
    cases b with
    | none => cases e; exact ra _
    | some b =>
      simp only [execSos] at e
      split at e
      · cases e; exact ra _
      · rename_i tl _
        obtain ⟨sc, hsc⟩ := scanResolve_eq tl.comps u
        refine outcome_check hb h1 h2 e fun e => ?_
        rw [hsc] at e
        refine outcome_check hb (by exact h1) (by exact h2) e fun e => ?_
        cases e
        exact .scan hs rfl h2
  case sof2 => refine outcome_check hb h1 h2 e fun e => ?_; cases e; exact ra _
  case app0 => refine outcome_check hb h1 h2 e fun e => ?_; cases e; exact .same h0 h2
  case com => refine outcome_check hb h1 h2 e fun e => ?_; cases e; exact .same h0 h2
  case other => refine outcome_check hb h1 h2 e fun e => ?_; cases e; exact .same h0 h2
  all_goals (cases e; exact ra _)

theorem outcome_stream {s t : State} (c : StreamCtx) (i : Instr) (hr : ReadsFrom s c)
    (hd : decodeStream c s.fetched = .instr i) (e : exec i { s with fetched := [] } = .next t) : EngineOutcome s t :=
    by
  cases hr with
  | soi hs =>
    have hb : s.state.busy = true := by rw [hs]; rfl
    obtain ⟨a, b, rfl⟩ := decodeStream_soi _ _ hd
    simp only [exec, execSoi] at e
    split at e <;> cases e
    · exact .error _ _ hb (by rfl) (by rfl) rfl
    · exact .segments hs rfl rfl
  | segments hs => exact outcome_segments i hs (by rfl) (by rfl) (by rfl) (decodeStream_segments _ _ _ _ hd).1 e
  | eoi hs =>
    have hb : s.state.busy = true := by rw [hs]; rfl
    obtain ⟨a, b, rfl⟩ := decodeStream_eoi _ _ hd
    simp only [exec, execEoi] at e
    split at e <;> cases e
    · exact .error _ _ hb (by rfl) (by rfl) rfl
    · exact .done hs rfl rfl
  | ecs hn h0 =>
    have hb : s.state.busy = true := by rw [needsBit_scan s hn]; rfl
    rcases decodeStream_ecs _ _ hd with ⟨b, rfl⟩ | rfl | ⟨n, rfl⟩ | ⟨cc, rfl⟩ <;> cases e
    · exact .same rfl rfl
    · exact .same rfl rfl
    · exact .error _ _ hb (by rfl) (by rfl) rfl
    · exact .error _ _ hb (by rfl) (by rfl) rfl

theorem outcome_element {s t : State} (i : Instr) (hr : elementBits s = some (.instr i))
    (e : exec i { s with bits := [] } = .next t) : EngineOutcome s t := by
  obtain ⟨hs, hi⟩ := elementBits_instr s i hr
  have hb : s.state.busy = true := by rw [hs]; rfl
  have dc : ∀ d, dcAccept d { s with bits := [] } = .next t → EngineOutcome s t := by
    intro d e
    rcases dcAccept_cases d { s with bits := [] } with ⟨-, h⟩ | ⟨-, h⟩ <;> rw [h] at e <;> cases e
    · exact .error _ _ hb (by rfl) (by rfl) rfl
    · exact .same rfl rfl
  have run : ∀ r f, (∀ u : State, (f u).state = u.state ∧ (f u).irqStatus = u.irqStatus) →
      skipRun r { s with bits := [] } f = .next t → EngineOutcome s t := by
    intro r f hf e
    rcases skipRun_cases r { s with bits := [] } f with ⟨-, h⟩ | ⟨-, h⟩ <;> rw [h] at e <;> cases e
    · exact .error _ _ hb (by rfl) (by rfl) rfl
    · exact .same (hf _).1 (hf _).2
  cases hi with
  | dcZero _ => exact dc _ e
  | dcDiff _ _ _ => exact dc _ e
  | dcTooWide _ _ => cases e; exact .error _ _ hb (by rfl) (by rfl) rfl
  | eob _ _ => cases e; exact .same rfl rfl
  | zrl _ _ =>
    rcases execZrl_cases { s with bits := [] } with ⟨-, h⟩ | ⟨-, h⟩ <;> rw [show exec .zrl _ = execZrl _ from rfl, h] at e <;>
      cases e
    · exact .error _ _ hb (by rfl) (by rfl) rfl
    · exact .same rfl rfl
  | zsr r _ _ => exact run r (placeCoef 0) (fun _ => ⟨rfl, rfl⟩) e
  | run r n _ _ _ =>
    exact run r (fun s => { s with cur := { s.cur with phase := .value r n } }) (fun _ => ⟨rfl, rfl⟩) e
  | value _ _ _ _ _ => cases e; exact .same rfl rfl

theorem outcome_finish (s : State) (hb : s.state.busy = true) : EngineOutcome s (finishBlock s) := by
  unfold finishBlock; split
  · exact .error _ _ hb (by rfl) (by rfl) rfl
  · unfold nextBlock; split
    · exact .same rfl rfl
    split
    · exact .same rfl rfl
    split
    · exact .same rfl rfl
    · exact .same rfl rfl

theorem needsByte_busy {s : State} (h : needsByte s) : s.state.busy = true := by
  obtain ⟨c, h, -⟩ := h
  cases h with
  | soi h => rw [h]; rfl
  | segments h => rw [h]; rfl
  | eoi h => rw [h]; rfl
  | ecs h => rw [needsBit_scan s h]; rfl

theorem engine_outcome {s t : State} (e : EngineAction s (.next t)) : EngineOutcome s t := by
  generalize hr : (Host.Outcome.next t : Result) = r at e
  cases e with
  | idle _ => cases hr; exact .same rfl rfl
  | read hn =>
    unfold readByte at hr
    split at hr
    · cases hr; exact .error _ _ (needsByte_busy hn) rfl rfl rfl
    · split at hr <;> cases hr <;> exact .same rfl rfl
  | stream c i h1 h2 => exact outcome_stream c i h1 h2 hr.symm
  | bit hn h1 => cases hr; exact .same rfl rfl
  | element i h => exact outcome_element i h hr.symm
  | noSymbol h => cases hr; exact .error _ _ (by rw [(elementBits_cases _ _ h).1]; rfl) rfl rfl rfl
  | loop hs hp => cases hr; unfold loopTest; split; exact .same rfl rfl; exact .endScan hs rfl rfl
  | acDone hs hp _ => cases hr; exact .same rfl rfl
  | finish hs hp => cases hr; exact outcome_finish s (by rw [hs]; rfl)
  | mcu hs hp hl => cases hr; unfold nextMcu; split <;> exact .same rfl rfl
  | hold _ => cases hr; exact .same rfl rfl
  | skip hs hp hl hn => cases hr; unfold nextPixel; split <;> exact .same rfl rfl

end Sys2Proof.Machine
end

