-- ==== Sys2Proof/Laws/PerInstr.lean ====
section
/-! SUPPORT. Per instruction: a well-formed instruction stands somewhere, so that the statements over the places an instruction is admitted in leave none out. -/

namespace Sys2Proof.Laws.HasPlace

/-- A well-formed instruction is admitted in some place (the stream, an element of the scan, or the host). -/
def Statement (i : Instr) : Prop := i.WellFormed = true → ∃ c, admits c i = true

theorem soi (a b : Byte) : Statement (.soi a b) := fun _ => ⟨.stream .soi, rfl⟩

theorem soiInSegments : Statement (.soiInSegments) := fun _ => ⟨.stream (.segments false 0), rfl⟩

theorem eoi (a b : Byte) : Statement (.eoi a b) := fun _ => ⟨.stream .eoi, rfl⟩

theorem eoiInSegments : Statement (.eoiInSegments) := fun _ => ⟨.stream (.segments false 0), rfl⟩

theorem rstn (n : BitVec 3) : Statement (.rstn n) := fun _ => ⟨.stream (.segments false 0), rfl⟩

theorem dqt (part : DqtPart) : Statement (.dqt part) := by
  intro _
  cases part with
  | header L => exact ⟨.stream (.segments false 0), rfl⟩
  | record tq qzz => exact ⟨.stream (.segments false 65), rfl⟩

theorem dht (L : Half) (body : Option DhtBody) : Statement (.dht L body) := fun _ => ⟨.stream (.segments false 0), rfl⟩

theorem sof0 (L : Half) (body : Option Sof0Body) : Statement (.sof0 L body) := fun _ => ⟨.stream (.segments false 0), rfl⟩

theorem sof0Second : Statement (.sof0Second) := fun _ => ⟨.stream (.segments true 0), rfl⟩

theorem sof2 (L : Half) : Statement (.sof2 L) := fun _ => ⟨.stream (.segments false 0), rfl⟩

theorem sos (L : Half) (body : Option SosBody) : Statement (.sos L body) := fun _ => ⟨.stream (.segments true 0), rfl⟩

theorem sosBeforeSof0 : Statement (.sosBeforeSof0) := fun _ => ⟨.stream (.segments false 0), rfl⟩

theorem app0 (L : Half) (payload : List Byte) : Statement (.app0 L payload) := fun _ => ⟨.stream (.segments false 0), rfl⟩

theorem com (L : Half) (payload : List Byte) : Statement (.com L payload) := fun _ => ⟨.stream (.segments false 0), rfl⟩

theorem other (cc : Byte) (L : Half) (payload : List Byte) : Statement (.other cc L payload) := fun _ => ⟨.stream (.segments false 0), rfl⟩

theorem markerPrefixErr (p : Byte) : Statement (.markerPrefixErr p) := fun _ => ⟨.stream (.segments false 0), rfl⟩

theorem data (b : Byte) : Statement (.data b) := fun _ => ⟨.stream .ecs, rfl⟩

theorem stuff : Statement (.stuff) := fun _ => ⟨.stream .ecs, rfl⟩

theorem ecsRst (n : BitVec 3) : Statement (.ecsRst n) := fun _ => ⟨.stream .ecs, rfl⟩

theorem ecsMarker (cc : Byte) : Statement (.ecsMarker cc) := fun _ => ⟨.stream .ecs, rfl⟩

theorem dcZero : Statement (.dcZero) := fun _ => ⟨.element .dc, rfl⟩

theorem dcDiff (s : Byte) (a : List Bool) : Statement (.dcDiff s a) := fun _ => ⟨.element .dc, rfl⟩

theorem dcTooWide (s : Byte) : Statement (.dcTooWide s) := fun _ => ⟨.element .dc, rfl⟩

theorem eob : Statement (.eob) := fun _ => ⟨.element .ac, rfl⟩

theorem zrl : Statement (.zrl) := fun _ => ⟨.element .ac, rfl⟩

theorem zsr (r : BitVec 4) : Statement (.zsr r) := fun _ => ⟨.element .ac, rfl⟩

theorem coef (r s : BitVec 4) (a : List Bool) : Statement (.coef r s a) := fun _ =>
  match a with
  | [] => ⟨.element .ac, rfl⟩
  | _ :: _ => ⟨.value r s, by simp [admits]⟩

theorem start (hi : BitVec 30) : Statement (.start hi) := fun _ => ⟨.host, rfl⟩

theorem softReset (hi : BitVec 30) : Statement (.softReset hi) := fun _ => ⟨.host, rfl⟩

theorem softResetAndStart (hi : BitVec 30) : Statement (.softResetAndStart hi) := fun _ => ⟨.host, rfl⟩

theorem ctrlNop (hi : BitVec 30) : Statement (.ctrlNop hi) := fun _ => ⟨.host, rfl⟩

theorem irqEnWrite (d : Word) : Statement (.irqEnWrite d) := fun _ => ⟨.host, rfl⟩

theorem irqAck (d : Word) : Statement (.irqAck d) := fun _ => ⟨.host, rfl⟩

theorem roWrite (off : Byte) (d : Word) : Statement (.roWrite off d) := fun _ => ⟨.host, rfl⟩

theorem regRead (off : Byte) : Statement (.regRead off) := fun _ => ⟨.host, rfl⟩

theorem streamByte (b : Byte) (last : Bool) : Statement (.streamByte b last) := fun _ => ⟨.host, rfl⟩

theorem pixelAccept : Statement (.pixelAccept) := fun _ => ⟨.host, rfl⟩

end Sys2Proof.Laws.HasPlace
end

