-- ==== Sys2Proof/Laws/State.lean ====
section
/-! SUPPORT. The fields of every state update, one lemma for each, so that no proof unfolds a record. -/

namespace Sys2Proof.Machine

variable (s : State) (e : Cause) (id b : Byte) (i : Fin 16) (q : Block (BitVec 16)) (c j : Fin 3) (row col n : Nat)
  (v : Block Sample)

/-! ### raise (R442) -/

@[simp] theorem raise_state : (raise e s).state = .error := rfl
@[simp] theorem raise_pos : (raise e s).pos = s.pos := rfl
@[simp] theorem raise_bitbuf : (raise e s).bitbuf = s.bitbuf := rfl
@[simp] theorem raise_bitcnt : (raise e s).bitcnt = s.bitcnt := rfl
@[simp] theorem raise_qt : (raise e s).qt = s.qt := rfl
@[simp] theorem raise_qtValid : (raise e s).qtValid = s.qtValid := rfl
@[simp] theorem raise_htDc : (raise e s).htDc = s.htDc := rfl
@[simp] theorem raise_htDcValid : (raise e s).htDcValid = s.htDcValid := rfl
@[simp] theorem raise_htAc : (raise e s).htAc = s.htAc := rfl
@[simp] theorem raise_htAcValid : (raise e s).htAcValid = s.htAcValid := rfl
@[simp] theorem raise_frameValid : (raise e s).frameValid = s.frameValid := rfl
@[simp] theorem raise_precision : (raise e s).precision = s.precision := rfl
@[simp] theorem raise_height : (raise e s).height = s.height := rfl
@[simp] theorem raise_width : (raise e s).width = s.width := rfl
@[simp] theorem raise_nf : (raise e s).nf = s.nf := rfl
@[simp] theorem raise_comp : (raise e s).comp = s.comp := rfl
@[simp] theorem raise_hmax : (raise e s).hmax = s.hmax := rfl
@[simp] theorem raise_vmax : (raise e s).vmax = s.vmax := rfl
@[simp] theorem raise_scanValid : (raise e s).scanValid = s.scanValid := rfl
@[simp] theorem raise_sc : (raise e s).sc = s.sc := rfl
@[simp] theorem raise_inScan : (raise e s).inScan = s.inScan := rfl
@[simp] theorem raise_pred : (raise e s).pred = s.pred := rfl
@[simp] theorem raise_xPos : (raise e s).xPos = s.xPos := rfl
@[simp] theorem raise_yPos : (raise e s).yPos = s.yPos := rfl
@[simp] theorem raise_coef : (raise e s).coef = s.coef := rfl
@[simp] theorem raise_k : (raise e s).k = s.k := rfl
@[simp] theorem raise_samples : (raise e s).samples = s.samples := rfl
@[simp] theorem raise_errKind : (raise e s).errKind = e.kind.code := rfl
@[simp] theorem raise_errCause : (raise e s).errCause = e.code := rfl
@[simp] theorem raise_errPos : (raise e s).errPos = s.pos := rfl
@[simp] theorem raise_warn : (raise e s).warn = s.warn := rfl
@[simp] theorem raise_warnLastId : (raise e s).warnLastId = s.warnLastId := rfl
@[simp] theorem raise_warnCount : (raise e s).warnCount = s.warnCount := rfl
@[simp] theorem raise_pixelsOut : (raise e s).pixelsOut = s.pixelsOut := rfl
@[simp] theorem raise_irqEn : (raise e s).irqEn = s.irqEn := rfl
@[simp] theorem raise_irqStatus : (raise e s).irqStatus = s.irqStatus ||| 0b010#3 := rfl
@[simp] theorem raise_lastSeen : (raise e s).lastSeen = s.lastSeen := rfl
@[simp] theorem raise_rem : (raise e s).rem = s.rem := rfl
@[simp] theorem raise_fetched : (raise e s).fetched = s.fetched := rfl
@[simp] theorem raise_bits : (raise e s).bits = s.bits := rfl
@[simp] theorem raise_cur : (raise e s).cur = s.cur := rfl
@[simp] theorem raise_offered : (raise e s).offered = s.offered := rfl
@[simp] theorem raise_raster : (raise e s).raster = s.raster := rfl
@[simp] theorem raise_busRead : (raise e s).busRead = s.busRead := rfl
@[simp] theorem raise_turns : (raise e s).turns = s.turns := rfl
@[simp] theorem raise_freeCtr : (raise e s).freeCtr = s.freeCtr := rfl

/-! ### warnQtId (R446) -/

@[simp] theorem warnQtId_state : (warnQtId id s).state = s.state := rfl
@[simp] theorem warnQtId_pos : (warnQtId id s).pos = s.pos := rfl
@[simp] theorem warnQtId_bitbuf : (warnQtId id s).bitbuf = s.bitbuf := rfl
@[simp] theorem warnQtId_bitcnt : (warnQtId id s).bitcnt = s.bitcnt := rfl
@[simp] theorem warnQtId_qt : (warnQtId id s).qt = s.qt := rfl
@[simp] theorem warnQtId_qtValid : (warnQtId id s).qtValid = s.qtValid := rfl
@[simp] theorem warnQtId_htDc : (warnQtId id s).htDc = s.htDc := rfl
@[simp] theorem warnQtId_htDcValid : (warnQtId id s).htDcValid = s.htDcValid := rfl
@[simp] theorem warnQtId_htAc : (warnQtId id s).htAc = s.htAc := rfl
@[simp] theorem warnQtId_htAcValid : (warnQtId id s).htAcValid = s.htAcValid := rfl
@[simp] theorem warnQtId_frameValid : (warnQtId id s).frameValid = s.frameValid := rfl
@[simp] theorem warnQtId_precision : (warnQtId id s).precision = s.precision := rfl
@[simp] theorem warnQtId_height : (warnQtId id s).height = s.height := rfl
@[simp] theorem warnQtId_width : (warnQtId id s).width = s.width := rfl
@[simp] theorem warnQtId_nf : (warnQtId id s).nf = s.nf := rfl
@[simp] theorem warnQtId_comp : (warnQtId id s).comp = s.comp := rfl
@[simp] theorem warnQtId_hmax : (warnQtId id s).hmax = s.hmax := rfl
@[simp] theorem warnQtId_vmax : (warnQtId id s).vmax = s.vmax := rfl
@[simp] theorem warnQtId_scanValid : (warnQtId id s).scanValid = s.scanValid := rfl
@[simp] theorem warnQtId_sc : (warnQtId id s).sc = s.sc := rfl
@[simp] theorem warnQtId_inScan : (warnQtId id s).inScan = s.inScan := rfl
@[simp] theorem warnQtId_pred : (warnQtId id s).pred = s.pred := rfl
@[simp] theorem warnQtId_xPos : (warnQtId id s).xPos = s.xPos := rfl
@[simp] theorem warnQtId_yPos : (warnQtId id s).yPos = s.yPos := rfl
@[simp] theorem warnQtId_coef : (warnQtId id s).coef = s.coef := rfl
@[simp] theorem warnQtId_k : (warnQtId id s).k = s.k := rfl
@[simp] theorem warnQtId_samples : (warnQtId id s).samples = s.samples := rfl
@[simp] theorem warnQtId_errKind : (warnQtId id s).errKind = s.errKind := rfl
@[simp] theorem warnQtId_errCause : (warnQtId id s).errCause = s.errCause := rfl
@[simp] theorem warnQtId_errPos : (warnQtId id s).errPos = s.errPos := rfl
@[simp] theorem warnQtId_warn : (warnQtId id s).warn = true := rfl
@[simp] theorem warnQtId_warnLastId : (warnQtId id s).warnLastId = id := rfl
@[simp] theorem warnQtId_warnCount : (warnQtId id s).warnCount = satSucc s.warnCount := rfl
@[simp] theorem warnQtId_pixelsOut : (warnQtId id s).pixelsOut = s.pixelsOut := rfl
@[simp] theorem warnQtId_irqEn : (warnQtId id s).irqEn = s.irqEn := rfl
@[simp] theorem warnQtId_irqStatus : (warnQtId id s).irqStatus = s.irqStatus ||| 0b100#3 := rfl
@[simp] theorem warnQtId_lastSeen : (warnQtId id s).lastSeen = s.lastSeen := rfl
@[simp] theorem warnQtId_rem : (warnQtId id s).rem = s.rem := rfl
@[simp] theorem warnQtId_fetched : (warnQtId id s).fetched = s.fetched := rfl
@[simp] theorem warnQtId_bits : (warnQtId id s).bits = s.bits := rfl
@[simp] theorem warnQtId_cur : (warnQtId id s).cur = s.cur := rfl
@[simp] theorem warnQtId_offered : (warnQtId id s).offered = s.offered := rfl
@[simp] theorem warnQtId_raster : (warnQtId id s).raster = s.raster := rfl
@[simp] theorem warnQtId_busRead : (warnQtId id s).busRead = s.busRead := rfl
@[simp] theorem warnQtId_turns : (warnQtId id s).turns = s.turns := rfl
@[simp] theorem warnQtId_freeCtr : (warnQtId id s).freeCtr = s.freeCtr := rfl

/-! ### loadBits (R200) -/

@[simp] theorem loadBits_state : (loadBits b s).state = s.state := rfl
@[simp] theorem loadBits_pos : (loadBits b s).pos = s.pos := rfl
@[simp] theorem loadBits_bitbuf : (loadBits b s).bitbuf = b := rfl
@[simp] theorem loadBits_bitcnt : (loadBits b s).bitcnt = 8 := rfl
@[simp] theorem loadBits_qt : (loadBits b s).qt = s.qt := rfl
@[simp] theorem loadBits_qtValid : (loadBits b s).qtValid = s.qtValid := rfl
@[simp] theorem loadBits_htDc : (loadBits b s).htDc = s.htDc := rfl
@[simp] theorem loadBits_htDcValid : (loadBits b s).htDcValid = s.htDcValid := rfl
@[simp] theorem loadBits_htAc : (loadBits b s).htAc = s.htAc := rfl
@[simp] theorem loadBits_htAcValid : (loadBits b s).htAcValid = s.htAcValid := rfl
@[simp] theorem loadBits_frameValid : (loadBits b s).frameValid = s.frameValid := rfl
@[simp] theorem loadBits_precision : (loadBits b s).precision = s.precision := rfl
@[simp] theorem loadBits_height : (loadBits b s).height = s.height := rfl
@[simp] theorem loadBits_width : (loadBits b s).width = s.width := rfl
@[simp] theorem loadBits_nf : (loadBits b s).nf = s.nf := rfl
@[simp] theorem loadBits_comp : (loadBits b s).comp = s.comp := rfl
@[simp] theorem loadBits_hmax : (loadBits b s).hmax = s.hmax := rfl
@[simp] theorem loadBits_vmax : (loadBits b s).vmax = s.vmax := rfl
@[simp] theorem loadBits_scanValid : (loadBits b s).scanValid = s.scanValid := rfl
@[simp] theorem loadBits_sc : (loadBits b s).sc = s.sc := rfl
@[simp] theorem loadBits_inScan : (loadBits b s).inScan = s.inScan := rfl
@[simp] theorem loadBits_pred : (loadBits b s).pred = s.pred := rfl
@[simp] theorem loadBits_xPos : (loadBits b s).xPos = s.xPos := rfl
@[simp] theorem loadBits_yPos : (loadBits b s).yPos = s.yPos := rfl
@[simp] theorem loadBits_coef : (loadBits b s).coef = s.coef := rfl
@[simp] theorem loadBits_k : (loadBits b s).k = s.k := rfl
@[simp] theorem loadBits_samples : (loadBits b s).samples = s.samples := rfl
@[simp] theorem loadBits_errKind : (loadBits b s).errKind = s.errKind := rfl
@[simp] theorem loadBits_errCause : (loadBits b s).errCause = s.errCause := rfl
@[simp] theorem loadBits_errPos : (loadBits b s).errPos = s.errPos := rfl
@[simp] theorem loadBits_warn : (loadBits b s).warn = s.warn := rfl
@[simp] theorem loadBits_warnLastId : (loadBits b s).warnLastId = s.warnLastId := rfl
@[simp] theorem loadBits_warnCount : (loadBits b s).warnCount = s.warnCount := rfl
@[simp] theorem loadBits_pixelsOut : (loadBits b s).pixelsOut = s.pixelsOut := rfl
@[simp] theorem loadBits_irqEn : (loadBits b s).irqEn = s.irqEn := rfl
@[simp] theorem loadBits_irqStatus : (loadBits b s).irqStatus = s.irqStatus := rfl
@[simp] theorem loadBits_lastSeen : (loadBits b s).lastSeen = s.lastSeen := rfl
@[simp] theorem loadBits_rem : (loadBits b s).rem = s.rem := rfl
@[simp] theorem loadBits_fetched : (loadBits b s).fetched = s.fetched := rfl
@[simp] theorem loadBits_bits : (loadBits b s).bits = s.bits := rfl
@[simp] theorem loadBits_cur : (loadBits b s).cur = s.cur := rfl
@[simp] theorem loadBits_offered : (loadBits b s).offered = s.offered := rfl
@[simp] theorem loadBits_raster : (loadBits b s).raster = s.raster := rfl
@[simp] theorem loadBits_busRead : (loadBits b s).busRead = s.busRead := rfl
@[simp] theorem loadBits_turns : (loadBits b s).turns = s.turns := rfl
@[simp] theorem loadBits_freeCtr : (loadBits b s).freeCtr = s.freeCtr := rfl

/-! ### takeBit (R200) -/

@[simp] theorem takeBit_state : (takeBit s).state = s.state := rfl
@[simp] theorem takeBit_pos : (takeBit s).pos = s.pos := rfl
@[simp] theorem takeBit_bitbuf : (takeBit s).bitbuf = s.bitbuf := rfl
@[simp] theorem takeBit_bitcnt : (takeBit s).bitcnt = ⟨s.bitcnt.val - 1, by omega⟩ := rfl
@[simp] theorem takeBit_qt : (takeBit s).qt = s.qt := rfl
@[simp] theorem takeBit_qtValid : (takeBit s).qtValid = s.qtValid := rfl
@[simp] theorem takeBit_htDc : (takeBit s).htDc = s.htDc := rfl
@[simp] theorem takeBit_htDcValid : (takeBit s).htDcValid = s.htDcValid := rfl
@[simp] theorem takeBit_htAc : (takeBit s).htAc = s.htAc := rfl
@[simp] theorem takeBit_htAcValid : (takeBit s).htAcValid = s.htAcValid := rfl
@[simp] theorem takeBit_frameValid : (takeBit s).frameValid = s.frameValid := rfl
@[simp] theorem takeBit_precision : (takeBit s).precision = s.precision := rfl
@[simp] theorem takeBit_height : (takeBit s).height = s.height := rfl
@[simp] theorem takeBit_width : (takeBit s).width = s.width := rfl
@[simp] theorem takeBit_nf : (takeBit s).nf = s.nf := rfl
@[simp] theorem takeBit_comp : (takeBit s).comp = s.comp := rfl
@[simp] theorem takeBit_hmax : (takeBit s).hmax = s.hmax := rfl
@[simp] theorem takeBit_vmax : (takeBit s).vmax = s.vmax := rfl
@[simp] theorem takeBit_scanValid : (takeBit s).scanValid = s.scanValid := rfl
@[simp] theorem takeBit_sc : (takeBit s).sc = s.sc := rfl
@[simp] theorem takeBit_inScan : (takeBit s).inScan = s.inScan := rfl
@[simp] theorem takeBit_pred : (takeBit s).pred = s.pred := rfl
@[simp] theorem takeBit_xPos : (takeBit s).xPos = s.xPos := rfl
@[simp] theorem takeBit_yPos : (takeBit s).yPos = s.yPos := rfl
@[simp] theorem takeBit_coef : (takeBit s).coef = s.coef := rfl
@[simp] theorem takeBit_k : (takeBit s).k = s.k := rfl
@[simp] theorem takeBit_samples : (takeBit s).samples = s.samples := rfl
@[simp] theorem takeBit_errKind : (takeBit s).errKind = s.errKind := rfl
@[simp] theorem takeBit_errCause : (takeBit s).errCause = s.errCause := rfl
@[simp] theorem takeBit_errPos : (takeBit s).errPos = s.errPos := rfl
@[simp] theorem takeBit_warn : (takeBit s).warn = s.warn := rfl
@[simp] theorem takeBit_warnLastId : (takeBit s).warnLastId = s.warnLastId := rfl
@[simp] theorem takeBit_warnCount : (takeBit s).warnCount = s.warnCount := rfl
@[simp] theorem takeBit_pixelsOut : (takeBit s).pixelsOut = s.pixelsOut := rfl
@[simp] theorem takeBit_irqEn : (takeBit s).irqEn = s.irqEn := rfl
@[simp] theorem takeBit_irqStatus : (takeBit s).irqStatus = s.irqStatus := rfl
@[simp] theorem takeBit_lastSeen : (takeBit s).lastSeen = s.lastSeen := rfl
@[simp] theorem takeBit_rem : (takeBit s).rem = s.rem := rfl
@[simp] theorem takeBit_fetched : (takeBit s).fetched = s.fetched := rfl
@[simp] theorem takeBit_bits : (takeBit s).bits = s.bits ++ [topBit s] := rfl
@[simp] theorem takeBit_cur : (takeBit s).cur = s.cur := rfl
@[simp] theorem takeBit_offered : (takeBit s).offered = s.offered := rfl
@[simp] theorem takeBit_raster : (takeBit s).raster = s.raster := rfl
@[simp] theorem takeBit_busRead : (takeBit s).busRead = s.busRead := rfl
@[simp] theorem takeBit_turns : (takeBit s).turns = s.turns := rfl
@[simp] theorem takeBit_freeCtr : (takeBit s).freeCtr = s.freeCtr := rfl

/-! ### bitAlign (R206) -/

@[simp] theorem bitAlign_state : (bitAlign s).state = s.state := rfl
@[simp] theorem bitAlign_pos : (bitAlign s).pos = s.pos := rfl
@[simp] theorem bitAlign_bitbuf : (bitAlign s).bitbuf = s.bitbuf := rfl
@[simp] theorem bitAlign_bitcnt : (bitAlign s).bitcnt = 0 := rfl
@[simp] theorem bitAlign_qt : (bitAlign s).qt = s.qt := rfl
@[simp] theorem bitAlign_qtValid : (bitAlign s).qtValid = s.qtValid := rfl
@[simp] theorem bitAlign_htDc : (bitAlign s).htDc = s.htDc := rfl
@[simp] theorem bitAlign_htDcValid : (bitAlign s).htDcValid = s.htDcValid := rfl
@[simp] theorem bitAlign_htAc : (bitAlign s).htAc = s.htAc := rfl
@[simp] theorem bitAlign_htAcValid : (bitAlign s).htAcValid = s.htAcValid := rfl
@[simp] theorem bitAlign_frameValid : (bitAlign s).frameValid = s.frameValid := rfl
@[simp] theorem bitAlign_precision : (bitAlign s).precision = s.precision := rfl
@[simp] theorem bitAlign_height : (bitAlign s).height = s.height := rfl
@[simp] theorem bitAlign_width : (bitAlign s).width = s.width := rfl
@[simp] theorem bitAlign_nf : (bitAlign s).nf = s.nf := rfl
@[simp] theorem bitAlign_comp : (bitAlign s).comp = s.comp := rfl
@[simp] theorem bitAlign_hmax : (bitAlign s).hmax = s.hmax := rfl
@[simp] theorem bitAlign_vmax : (bitAlign s).vmax = s.vmax := rfl
@[simp] theorem bitAlign_scanValid : (bitAlign s).scanValid = s.scanValid := rfl
@[simp] theorem bitAlign_sc : (bitAlign s).sc = s.sc := rfl
@[simp] theorem bitAlign_inScan : (bitAlign s).inScan = s.inScan := rfl
@[simp] theorem bitAlign_pred : (bitAlign s).pred = s.pred := rfl
@[simp] theorem bitAlign_xPos : (bitAlign s).xPos = s.xPos := rfl
@[simp] theorem bitAlign_yPos : (bitAlign s).yPos = s.yPos := rfl
@[simp] theorem bitAlign_coef : (bitAlign s).coef = s.coef := rfl
@[simp] theorem bitAlign_k : (bitAlign s).k = s.k := rfl
@[simp] theorem bitAlign_samples : (bitAlign s).samples = s.samples := rfl
@[simp] theorem bitAlign_errKind : (bitAlign s).errKind = s.errKind := rfl
@[simp] theorem bitAlign_errCause : (bitAlign s).errCause = s.errCause := rfl
@[simp] theorem bitAlign_errPos : (bitAlign s).errPos = s.errPos := rfl
@[simp] theorem bitAlign_warn : (bitAlign s).warn = s.warn := rfl
@[simp] theorem bitAlign_warnLastId : (bitAlign s).warnLastId = s.warnLastId := rfl
@[simp] theorem bitAlign_warnCount : (bitAlign s).warnCount = s.warnCount := rfl
@[simp] theorem bitAlign_pixelsOut : (bitAlign s).pixelsOut = s.pixelsOut := rfl
@[simp] theorem bitAlign_irqEn : (bitAlign s).irqEn = s.irqEn := rfl
@[simp] theorem bitAlign_irqStatus : (bitAlign s).irqStatus = s.irqStatus := rfl
@[simp] theorem bitAlign_lastSeen : (bitAlign s).lastSeen = s.lastSeen := rfl
@[simp] theorem bitAlign_rem : (bitAlign s).rem = s.rem := rfl
@[simp] theorem bitAlign_fetched : (bitAlign s).fetched = s.fetched := rfl
@[simp] theorem bitAlign_bits : (bitAlign s).bits = s.bits := rfl
@[simp] theorem bitAlign_cur : (bitAlign s).cur = s.cur := rfl
@[simp] theorem bitAlign_offered : (bitAlign s).offered = s.offered := rfl
@[simp] theorem bitAlign_raster : (bitAlign s).raster = s.raster := rfl
@[simp] theorem bitAlign_busRead : (bitAlign s).busRead = s.busRead := rfl
@[simp] theorem bitAlign_turns : (bitAlign s).turns = s.turns := rfl
@[simp] theorem bitAlign_freeCtr : (bitAlign s).freeCtr = s.freeCtr := rfl

/-! ### setDone (R332) -/

@[simp] theorem setDone_state : (setDone s).state = .done := rfl
@[simp] theorem setDone_pos : (setDone s).pos = s.pos := rfl
@[simp] theorem setDone_bitbuf : (setDone s).bitbuf = s.bitbuf := rfl
@[simp] theorem setDone_bitcnt : (setDone s).bitcnt = s.bitcnt := rfl
@[simp] theorem setDone_qt : (setDone s).qt = s.qt := rfl
@[simp] theorem setDone_qtValid : (setDone s).qtValid = s.qtValid := rfl
@[simp] theorem setDone_htDc : (setDone s).htDc = s.htDc := rfl
@[simp] theorem setDone_htDcValid : (setDone s).htDcValid = s.htDcValid := rfl
@[simp] theorem setDone_htAc : (setDone s).htAc = s.htAc := rfl
@[simp] theorem setDone_htAcValid : (setDone s).htAcValid = s.htAcValid := rfl
@[simp] theorem setDone_frameValid : (setDone s).frameValid = s.frameValid := rfl
@[simp] theorem setDone_precision : (setDone s).precision = s.precision := rfl
@[simp] theorem setDone_height : (setDone s).height = s.height := rfl
@[simp] theorem setDone_width : (setDone s).width = s.width := rfl
@[simp] theorem setDone_nf : (setDone s).nf = s.nf := rfl
@[simp] theorem setDone_comp : (setDone s).comp = s.comp := rfl
@[simp] theorem setDone_hmax : (setDone s).hmax = s.hmax := rfl
@[simp] theorem setDone_vmax : (setDone s).vmax = s.vmax := rfl
@[simp] theorem setDone_scanValid : (setDone s).scanValid = s.scanValid := rfl
@[simp] theorem setDone_sc : (setDone s).sc = s.sc := rfl
@[simp] theorem setDone_inScan : (setDone s).inScan = s.inScan := rfl
@[simp] theorem setDone_pred : (setDone s).pred = s.pred := rfl
@[simp] theorem setDone_xPos : (setDone s).xPos = s.xPos := rfl
@[simp] theorem setDone_yPos : (setDone s).yPos = s.yPos := rfl
@[simp] theorem setDone_coef : (setDone s).coef = s.coef := rfl
@[simp] theorem setDone_k : (setDone s).k = s.k := rfl
@[simp] theorem setDone_samples : (setDone s).samples = s.samples := rfl
@[simp] theorem setDone_errKind : (setDone s).errKind = s.errKind := rfl
@[simp] theorem setDone_errCause : (setDone s).errCause = s.errCause := rfl
@[simp] theorem setDone_errPos : (setDone s).errPos = s.errPos := rfl
@[simp] theorem setDone_warn : (setDone s).warn = s.warn := rfl
@[simp] theorem setDone_warnLastId : (setDone s).warnLastId = s.warnLastId := rfl
@[simp] theorem setDone_warnCount : (setDone s).warnCount = s.warnCount := rfl
@[simp] theorem setDone_pixelsOut : (setDone s).pixelsOut = s.pixelsOut := rfl
@[simp] theorem setDone_irqEn : (setDone s).irqEn = s.irqEn := rfl
@[simp] theorem setDone_irqStatus : (setDone s).irqStatus = s.irqStatus ||| 0b001#3 := rfl
@[simp] theorem setDone_lastSeen : (setDone s).lastSeen = s.lastSeen := rfl
@[simp] theorem setDone_rem : (setDone s).rem = s.rem := rfl
@[simp] theorem setDone_fetched : (setDone s).fetched = s.fetched := rfl
@[simp] theorem setDone_bits : (setDone s).bits = s.bits := rfl
@[simp] theorem setDone_cur : (setDone s).cur = s.cur := rfl
@[simp] theorem setDone_offered : (setDone s).offered = s.offered := rfl
@[simp] theorem setDone_raster : (setDone s).raster = s.raster := rfl
@[simp] theorem setDone_busRead : (setDone s).busRead = s.busRead := rfl
@[simp] theorem setDone_turns : (setDone s).turns = s.turns := rfl
@[simp] theorem setDone_freeCtr : (setDone s).freeCtr = s.freeCtr := rfl

/-! ### storeQt (R316) -/

@[simp] theorem storeQt_state : (storeQt i q s).state = s.state := rfl
@[simp] theorem storeQt_pos : (storeQt i q s).pos = s.pos := rfl
@[simp] theorem storeQt_bitbuf : (storeQt i q s).bitbuf = s.bitbuf := rfl
@[simp] theorem storeQt_bitcnt : (storeQt i q s).bitcnt = s.bitcnt := rfl
@[simp] theorem storeQt_qt : (storeQt i q s).qt = s.qt.set i q := rfl
@[simp] theorem storeQt_qtValid : (storeQt i q s).qtValid = s.qtValid.set i true := rfl
@[simp] theorem storeQt_htDc : (storeQt i q s).htDc = s.htDc := rfl
@[simp] theorem storeQt_htDcValid : (storeQt i q s).htDcValid = s.htDcValid := rfl
@[simp] theorem storeQt_htAc : (storeQt i q s).htAc = s.htAc := rfl
@[simp] theorem storeQt_htAcValid : (storeQt i q s).htAcValid = s.htAcValid := rfl
@[simp] theorem storeQt_frameValid : (storeQt i q s).frameValid = s.frameValid := rfl
@[simp] theorem storeQt_precision : (storeQt i q s).precision = s.precision := rfl
@[simp] theorem storeQt_height : (storeQt i q s).height = s.height := rfl
@[simp] theorem storeQt_width : (storeQt i q s).width = s.width := rfl
@[simp] theorem storeQt_nf : (storeQt i q s).nf = s.nf := rfl
@[simp] theorem storeQt_comp : (storeQt i q s).comp = s.comp := rfl
@[simp] theorem storeQt_hmax : (storeQt i q s).hmax = s.hmax := rfl
@[simp] theorem storeQt_vmax : (storeQt i q s).vmax = s.vmax := rfl
@[simp] theorem storeQt_scanValid : (storeQt i q s).scanValid = s.scanValid := rfl
@[simp] theorem storeQt_sc : (storeQt i q s).sc = s.sc := rfl
@[simp] theorem storeQt_inScan : (storeQt i q s).inScan = s.inScan := rfl
@[simp] theorem storeQt_pred : (storeQt i q s).pred = s.pred := rfl
@[simp] theorem storeQt_xPos : (storeQt i q s).xPos = s.xPos := rfl
@[simp] theorem storeQt_yPos : (storeQt i q s).yPos = s.yPos := rfl
@[simp] theorem storeQt_coef : (storeQt i q s).coef = s.coef := rfl
@[simp] theorem storeQt_k : (storeQt i q s).k = s.k := rfl
@[simp] theorem storeQt_samples : (storeQt i q s).samples = s.samples := rfl
@[simp] theorem storeQt_errKind : (storeQt i q s).errKind = s.errKind := rfl
@[simp] theorem storeQt_errCause : (storeQt i q s).errCause = s.errCause := rfl
@[simp] theorem storeQt_errPos : (storeQt i q s).errPos = s.errPos := rfl
@[simp] theorem storeQt_warn : (storeQt i q s).warn = s.warn := rfl
@[simp] theorem storeQt_warnLastId : (storeQt i q s).warnLastId = s.warnLastId := rfl
@[simp] theorem storeQt_warnCount : (storeQt i q s).warnCount = s.warnCount := rfl
@[simp] theorem storeQt_pixelsOut : (storeQt i q s).pixelsOut = s.pixelsOut := rfl
@[simp] theorem storeQt_irqEn : (storeQt i q s).irqEn = s.irqEn := rfl
@[simp] theorem storeQt_irqStatus : (storeQt i q s).irqStatus = s.irqStatus := rfl
@[simp] theorem storeQt_lastSeen : (storeQt i q s).lastSeen = s.lastSeen := rfl
@[simp] theorem storeQt_rem : (storeQt i q s).rem = s.rem := rfl
@[simp] theorem storeQt_fetched : (storeQt i q s).fetched = s.fetched := rfl
@[simp] theorem storeQt_bits : (storeQt i q s).bits = s.bits := rfl
@[simp] theorem storeQt_cur : (storeQt i q s).cur = s.cur := rfl
@[simp] theorem storeQt_offered : (storeQt i q s).offered = s.offered := rfl
@[simp] theorem storeQt_raster : (storeQt i q s).raster = s.raster := rfl
@[simp] theorem storeQt_busRead : (storeQt i q s).busRead = s.busRead := rfl
@[simp] theorem storeQt_turns : (storeQt i q s).turns = s.turns := rfl
@[simp] theorem storeQt_freeCtr : (storeQt i q s).freeCtr = s.freeCtr := rfl

/-! ### storeSamples (R41) -/

@[simp] theorem storeSamples_state : (storeSamples c n v s).state = s.state := rfl
@[simp] theorem storeSamples_pos : (storeSamples c n v s).pos = s.pos := rfl
@[simp] theorem storeSamples_bitbuf : (storeSamples c n v s).bitbuf = s.bitbuf := rfl
@[simp] theorem storeSamples_bitcnt : (storeSamples c n v s).bitcnt = s.bitcnt := rfl
@[simp] theorem storeSamples_qt : (storeSamples c n v s).qt = s.qt := rfl
@[simp] theorem storeSamples_qtValid : (storeSamples c n v s).qtValid = s.qtValid := rfl
@[simp] theorem storeSamples_htDc : (storeSamples c n v s).htDc = s.htDc := rfl
@[simp] theorem storeSamples_htDcValid : (storeSamples c n v s).htDcValid = s.htDcValid := rfl
@[simp] theorem storeSamples_htAc : (storeSamples c n v s).htAc = s.htAc := rfl
@[simp] theorem storeSamples_htAcValid : (storeSamples c n v s).htAcValid = s.htAcValid := rfl
@[simp] theorem storeSamples_frameValid : (storeSamples c n v s).frameValid = s.frameValid := rfl
@[simp] theorem storeSamples_precision : (storeSamples c n v s).precision = s.precision := rfl
@[simp] theorem storeSamples_height : (storeSamples c n v s).height = s.height := rfl
@[simp] theorem storeSamples_width : (storeSamples c n v s).width = s.width := rfl
@[simp] theorem storeSamples_nf : (storeSamples c n v s).nf = s.nf := rfl
@[simp] theorem storeSamples_comp : (storeSamples c n v s).comp = s.comp := rfl
@[simp] theorem storeSamples_hmax : (storeSamples c n v s).hmax = s.hmax := rfl
@[simp] theorem storeSamples_vmax : (storeSamples c n v s).vmax = s.vmax := rfl
@[simp] theorem storeSamples_scanValid : (storeSamples c n v s).scanValid = s.scanValid := rfl
@[simp] theorem storeSamples_sc : (storeSamples c n v s).sc = s.sc := rfl
@[simp] theorem storeSamples_inScan : (storeSamples c n v s).inScan = s.inScan := rfl
@[simp] theorem storeSamples_pred : (storeSamples c n v s).pred = s.pred := rfl
@[simp] theorem storeSamples_xPos : (storeSamples c n v s).xPos = s.xPos := rfl
@[simp] theorem storeSamples_yPos : (storeSamples c n v s).yPos = s.yPos := rfl
@[simp] theorem storeSamples_coef : (storeSamples c n v s).coef = s.coef := rfl
@[simp] theorem storeSamples_k : (storeSamples c n v s).k = s.k := rfl
@[simp] theorem storeSamples_samples : (storeSamples c n v s).samples = s.samples.set c ((s.samples[c]).setIfInBounds n v) := rfl
@[simp] theorem storeSamples_errKind : (storeSamples c n v s).errKind = s.errKind := rfl
@[simp] theorem storeSamples_errCause : (storeSamples c n v s).errCause = s.errCause := rfl
@[simp] theorem storeSamples_errPos : (storeSamples c n v s).errPos = s.errPos := rfl
@[simp] theorem storeSamples_warn : (storeSamples c n v s).warn = s.warn := rfl
@[simp] theorem storeSamples_warnLastId : (storeSamples c n v s).warnLastId = s.warnLastId := rfl
@[simp] theorem storeSamples_warnCount : (storeSamples c n v s).warnCount = s.warnCount := rfl
@[simp] theorem storeSamples_pixelsOut : (storeSamples c n v s).pixelsOut = s.pixelsOut := rfl
@[simp] theorem storeSamples_irqEn : (storeSamples c n v s).irqEn = s.irqEn := rfl
@[simp] theorem storeSamples_irqStatus : (storeSamples c n v s).irqStatus = s.irqStatus := rfl
@[simp] theorem storeSamples_lastSeen : (storeSamples c n v s).lastSeen = s.lastSeen := rfl
@[simp] theorem storeSamples_rem : (storeSamples c n v s).rem = s.rem := rfl
@[simp] theorem storeSamples_fetched : (storeSamples c n v s).fetched = s.fetched := rfl
@[simp] theorem storeSamples_bits : (storeSamples c n v s).bits = s.bits := rfl
@[simp] theorem storeSamples_cur : (storeSamples c n v s).cur = s.cur := rfl
@[simp] theorem storeSamples_offered : (storeSamples c n v s).offered = s.offered := rfl
@[simp] theorem storeSamples_raster : (storeSamples c n v s).raster = s.raster := rfl
@[simp] theorem storeSamples_busRead : (storeSamples c n v s).busRead = s.busRead := rfl
@[simp] theorem storeSamples_turns : (storeSamples c n v s).turns = s.turns := rfl
@[simp] theorem storeSamples_freeCtr : (storeSamples c n v s).freeCtr = s.freeCtr := rfl

/-! ### enterBlock (R373) -/

@[simp] theorem enterBlock_state : (enterBlock j row col s).state = s.state := rfl
@[simp] theorem enterBlock_pos : (enterBlock j row col s).pos = s.pos := rfl
@[simp] theorem enterBlock_bitbuf : (enterBlock j row col s).bitbuf = s.bitbuf := rfl
@[simp] theorem enterBlock_bitcnt : (enterBlock j row col s).bitcnt = s.bitcnt := rfl
@[simp] theorem enterBlock_qt : (enterBlock j row col s).qt = s.qt := rfl
@[simp] theorem enterBlock_qtValid : (enterBlock j row col s).qtValid = s.qtValid := rfl
@[simp] theorem enterBlock_htDc : (enterBlock j row col s).htDc = s.htDc := rfl
@[simp] theorem enterBlock_htDcValid : (enterBlock j row col s).htDcValid = s.htDcValid := rfl
@[simp] theorem enterBlock_htAc : (enterBlock j row col s).htAc = s.htAc := rfl
@[simp] theorem enterBlock_htAcValid : (enterBlock j row col s).htAcValid = s.htAcValid := rfl
@[simp] theorem enterBlock_frameValid : (enterBlock j row col s).frameValid = s.frameValid := rfl
@[simp] theorem enterBlock_precision : (enterBlock j row col s).precision = s.precision := rfl
@[simp] theorem enterBlock_height : (enterBlock j row col s).height = s.height := rfl
@[simp] theorem enterBlock_width : (enterBlock j row col s).width = s.width := rfl
@[simp] theorem enterBlock_nf : (enterBlock j row col s).nf = s.nf := rfl
@[simp] theorem enterBlock_comp : (enterBlock j row col s).comp = s.comp := rfl
@[simp] theorem enterBlock_hmax : (enterBlock j row col s).hmax = s.hmax := rfl
@[simp] theorem enterBlock_vmax : (enterBlock j row col s).vmax = s.vmax := rfl
@[simp] theorem enterBlock_scanValid : (enterBlock j row col s).scanValid = s.scanValid := rfl
@[simp] theorem enterBlock_sc : (enterBlock j row col s).sc = s.sc := rfl
@[simp] theorem enterBlock_inScan : (enterBlock j row col s).inScan = s.inScan := rfl
@[simp] theorem enterBlock_pred : (enterBlock j row col s).pred = s.pred := rfl
@[simp] theorem enterBlock_xPos : (enterBlock j row col s).xPos = s.xPos := rfl
@[simp] theorem enterBlock_yPos : (enterBlock j row col s).yPos = s.yPos := rfl
@[simp] theorem enterBlock_coef : (enterBlock j row col s).coef = zeroCoef := rfl
@[simp] theorem enterBlock_k : (enterBlock j row col s).k = s.k := rfl
@[simp] theorem enterBlock_samples : (enterBlock j row col s).samples = s.samples := rfl
@[simp] theorem enterBlock_errKind : (enterBlock j row col s).errKind = s.errKind := rfl
@[simp] theorem enterBlock_errCause : (enterBlock j row col s).errCause = s.errCause := rfl
@[simp] theorem enterBlock_errPos : (enterBlock j row col s).errPos = s.errPos := rfl
@[simp] theorem enterBlock_warn : (enterBlock j row col s).warn = s.warn := rfl
@[simp] theorem enterBlock_warnLastId : (enterBlock j row col s).warnLastId = s.warnLastId := rfl
@[simp] theorem enterBlock_warnCount : (enterBlock j row col s).warnCount = s.warnCount := rfl
@[simp] theorem enterBlock_pixelsOut : (enterBlock j row col s).pixelsOut = s.pixelsOut := rfl
@[simp] theorem enterBlock_irqEn : (enterBlock j row col s).irqEn = s.irqEn := rfl
@[simp] theorem enterBlock_irqStatus : (enterBlock j row col s).irqStatus = s.irqStatus := rfl
@[simp] theorem enterBlock_lastSeen : (enterBlock j row col s).lastSeen = s.lastSeen := rfl
@[simp] theorem enterBlock_rem : (enterBlock j row col s).rem = s.rem := rfl
@[simp] theorem enterBlock_fetched : (enterBlock j row col s).fetched = s.fetched := rfl
@[simp] theorem enterBlock_bits : (enterBlock j row col s).bits = s.bits := rfl
@[simp] theorem enterBlock_cur : (enterBlock j row col s).cur = { s.cur with phase := .dc, j := j, row := row, col := col } := rfl
@[simp] theorem enterBlock_offered : (enterBlock j row col s).offered = s.offered := rfl
@[simp] theorem enterBlock_raster : (enterBlock j row col s).raster = s.raster := rfl
@[simp] theorem enterBlock_busRead : (enterBlock j row col s).busRead = s.busRead := rfl
@[simp] theorem enterBlock_turns : (enterBlock j row col s).turns = s.turns := rfl
@[simp] theorem enterBlock_freeCtr : (enterBlock j row col s).freeCtr = s.freeCtr := rfl

/-! ### enterEmit (R386) -/

@[simp] theorem enterEmit_state : (enterEmit s).state = s.state := rfl
@[simp] theorem enterEmit_pos : (enterEmit s).pos = s.pos := rfl
@[simp] theorem enterEmit_bitbuf : (enterEmit s).bitbuf = s.bitbuf := rfl
@[simp] theorem enterEmit_bitcnt : (enterEmit s).bitcnt = s.bitcnt := rfl
@[simp] theorem enterEmit_qt : (enterEmit s).qt = s.qt := rfl
@[simp] theorem enterEmit_qtValid : (enterEmit s).qtValid = s.qtValid := rfl
@[simp] theorem enterEmit_htDc : (enterEmit s).htDc = s.htDc := rfl
@[simp] theorem enterEmit_htDcValid : (enterEmit s).htDcValid = s.htDcValid := rfl
@[simp] theorem enterEmit_htAc : (enterEmit s).htAc = s.htAc := rfl
@[simp] theorem enterEmit_htAcValid : (enterEmit s).htAcValid = s.htAcValid := rfl
@[simp] theorem enterEmit_frameValid : (enterEmit s).frameValid = s.frameValid := rfl
@[simp] theorem enterEmit_precision : (enterEmit s).precision = s.precision := rfl
@[simp] theorem enterEmit_height : (enterEmit s).height = s.height := rfl
@[simp] theorem enterEmit_width : (enterEmit s).width = s.width := rfl
@[simp] theorem enterEmit_nf : (enterEmit s).nf = s.nf := rfl
@[simp] theorem enterEmit_comp : (enterEmit s).comp = s.comp := rfl
@[simp] theorem enterEmit_hmax : (enterEmit s).hmax = s.hmax := rfl
@[simp] theorem enterEmit_vmax : (enterEmit s).vmax = s.vmax := rfl
@[simp] theorem enterEmit_scanValid : (enterEmit s).scanValid = s.scanValid := rfl
@[simp] theorem enterEmit_sc : (enterEmit s).sc = s.sc := rfl
@[simp] theorem enterEmit_inScan : (enterEmit s).inScan = s.inScan := rfl
@[simp] theorem enterEmit_pred : (enterEmit s).pred = s.pred := rfl
@[simp] theorem enterEmit_xPos : (enterEmit s).xPos = s.xPos := rfl
@[simp] theorem enterEmit_yPos : (enterEmit s).yPos = s.yPos := rfl
@[simp] theorem enterEmit_coef : (enterEmit s).coef = s.coef := rfl
@[simp] theorem enterEmit_k : (enterEmit s).k = s.k := rfl
@[simp] theorem enterEmit_samples : (enterEmit s).samples = s.samples := rfl
@[simp] theorem enterEmit_errKind : (enterEmit s).errKind = s.errKind := rfl
@[simp] theorem enterEmit_errCause : (enterEmit s).errCause = s.errCause := rfl
@[simp] theorem enterEmit_errPos : (enterEmit s).errPos = s.errPos := rfl
@[simp] theorem enterEmit_warn : (enterEmit s).warn = s.warn := rfl
@[simp] theorem enterEmit_warnLastId : (enterEmit s).warnLastId = s.warnLastId := rfl
@[simp] theorem enterEmit_warnCount : (enterEmit s).warnCount = s.warnCount := rfl
@[simp] theorem enterEmit_pixelsOut : (enterEmit s).pixelsOut = s.pixelsOut := rfl
@[simp] theorem enterEmit_irqEn : (enterEmit s).irqEn = s.irqEn := rfl
@[simp] theorem enterEmit_irqStatus : (enterEmit s).irqStatus = s.irqStatus := rfl
@[simp] theorem enterEmit_lastSeen : (enterEmit s).lastSeen = s.lastSeen := rfl
@[simp] theorem enterEmit_rem : (enterEmit s).rem = s.rem := rfl
@[simp] theorem enterEmit_fetched : (enterEmit s).fetched = s.fetched := rfl
@[simp] theorem enterEmit_bits : (enterEmit s).bits = s.bits := rfl
@[simp] theorem enterEmit_cur : (enterEmit s).cur = { s.cur with phase := .emit, px := 0, py := 0 } := rfl
@[simp] theorem enterEmit_offered : (enterEmit s).offered = s.offered := rfl
@[simp] theorem enterEmit_raster : (enterEmit s).raster = s.raster := rfl
@[simp] theorem enterEmit_busRead : (enterEmit s).busRead = s.busRead := rfl
@[simp] theorem enterEmit_turns : (enterEmit s).turns = s.turns := rfl
@[simp] theorem enterEmit_freeCtr : (enterEmit s).freeCtr = s.freeCtr := rfl

/-! ### endOfScan (R387) -/

@[simp] theorem endOfScan_state : (endOfScan s).state = .expectEoi := rfl
@[simp] theorem endOfScan_pos : (endOfScan s).pos = s.pos := rfl
@[simp] theorem endOfScan_bitbuf : (endOfScan s).bitbuf = s.bitbuf := rfl
@[simp] theorem endOfScan_bitcnt : (endOfScan s).bitcnt = 0 := rfl
@[simp] theorem endOfScan_qt : (endOfScan s).qt = s.qt := rfl
@[simp] theorem endOfScan_qtValid : (endOfScan s).qtValid = s.qtValid := rfl
@[simp] theorem endOfScan_htDc : (endOfScan s).htDc = s.htDc := rfl
@[simp] theorem endOfScan_htDcValid : (endOfScan s).htDcValid = s.htDcValid := rfl
@[simp] theorem endOfScan_htAc : (endOfScan s).htAc = s.htAc := rfl
@[simp] theorem endOfScan_htAcValid : (endOfScan s).htAcValid = s.htAcValid := rfl
@[simp] theorem endOfScan_frameValid : (endOfScan s).frameValid = s.frameValid := rfl
@[simp] theorem endOfScan_precision : (endOfScan s).precision = s.precision := rfl
@[simp] theorem endOfScan_height : (endOfScan s).height = s.height := rfl
@[simp] theorem endOfScan_width : (endOfScan s).width = s.width := rfl
@[simp] theorem endOfScan_nf : (endOfScan s).nf = s.nf := rfl
@[simp] theorem endOfScan_comp : (endOfScan s).comp = s.comp := rfl
@[simp] theorem endOfScan_hmax : (endOfScan s).hmax = s.hmax := rfl
@[simp] theorem endOfScan_vmax : (endOfScan s).vmax = s.vmax := rfl
@[simp] theorem endOfScan_scanValid : (endOfScan s).scanValid = s.scanValid := rfl
@[simp] theorem endOfScan_sc : (endOfScan s).sc = s.sc := rfl
@[simp] theorem endOfScan_inScan : (endOfScan s).inScan = s.inScan := rfl
@[simp] theorem endOfScan_pred : (endOfScan s).pred = s.pred := rfl
@[simp] theorem endOfScan_xPos : (endOfScan s).xPos = s.xPos := rfl
@[simp] theorem endOfScan_yPos : (endOfScan s).yPos = s.yPos := rfl
@[simp] theorem endOfScan_coef : (endOfScan s).coef = s.coef := rfl
@[simp] theorem endOfScan_k : (endOfScan s).k = s.k := rfl
@[simp] theorem endOfScan_samples : (endOfScan s).samples = s.samples := rfl
@[simp] theorem endOfScan_errKind : (endOfScan s).errKind = s.errKind := rfl
@[simp] theorem endOfScan_errCause : (endOfScan s).errCause = s.errCause := rfl
@[simp] theorem endOfScan_errPos : (endOfScan s).errPos = s.errPos := rfl
@[simp] theorem endOfScan_warn : (endOfScan s).warn = s.warn := rfl
@[simp] theorem endOfScan_warnLastId : (endOfScan s).warnLastId = s.warnLastId := rfl
@[simp] theorem endOfScan_warnCount : (endOfScan s).warnCount = s.warnCount := rfl
@[simp] theorem endOfScan_pixelsOut : (endOfScan s).pixelsOut = s.pixelsOut := rfl
@[simp] theorem endOfScan_irqEn : (endOfScan s).irqEn = s.irqEn := rfl
@[simp] theorem endOfScan_irqStatus : (endOfScan s).irqStatus = s.irqStatus := rfl
@[simp] theorem endOfScan_lastSeen : (endOfScan s).lastSeen = s.lastSeen := rfl
@[simp] theorem endOfScan_rem : (endOfScan s).rem = s.rem := rfl
@[simp] theorem endOfScan_fetched : (endOfScan s).fetched = s.fetched := rfl
@[simp] theorem endOfScan_bits : (endOfScan s).bits = s.bits := rfl
@[simp] theorem endOfScan_cur : (endOfScan s).cur = s.cur := rfl
@[simp] theorem endOfScan_offered : (endOfScan s).offered = s.offered := rfl
@[simp] theorem endOfScan_raster : (endOfScan s).raster = s.raster := rfl
@[simp] theorem endOfScan_busRead : (endOfScan s).busRead = s.busRead := rfl
@[simp] theorem endOfScan_turns : (endOfScan s).turns = s.turns := rfl
@[simp] theorem endOfScan_freeCtr : (endOfScan s).freeCtr = s.freeCtr := rfl

/-! ### scanEnter (R324) -/

@[simp] theorem scanEnter_state : (scanEnter s).state = .scan := rfl
@[simp] theorem scanEnter_pos : (scanEnter s).pos = s.pos := rfl
@[simp] theorem scanEnter_bitbuf : (scanEnter s).bitbuf = s.bitbuf := rfl
@[simp] theorem scanEnter_bitcnt : (scanEnter s).bitcnt = 0 := rfl
@[simp] theorem scanEnter_qt : (scanEnter s).qt = s.qt := rfl
@[simp] theorem scanEnter_qtValid : (scanEnter s).qtValid = s.qtValid := rfl
@[simp] theorem scanEnter_htDc : (scanEnter s).htDc = s.htDc := rfl
@[simp] theorem scanEnter_htDcValid : (scanEnter s).htDcValid = s.htDcValid := rfl
@[simp] theorem scanEnter_htAc : (scanEnter s).htAc = s.htAc := rfl
@[simp] theorem scanEnter_htAcValid : (scanEnter s).htAcValid = s.htAcValid := rfl
@[simp] theorem scanEnter_frameValid : (scanEnter s).frameValid = s.frameValid := rfl
@[simp] theorem scanEnter_precision : (scanEnter s).precision = s.precision := rfl
@[simp] theorem scanEnter_height : (scanEnter s).height = s.height := rfl
@[simp] theorem scanEnter_width : (scanEnter s).width = s.width := rfl
@[simp] theorem scanEnter_nf : (scanEnter s).nf = s.nf := rfl
@[simp] theorem scanEnter_comp : (scanEnter s).comp = s.comp := rfl
@[simp] theorem scanEnter_hmax : (scanEnter s).hmax = s.hmax := rfl
@[simp] theorem scanEnter_vmax : (scanEnter s).vmax = s.vmax := rfl
@[simp] theorem scanEnter_scanValid : (scanEnter s).scanValid = true := rfl
@[simp] theorem scanEnter_sc : (scanEnter s).sc = s.sc := rfl
@[simp] theorem scanEnter_inScan : (scanEnter s).inScan = ((s.inScan.set s.sc[0].fi true).set s.sc[1].fi true).set s.sc[2].fi true := rfl
@[simp] theorem scanEnter_pred : (scanEnter s).pred = Vector.replicate 3 0 := rfl
@[simp] theorem scanEnter_xPos : (scanEnter s).xPos = 0#17 := rfl
@[simp] theorem scanEnter_yPos : (scanEnter s).yPos = 0#17 := rfl
@[simp] theorem scanEnter_coef : (scanEnter s).coef = s.coef := rfl
@[simp] theorem scanEnter_k : (scanEnter s).k = s.k := rfl
@[simp] theorem scanEnter_samples : (scanEnter s).samples = s.samples := rfl
@[simp] theorem scanEnter_errKind : (scanEnter s).errKind = s.errKind := rfl
@[simp] theorem scanEnter_errCause : (scanEnter s).errCause = s.errCause := rfl
@[simp] theorem scanEnter_errPos : (scanEnter s).errPos = s.errPos := rfl
@[simp] theorem scanEnter_warn : (scanEnter s).warn = s.warn := rfl
@[simp] theorem scanEnter_warnLastId : (scanEnter s).warnLastId = s.warnLastId := rfl
@[simp] theorem scanEnter_warnCount : (scanEnter s).warnCount = s.warnCount := rfl
@[simp] theorem scanEnter_pixelsOut : (scanEnter s).pixelsOut = s.pixelsOut := rfl
@[simp] theorem scanEnter_irqEn : (scanEnter s).irqEn = s.irqEn := rfl
@[simp] theorem scanEnter_irqStatus : (scanEnter s).irqStatus = s.irqStatus := rfl
@[simp] theorem scanEnter_lastSeen : (scanEnter s).lastSeen = s.lastSeen := rfl
@[simp] theorem scanEnter_rem : (scanEnter s).rem = s.rem := rfl
@[simp] theorem scanEnter_fetched : (scanEnter s).fetched = s.fetched := rfl
@[simp] theorem scanEnter_bits : (scanEnter s).bits = s.bits := rfl
@[simp] theorem scanEnter_cur : (scanEnter s).cur = Cursor.init := rfl
@[simp] theorem scanEnter_offered : (scanEnter s).offered = s.offered := rfl
@[simp] theorem scanEnter_raster : (scanEnter s).raster = s.raster := rfl
@[simp] theorem scanEnter_busRead : (scanEnter s).busRead = s.busRead := rfl
@[simp] theorem scanEnter_turns : (scanEnter s).turns = s.turns := rfl
@[simp] theorem scanEnter_freeCtr : (scanEnter s).freeCtr = s.freeCtr := rfl

/-! ### blockReset (R70's reset column) -/

@[simp] theorem blockReset_state : (blockReset s).state = .idle := rfl
@[simp] theorem blockReset_pos : (blockReset s).pos = 0#32 := rfl
@[simp] theorem blockReset_bitbuf : (blockReset s).bitbuf = Config.freeBitbuf s.freeCtr := rfl
@[simp] theorem blockReset_bitcnt : (blockReset s).bitcnt = 0 := rfl
@[simp] theorem blockReset_qt : (blockReset s).qt = Config.freeQt s.freeCtr := rfl
@[simp] theorem blockReset_qtValid : (blockReset s).qtValid = Vector.replicate 16 false := rfl
@[simp] theorem blockReset_htDc : (blockReset s).htDc = Config.freeHtDc s.freeCtr := rfl
@[simp] theorem blockReset_htDcValid : (blockReset s).htDcValid = Vector.replicate 16 false := rfl
@[simp] theorem blockReset_htAc : (blockReset s).htAc = Config.freeHtAc s.freeCtr := rfl
@[simp] theorem blockReset_htAcValid : (blockReset s).htAcValid = Vector.replicate 16 false := rfl
@[simp] theorem blockReset_frameValid : (blockReset s).frameValid = false := rfl
@[simp] theorem blockReset_precision : (blockReset s).precision = 0#8 := rfl
@[simp] theorem blockReset_height : (blockReset s).height = 0#16 := rfl
@[simp] theorem blockReset_width : (blockReset s).width = 0#16 := rfl
@[simp] theorem blockReset_nf : (blockReset s).nf = 0#8 := rfl
@[simp] theorem blockReset_comp : (blockReset s).comp = Vector.replicate 3 ⟨0#8, 0#4, 0#4, 0#8⟩ := rfl
@[simp] theorem blockReset_hmax : (blockReset s).hmax = 0#4 := rfl
@[simp] theorem blockReset_vmax : (blockReset s).vmax = 0#4 := rfl
@[simp] theorem blockReset_scanValid : (blockReset s).scanValid = false := rfl
@[simp] theorem blockReset_sc : (blockReset s).sc = Vector.replicate 3 ⟨0, 0#4⟩ := rfl
@[simp] theorem blockReset_inScan : (blockReset s).inScan = Vector.replicate 3 false := rfl
@[simp] theorem blockReset_pred : (blockReset s).pred = Vector.replicate 3 0 := rfl
@[simp] theorem blockReset_xPos : (blockReset s).xPos = 0#17 := rfl
@[simp] theorem blockReset_yPos : (blockReset s).yPos = 0#17 := rfl
@[simp] theorem blockReset_coef : (blockReset s).coef = Config.freeCoef s.freeCtr := rfl
@[simp] theorem blockReset_k : (blockReset s).k = (Config.freeK s.freeCtr).val := rfl
@[simp] theorem blockReset_samples : (blockReset s).samples = Config.freeSamples s.freeCtr := rfl
@[simp] theorem blockReset_errKind : (blockReset s).errKind = 0#3 := rfl
@[simp] theorem blockReset_errCause : (blockReset s).errCause = 0#8 := rfl
@[simp] theorem blockReset_errPos : (blockReset s).errPos = 0#32 := rfl
@[simp] theorem blockReset_warn : (blockReset s).warn = false := rfl
@[simp] theorem blockReset_warnLastId : (blockReset s).warnLastId = 0#8 := rfl
@[simp] theorem blockReset_warnCount : (blockReset s).warnCount = 0#8 := rfl
@[simp] theorem blockReset_pixelsOut : (blockReset s).pixelsOut = 0#32 := rfl
@[simp] theorem blockReset_irqEn : (blockReset s).irqEn = 0#3 := rfl
@[simp] theorem blockReset_irqStatus : (blockReset s).irqStatus = 0#3 := rfl
@[simp] theorem blockReset_lastSeen : (blockReset s).lastSeen = false := rfl
@[simp] theorem blockReset_rem : (blockReset s).rem = 0 := rfl
@[simp] theorem blockReset_fetched : (blockReset s).fetched = [] := rfl
@[simp] theorem blockReset_bits : (blockReset s).bits = [] := rfl
@[simp] theorem blockReset_cur : (blockReset s).cur = Cursor.init := rfl
@[simp] theorem blockReset_offered : (blockReset s).offered = s.offered := rfl
@[simp] theorem blockReset_raster : (blockReset s).raster = s.raster := rfl
@[simp] theorem blockReset_busRead : (blockReset s).busRead = s.busRead := rfl
@[simp] theorem blockReset_turns : (blockReset s).turns = s.turns := rfl
@[simp] theorem blockReset_freeCtr : (blockReset s).freeCtr = s.freeCtr + 1 := rfl

/-! ### applyStart (R70's START column) -/

@[simp] theorem applyStart_state : (applyStart s).state = .expectSoi := rfl
@[simp] theorem applyStart_pos : (applyStart s).pos = 0#32 := rfl
@[simp] theorem applyStart_bitbuf : (applyStart s).bitbuf = Config.freeBitbuf s.freeCtr := rfl
@[simp] theorem applyStart_bitcnt : (applyStart s).bitcnt = 0 := rfl
@[simp] theorem applyStart_qt : (applyStart s).qt = Config.freeQt s.freeCtr := rfl
@[simp] theorem applyStart_qtValid : (applyStart s).qtValid = Vector.replicate 16 false := rfl
@[simp] theorem applyStart_htDc : (applyStart s).htDc = Config.freeHtDc s.freeCtr := rfl
@[simp] theorem applyStart_htDcValid : (applyStart s).htDcValid = Vector.replicate 16 false := rfl
@[simp] theorem applyStart_htAc : (applyStart s).htAc = Config.freeHtAc s.freeCtr := rfl
@[simp] theorem applyStart_htAcValid : (applyStart s).htAcValid = Vector.replicate 16 false := rfl
@[simp] theorem applyStart_frameValid : (applyStart s).frameValid = false := rfl
@[simp] theorem applyStart_precision : (applyStart s).precision = 0#8 := rfl
@[simp] theorem applyStart_height : (applyStart s).height = 0#16 := rfl
@[simp] theorem applyStart_width : (applyStart s).width = 0#16 := rfl
@[simp] theorem applyStart_nf : (applyStart s).nf = 0#8 := rfl
@[simp] theorem applyStart_comp : (applyStart s).comp = Vector.replicate 3 ⟨0#8, 0#4, 0#4, 0#8⟩ := rfl
@[simp] theorem applyStart_hmax : (applyStart s).hmax = 0#4 := rfl
@[simp] theorem applyStart_vmax : (applyStart s).vmax = 0#4 := rfl
@[simp] theorem applyStart_scanValid : (applyStart s).scanValid = false := rfl
@[simp] theorem applyStart_sc : (applyStart s).sc = Vector.replicate 3 ⟨0, 0#4⟩ := rfl
@[simp] theorem applyStart_inScan : (applyStart s).inScan = Vector.replicate 3 false := rfl
@[simp] theorem applyStart_pred : (applyStart s).pred = Vector.replicate 3 0 := rfl
@[simp] theorem applyStart_xPos : (applyStart s).xPos = 0#17 := rfl
@[simp] theorem applyStart_yPos : (applyStart s).yPos = 0#17 := rfl
@[simp] theorem applyStart_coef : (applyStart s).coef = Config.freeCoef s.freeCtr := rfl
@[simp] theorem applyStart_k : (applyStart s).k = (Config.freeK s.freeCtr).val := rfl
@[simp] theorem applyStart_samples : (applyStart s).samples = Config.freeSamples s.freeCtr := rfl
@[simp] theorem applyStart_errKind : (applyStart s).errKind = 0#3 := rfl
@[simp] theorem applyStart_errCause : (applyStart s).errCause = 0#8 := rfl
@[simp] theorem applyStart_errPos : (applyStart s).errPos = 0#32 := rfl
@[simp] theorem applyStart_warn : (applyStart s).warn = false := rfl
@[simp] theorem applyStart_warnLastId : (applyStart s).warnLastId = 0#8 := rfl
@[simp] theorem applyStart_warnCount : (applyStart s).warnCount = 0#8 := rfl
@[simp] theorem applyStart_pixelsOut : (applyStart s).pixelsOut = 0#32 := rfl
@[simp] theorem applyStart_irqEn : (applyStart s).irqEn = s.irqEn := rfl
@[simp] theorem applyStart_irqStatus : (applyStart s).irqStatus = s.irqStatus := rfl
@[simp] theorem applyStart_lastSeen : (applyStart s).lastSeen = false := rfl
@[simp] theorem applyStart_rem : (applyStart s).rem = 0 := rfl
@[simp] theorem applyStart_fetched : (applyStart s).fetched = [] := rfl
@[simp] theorem applyStart_bits : (applyStart s).bits = [] := rfl
@[simp] theorem applyStart_cur : (applyStart s).cur = Cursor.init := rfl
@[simp] theorem applyStart_offered : (applyStart s).offered = s.offered := rfl
@[simp] theorem applyStart_raster : (applyStart s).raster = s.raster := rfl
@[simp] theorem applyStart_busRead : (applyStart s).busRead = s.busRead := rfl
@[simp] theorem applyStart_turns : (applyStart s).turns = s.turns := rfl
@[simp] theorem applyStart_freeCtr : (applyStart s).freeCtr = s.freeCtr + 1 := rfl

end Sys2Proof.Machine
end

