-- ==== Sys2Proof/Tests/Slice0.lean ====
section
/-! SUPPORT. The author's tests: ill-formed terms refused, words of spec/30_encoding.md decoded, one step of each instruction against a vector of spec/95_test_vectors.md, and a witness for the hypotheses of each statement. -/

namespace Sys2Proof.Tests

open Sys2Proof.Machine

/-! ## Ill-formed terms are refused by WellFormed, one for each check -/

/-- `n` zero counts, with some entries set. -/
def counts (l : List (Nat × Byte)) : Vector Byte 16 := Vector.ofFn (fun i => (l.lookup (i.val + 1)).getD 0#8)

/-- R230 E3's table: 3 codes of 3 bits, 8 of 4, 8 of 6, for the symbols 0x61 to 0x73. -/
def tableE3 : HuffTable := ⟨counts [(3, 3#8), (4, 8#8), (6, 8#8)], (List.range 19).map (fun i => BitVec.ofNat 8 (0x61 + i))⟩

/-- V-H2's table: 00, 05 and 06 at `00`, `01` and `10`. -/
def tableH2 : HuffTable := ⟨counts [(2, 3#8)], [0x00#8, 0x05#8, 0x06#8]⟩

theorem test_ill_dht_symbols : Instr.WellFormed (.dht 22#16 (some ⟨0#8, ⟨counts [(2, 3#8)], [0#8, 5#8]⟩⟩)) = false := by decide
theorem test_ill_dht_extra : Instr.WellFormed (.dht 21#16 (some ⟨0#8, tableH2⟩)) = false := by decide
theorem test_ill_dht_short_body : Instr.WellFormed (.dht 1#16 (some ⟨0#8, tableH2⟩)) = false := by decide
theorem test_ill_dht_missing : Instr.WellFormed (.dht 2#16 none) = false := by decide
theorem test_ill_sof0_missing : Instr.WellFormed (.sof0 17#16 none) = false := by decide
theorem test_ill_sof0_comps : Instr.WellFormed (.sof0 17#16 (some ⟨8#8, 8#16, 8#16, 3#8, none⟩)) = false := by decide
theorem test_ill_sof0_extra :
    Instr.WellFormed (.sof0 11#16 (some ⟨8#8, 8#16, 8#16, 1#8, some (Vector.replicate 3 ⟨1#8, 0x11#8, 0#8⟩)⟩)) = false := by decide
theorem test_ill_sos_missing : Instr.WellFormed (.sos 12#16 none) = false := by decide
theorem test_ill_sos_tail : Instr.WellFormed (.sos 12#16 (some ⟨3#8, none⟩)) = false := by decide
theorem test_ill_app0 : Instr.WellFormed (.app0 4#16 [0#8]) = false := by decide
theorem test_ill_com : Instr.WellFormed (.com 2#16 [0#8]) = false := by decide
theorem test_ill_other_code : Instr.WellFormed (.other 0xDB#8 2#16 []) = false := by decide
theorem test_ill_other_length : Instr.WellFormed (.other 0xDD#8 4#16 [0#8]) = false := by decide
theorem test_ill_prefix : Instr.WellFormed (.markerPrefixErr 0xFF#8) = false := by decide
theorem test_ill_data : Instr.WellFormed (.data 0xFF#8) = false := by decide
theorem test_ill_ecsMarker_zero : Instr.WellFormed (.ecsMarker 0x00#8) = false := by decide
theorem test_ill_ecsMarker_rst : Instr.WellFormed (.ecsMarker 0xD3#8) = false := by decide
theorem test_ill_dcDiff_zero : Instr.WellFormed (.dcDiff 0#8 []) = false := by decide
theorem test_ill_dcDiff_wide : Instr.WellFormed (.dcDiff 17#8 (List.replicate 17 false)) = false := by decide
theorem test_ill_dcDiff_bits : Instr.WellFormed (.dcDiff 3#8 [true]) = false := by decide
theorem test_ill_dcTooWide : Instr.WellFormed (.dcTooWide 16#8) = false := by decide
theorem test_ill_zsr_eob : Instr.WellFormed (.zsr 0#4) = false := by decide
theorem test_ill_zsr_zrl : Instr.WellFormed (.zsr 15#4) = false := by decide
theorem test_ill_coef_size : Instr.WellFormed (.coef 1#4 0#4 []) = false := by decide
theorem test_ill_coef_short : Instr.WellFormed (.coef 0#4 3#4 [true, false]) = false := by decide
theorem test_ill_coef_bits : Instr.WellFormed (.coef 0#4 15#4 (List.replicate 16 true)) = false := by decide
theorem test_ill_roWrite_ctrl : Instr.WellFormed (.roWrite 0x04#8 0#32) = false := by decide
theorem test_ill_roWrite_offset : Instr.WellFormed (.roWrite 0x09#8 0#32) = false := by decide
theorem test_ill_regRead_offset : Instr.WellFormed (.regRead 0x02#8) = false := by decide

/-! ## Words of the spec's encodings decode to the instructions they stand for (R140 to R156)

The words of SOI, EOI, RSTn, DQT's head, SOF0, SOS, COM, STUFF, ECS_MARKER, DC_DIFF, COEF, ZRL, SOFT_RESET_AND_START and
IRQ_ACK are in `Obligations.SpecWordsDecode`; the other rows are here. -/

theorem test_word_soiInSegments : decodeStream (.segments false 0) [0xFF#8, 0xD8#8] = .instr .soiInSegments := by decide
theorem test_word_eoiInSegments : decodeStream (.segments true 0) [0xFF#8, 0xD9#8] = .instr .eoiInSegments := by decide
theorem test_word_dqtRecord :
    decodeStream (.segments false 65) (0x10#8 :: List.replicate 64 0x01#8) = .instr (.dqt (.record 0x10#8 (Vector.replicate 64 1#8))) := by
  decide
/-- P2's DC table, bytes `FF C4 00 16 00 00 03 [14×00] 00 05 06`. -/
theorem test_word_dht :
    decodeStream (.segments false 0)
      ([0xFF#8, 0xC4#8, 0x00#8, 0x16#8, 0x00#8, 0x00#8, 0x03#8] ++ List.replicate 14 0x00#8 ++ [0x00#8, 0x05#8, 0x06#8])
      = .instr (.dht 0x0016#16 (some ⟨0x00#8, tableH2⟩)) := by decide
theorem test_word_sof0Second : decodeStream (.segments true 0) [0xFF#8, 0xC0#8] = .instr .sof0Second := by decide
theorem test_word_sof2 : decodeStream (.segments false 0) [0xFF#8, 0xC2#8, 0x00#8, 0x11#8] = .instr (.sof2 0x0011#16) := by decide
theorem test_word_sosBeforeSof0 : decodeStream (.segments false 0) [0xFF#8, 0xDA#8] = .instr .sosBeforeSof0 := by decide
theorem test_word_app0 :
    decodeStream (.segments false 0) [0xFF#8, 0xE0#8, 0x00#8, 0x03#8, 0x4A#8] = .instr (.app0 0x0003#16 [0x4A#8]) := by decide
theorem test_word_other :
    decodeStream (.segments false 0) [0xFF#8, 0xDD#8, 0x00#8, 0x04#8, 0x00#8, 0x10#8]
      = .instr (.other 0xDD#8 0x0004#16 [0x00#8, 0x10#8]) := by decide
theorem test_word_fill : decodeStream (.segments false 0) [0xFF#8, 0xFF#8, 0x00#8, 0x02#8] = .instr (.other 0xFF#8 0x0002#16 []) := by
  decide
theorem test_word_prefix : decodeStream (.segments false 0) [0x00#8] = .instr (.markerPrefixErr 0x00#8) := by decide
theorem test_word_data : decodeStream .ecs [0x12#8] = .instr (.data 0x12#8) := by decide
theorem test_word_ecsRst : decodeStream .ecs [0xFF#8, 0xD7#8] = .instr (.ecsRst 7#3) := by decide
theorem test_word_dcZero : decodeSymbol .dc 0x00#8 [] = .instr .dcZero := by decide
theorem test_word_dcTooWide : decodeSymbol .dc 0x11#8 [] = .instr (.dcTooWide 0x11#8) := by decide
theorem test_word_eob : decodeSymbol .ac 0x00#8 [] = .instr .eob := by decide
theorem test_word_zsr : decodeSymbol .ac 0x20#8 [] = .instr (.zsr 2#4) := by decide
theorem test_word_start : decodeHost (.bus ⟨true, 0x04#8, .w32, 0x00000001#32⟩) = .ok (.start 0#30) := by decide
theorem test_word_softReset : decodeHost (.bus ⟨true, 0x04#8, .w32, 0xFFFFFFFE#32⟩) = .ok (.softReset (BitVec.allOnes 30)) := by decide
theorem test_word_ctrlNop : decodeHost (.bus ⟨true, 0x04#8, .w32, 0x00000004#32⟩) = .ok (.ctrlNop 1#30) := by decide
theorem test_word_irqEnWrite : decodeHost (.bus ⟨true, 0x30#8, .w32, 0x00000007#32⟩) = .ok (.irqEnWrite 7#32) := by decide
theorem test_word_roWrite : decodeHost (.bus ⟨true, 0x08#8, .w32, 0x12345678#32⟩) = .ok (.roWrite 0x08#8 0x12345678#32) := by decide
theorem test_word_regRead : decodeHost (.bus ⟨false, 0x80#8, .w32, 0#32⟩) = .ok (.regRead 0x80#8) := by decide
theorem test_word_streamByte : decodeHost (.offer 0xD9#8 true) = .ok (.streamByte 0xD9#8 true) := by decide
theorem test_word_pixelAccept : decodeHost .accept = .ok .pixelAccept := by decide
/-- E3's reference bits `000 0110 111111 1101 010` decode a, d, s, k, c. -/
theorem test_word_e3_a : nextSymbol tableE3 [false, false, false, false, true] = .found 0x61#8 [false, true] := by decide
theorem test_word_e3_s : nextSymbol tableE3 [true, true, true, true, true, true] = .found 0x73#8 [] := by decide
theorem test_word_e3_k : nextSymbol tableE3 [true, true, false, true] = .found 0x6B#8 [] := by decide
/-- V-H7 and V-H8. -/
theorem test_word_h7 : nextSymbol ⟨counts [(16, 1#8)], [0x42#8]⟩ (List.replicate 16 false) = .found 0x42#8 [] := by decide
theorem test_word_h8 : nextSymbol ⟨counts [(16, 1#8)], [0x42#8]⟩ (List.replicate 15 false ++ [true]) = .notFound := by decide

/-! ## One step of each instruction -/

/-- The state an outcome goes to. -/
def after (r : Result) : State := match r with | .next t => t | _ => State.reset

/-- P1's frame: 8×8, 4:4:4, with its tables (DC and AC slot 0: the one code `0`, for 0x00) and quantization all ones. -/
def framed : State := { State.reset with
  state := .segments, pos := 134#32, frameValid := true, precision := 8#8, height := 8#16, width := 8#16, nf := 3#8
  comp := #v[⟨1#8, 1#4, 1#4, 0#8⟩, ⟨2#8, 1#4, 1#4, 0#8⟩, ⟨3#8, 1#4, 1#4, 0#8⟩], hmax := 1#4, vmax := 1#4
  qt := State.reset.qt.set 0 (Vector.replicate 64 1#16), qtValid := State.reset.qtValid.set 0 true
  htDc := State.reset.htDc.set 0 (oneCode 0#8), htDcValid := State.reset.htDcValid.set 0 true
  htAc := State.reset.htAc.set 0 (oneCode 0#8), htAcValid := State.reset.htAcValid.set 0 true }

/-- That frame's scan, in `phase`. -/
def scanning (phase : Phase) : State := { framed with
  state := .scan, scanValid := true, sc := #v[⟨0, 0#4⟩, ⟨1, 0#4⟩, ⟨2, 0#4⟩], inScan := #v[true, true, true]
  cur := { Cursor.init with phase := phase } }

/-- P1's SOS. -/
def sosP1 : Instr := .sos 12#16 (some ⟨3#8, some ⟨#v[⟨1#8, 0#8⟩, ⟨2#8, 0#8⟩, ⟨3#8, 0#8⟩], #v[0x00#8, 0x3F#8, 0x00#8]⟩⟩)

/-- P1's SOF0, with its precision byte, and the first component's HV and the second's id to choose. -/
def sof0P1 (p hv id : Byte) : Instr :=
  .sof0 17#16 (some ⟨p, 8#16, 8#16, 3#8, some #v[⟨1#8, hv, 0#8⟩, ⟨id, 0x11#8, 0#8⟩, ⟨3#8, 0x11#8, 0#8⟩]⟩)

/-- The recorded error of an instruction's outcome. -/
def errorOf (i : Instr) (s : State) : EngineState × BitVec 3 × Byte × BitVec 32 :=
  let t := after (exec i s); (t.state, t.errKind, t.errCause, t.errPos)

theorem test_soi : (after (exec (.soi 0xFF#8 0xD8#8) { State.reset with state := .expectSoi })).state = .segments := by decide
/-- X1. -/
theorem test_soi_missing :
    errorOf (.soi 0xFF#8 0xD9#8) { State.reset with state := .expectSoi, pos := 2#32 } = (.error, 1#3, 0x01#8, 2#32) := by decide
theorem test_soiInSegments : errorOf .soiInSegments { framed with pos := 4#32 } = (.error, 1#3, 0x08#8, 4#32) := by decide
theorem test_eoi :
    (after (exec (.eoi 0xFF#8 0xD9#8) { framed with state := .expectEoi, irqStatus := 0b110#3 })).irqStatus = 0b111#3 := by decide
/-- X7. -/
theorem test_eoi_missing :
    errorOf (.eoi 0xFF#8 0xD8#8) { framed with state := .expectEoi, pos := 151#32 } = (.error, 1#3, 0x07#8, 151#32) := by decide
theorem test_eoiInSegments : errorOf .eoiInSegments { framed with pos := 4#32 } = (.error, 1#3, 0x08#8, 4#32) := by decide
theorem test_rstn : errorOf (.rstn 3#3) { framed with pos := 4#32 } = (.error, 2#3, 0x11#8, 4#32) := by decide
/-- V-Q1: the record `00 08 [63×10]`. -/
theorem test_dqt_record :
    let t := after (exec (.dqt (.record 0#8 ((Vector.replicate 64 0x10#8).set 0 8#8))) { framed with rem := 65 })
    (t.qt[0][0], t.qt[0][19], t.rem) = (8#16, 16#16, 0) := by decide
/-- X21. -/
theorem test_dqt_length : errorOf (.dqt (.header 0x42#16)) { framed with pos := 6#32 } = (.error, 1#3, 0x03#8, 6#32) := by decide
theorem test_dht : ((after (exec (.dht 22#16 (some ⟨0xF3#8, tableH2⟩)) framed)).htAcValid[3],
    (after (exec (.dht 22#16 (some ⟨0xF3#8, tableH2⟩)) framed)).htDcValid[3]) = (true, false) := by decide
/-- X19. -/
theorem test_dht_capacity : errorOf (.dht 276#16 (some ⟨0#8, ⟨counts [(15, 255#8), (16, 2#8)], []⟩⟩)) { framed with pos := 23#32 }
    = (.error, 4#3, 0x30#8, 23#32) := by decide
/-- R319's example: 16×8, Y at 2×1. -/
theorem test_sof0 :
    let t := after (exec (sof0P1 8#8 0x21#8 2#8) State.reset)
    (t.hmax, t.vmax, t.frameValid, t.comp[0].H, t.comp[0].V) = (2#4, 1#4, true, 2#4, 1#4) := by decide
/-- X12. -/
theorem test_sof0_frame_param : errorOf (sof0P1 8#8 0x01#8 2#8) { State.reset with pos := 134#32 } = (.error, 1#3, 0x0C#8, 134#32) := by
  decide
theorem test_sof0Second : errorOf .sof0Second { framed with pos := 136#32 } = (.error, 1#3, 0x08#8, 136#32) := by decide
/-- X6. -/
theorem test_sof2 : errorOf (.sof2 0x11#16) { framed with pos := 6#32 } = (.error, 2#3, 0x10#8, 6#32) := by decide
theorem test_sos : ((after (exec sosP1 framed)).state, (after (exec sosP1 framed)).inScan) = (.scan, #v[true, true, true]) := by decide
/-- X14: the first component's slot has no table. -/
theorem test_sos_tables :
    errorOf sosP1 { framed with pos := 148#32, qtValid := State.reset.qtValid } = (.error, 1#3, 0x0A#8, 148#32) := by decide
theorem test_sosBeforeSof0 : errorOf .sosBeforeSof0 { State.reset with pos := 4#32 } = (.error, 1#3, 0x08#8, 4#32) := by decide
theorem test_app0 : (after (exec (.app0 3#16 [0x4A#8]) framed)).state = .segments := by decide
theorem test_com : (after (exec (.com 5#16 [0x41#8, 0x42#8, 0x43#8]) framed)).pos = 134#32 := by decide
/-- X22. -/
theorem test_com_length : errorOf (.com 1#16 []) { framed with pos := 6#32 } = (.error, 1#3, 0x03#8, 6#32) := by decide
theorem test_other : (after (exec (.other 0xDD#8 4#16 [0x00#8, 0x10#8]) framed)).state = .segments := by decide
/-- X23. -/
theorem test_prefix : errorOf (.markerPrefixErr 0#8) { framed with pos := 3#32 } = (.error, 1#3, 0x02#8, 3#32) := by decide
theorem test_data : ((after (exec (.data 0xA5#8) (scanning .dc))).bitbuf, (after (exec (.data 0xA5#8) (scanning .dc))).bitcnt) = (0xA5#8, 8) := by
  decide
/-- V-B1: the bits of 0xA5 in the order NextBit returns them. -/
theorem test_data_bits : (Nat.iterate takeBit 8 (loadBits 0xA5#8 (scanning .dc))).bits
    = [true, false, true, false, false, true, false, true] := by decide
theorem test_stuff : (after (exec .stuff (scanning .dc))).bitbuf = 0xFF#8 := by decide
theorem test_ecsRst : errorOf (.ecsRst 0#3) (scanning .dc) = (.error, 2#3, 0x11#8, 134#32) := by decide
theorem test_ecsMarker : errorOf (.ecsMarker 0xFF#8) (scanning .dc) = (.error, 2#3, 0x12#8, 134#32) := by decide
theorem test_dcZero :
    let t := after (exec .dcZero { scanning .dc with pred := #v[16, 0, 0] }); (t.coef[0], t.k, t.pred[0]) = (16, 1, 16) := by decide
/-- R373's example: `pred[0] = 16` and `diff = −32`. -/
theorem test_dcDiff :
    let t := after (exec (.dcDiff 6#8 [false, true, true, true, true, true]) { scanning .dc with pred := #v[16, 0, 0] })
    (t.coef[0], t.pred[0]) = (-16, -16) := by decide
theorem test_dcTooWide : errorOf (.dcTooWide 17#8) (scanning .dc) = (.error, 3#3, 0x20#8, 134#32) := by decide
theorem test_eob : (after (exec .eob (scanning .ac))).cur.phase = .finish := by decide
theorem test_zrl : (after (exec .zrl { scanning .ac with k := 48 })).k = 64 := by decide
/-- V-S3. -/
theorem test_zrl_overflow : errorOf .zrl { scanning .ac with k := 49 } = (.error, 1#3, 0x06#8, 134#32) := by decide
/-- R378's example. -/
theorem test_zsr : (after (exec (.zsr 2#4) { scanning .ac with k := 1 })).k = 4 := by decide
/-- R378's corner past position 63: the run is in `k` when the error is raised. -/
theorem test_zsr_overflow : (after (exec (.zsr 14#4) { scanning .ac with k := 50 })).k = 64 := by decide
/-- R377's example: `rs = 0x23` at `k = 1`, then the bits `101`. -/
theorem test_coef_run :
    let t := after (exec (.coef 2#4 3#4 []) { scanning .ac with k := 1 }); (t.k, t.cur.phase) = (3, .value 2#4 3#4) := by decide
theorem test_coef_value :
    let t := after (exec (.coef 2#4 3#4 [true, false, true]) { scanning (.value 2#4 3#4) with k := 3 })
    (t.coef[16], t.k) = (5, 4) := by decide
/-- V-S4. -/
theorem test_coef_overflow :
    errorOf (.coef 15#4 1#4 []) { scanning .ac with k := 49 } = (.error, 1#3, 0x06#8, 134#32) := by decide
/-- V-R2. -/
theorem test_start : statusWord (after (exec (.start 0#30) State.reset)) = 0x11#32 := by decide
/-- V-R11: the interrupt status is kept. -/
theorem test_start_keeps_irq :
    (after (exec (.start 0#30) { framed with state := .done, irqStatus := 1#3 })).irqStatus = 1#3 := by decide
theorem test_softReset : (after (exec (.softReset 0#30) { framed with irqEn := 7#3, pixelsOut := 40#32 })).pixelsOut = 0#32 := by decide
/-- V-R4. -/
theorem test_softResetAndStart :
    statusWord (after (exec (.softResetAndStart 0#30) { State.reset with state := .expectSoi })) = 0#32 := by decide
theorem test_ctrlNop : (after (exec (.ctrlNop 0#30) framed)).state = .segments := by decide
/-- V-R5. -/
theorem test_irqEnWrite : regValue (after (exec (.irqEnWrite 0xFFFFFFFF#32) State.reset)) 0x30#8 = 7#32 := by decide
/-- R425's example. -/
theorem test_irqAck : (after (exec (.irqAck 1#32) { State.reset with irqStatus := 5#3 })).irqStatus = 4#3 := by decide
theorem test_roWrite : statusWord (after (exec (.roWrite 0x08#8 0x12345678#32) State.reset)) = 0#32 := by decide
/-- P1's end state: FRAME_FMT and COMP1. -/
theorem test_regRead_frameFmt : (after (exec (.regRead 0x18#8) (scanning .loop))).busRead = 0x03110308#32 := by decide
theorem test_regRead_comp : (after (exec (.regRead 0x20#8) (scanning .loop))).busRead = 0x10001102#32 := by decide
theorem test_streamByte :
    (after (exec (.streamByte 0xD9#8 true) { State.reset with offered := [(0xFF#8, false)] })).offered = [(0xFF#8, false), (0xD9#8, true)] := by
  decide
theorem test_pixelAccept : (after (exec .pixelAccept (scanning .emit))).pixelsOut = 1#32 := by decide
theorem test_pixelAccept_cursor : (after (exec .pixelAccept { scanning .emit with cur := { Cursor.init with phase := .emit, px := 7 } })).cur
    = { Cursor.init with phase := .emit, px := 0, py := 1 } := by decide

/-! ## Arithmetic vectors -/

/-- V-B12 and V-B16. -/
theorem test_signed_3 : (signedMagnitude [false, true, true], signedMagnitude [true, false, false]) = (-4, 4) := by decide
theorem test_signed_16 : (signedMagnitude (List.replicate 16 false), signedMagnitude (List.replicate 16 true)) = (-65535, 65535) := by decide
/-- V-Q5 and V-Q6. -/
theorem test_multiply_32 : (multiplyBlock 32 (Vector.replicate 64 255#16) (Vector.replicate 64 20)).isSome = true := by decide
theorem test_multiply_12 : multiplyBlock 12 (Vector.replicate 64 255#16) (Vector.replicate 64 20) = none := by decide
/-- R285's example, and a quotient that integer division would round to 0. -/
theorem test_divide_255 : (blockDivScalar (Vector.replicate 64 (255 : ℝ)) 255)[0] = 1 := by norm_num [blockDivScalar]
theorem test_divide_128 : (blockDivScalar (Vector.replicate 64 (128 : ℝ)) 255)[0] ≠ 0 := by norm_num [blockDivScalar]
/-- V-T2: `F(0,0) = −1024` gives −128, 16 times that over the denominator 16. -/
theorem test_idct_dc : idctCell ((Vector.replicate 64 0).set 0 (-1024)) 3 5 = #v[-2048, 0, 0, 0, 0, 0, 0, 0] := by decide
/-- V-T3's first cell: `F(1,0) = 8` gives 1.387040 = √2·cos(π/16), here 8·(2cos(3π/16) + 2cos(5π/16))/16. -/
theorem test_idct_u1 : idctCell ((Vector.replicate 64 0).set 1 8) 0 0 = #v[0, 0, 0, 8, 0, 8, 0, 0] := by decide
/-- V-C's ties: Q8(127.5) = 128 and Q8(254.49) = 254. -/
theorem test_q8_tie : q8 (coordOfInt 1275) 10 = 128 := by decide
theorem test_q8_below : q8 (coordOfInt 25449) 100 = 254 := by decide
/-- V-C4: the samples (0, 0, 127). -/
theorem test_colour : (q8 (redOf (coordOfInt 2048) (coordOfInt 2032)) channelDen,
    q8 (greenOf (coordOfInt 2048) (coordOfInt 0) (coordOfInt 2032)) channelDen,
    q8 (blueOf (coordOfInt 2048) (coordOfInt 0)) channelDen) = (255, 37, 128) := by decide
/-- The ratio 2/3 of R382's vectors. -/
theorem test_upsample : (List.range 8).map (fun p => upsampleIndex p 2 3) = [0, 0, 1, 2, 2, 3, 4, 4] := by decide

/-! ## Witnesses: a state and operands that meet each statement's hypotheses, clause by clause and at the boundaries -/

/-- Encoding statements: a 2-byte instruction, a DHT record with its table, an AC element with and without its bits, and a
host command. -/
theorem witness_DecodeEncodeAgree :
    (Instr.WellFormed (.rstn 7#3) = true ∧ admits (.stream (.segments true 0)) (.rstn 7#3) = true) ∧
    (Instr.WellFormed (.dht 22#16 (some ⟨0#8, tableH2⟩)) = true ∧
      admits (.stream (.segments false 0)) (.dht 22#16 (some ⟨0#8, tableH2⟩)) = true) ∧
    (Instr.WellFormed (.coef 15#4 1#4 []) = true ∧ admits (.element .ac) (.coef 15#4 1#4 []) = true) ∧
    (Instr.WellFormed (.coef 15#4 1#4 [true]) = true ∧ admits (.value 15#4 1#4) (.coef 15#4 1#4 [true]) = true) ∧
    (Instr.WellFormed (.coef 0#4 15#4 (List.replicate 15 true)) = true ∧
      admits (.value 0#4 15#4) (.coef 0#4 15#4 (List.replicate 15 true)) = true) ∧
    (Instr.WellFormed (.regRead 0xFC#8) = true ∧ admits .host (.regRead 0xFC#8) = true) := by decide

theorem witness_DecodersReadEncodings :
    decodeStream .ecs [0xFF#8, 0x00#8, 0x12#8] = .instr .stuff ∧
    decodeSymbol .dc 16#8 (List.replicate 17 true) = .instr (.dcDiff 16#8 (List.replicate 16 true)) ∧
    decodeValue 1#4 15#4 (List.replicate 16 true) = .instr (.coef 1#4 15#4 (List.replicate 15 true)) ∧
    decodeHost (.bus ⟨false, 0x00#8, .w32, 5#32⟩) = .ok (.regRead 0x00#8) := by decide

theorem witness_ShorterPrefixesNeedMore :
    Instr.WellFormed (.com 3#16 [0x41#8]) = true ∧ admits (.stream (.segments true 0)) (.com 3#16 [0x41#8]) = true ∧
    encode (.com 3#16 [0x41#8]) = .bytes [0xFF#8, 0xFE#8, 0x00#8, 0x03#8, 0x41#8] ∧
    [0xFF#8, 0xFE#8, 0x00#8, 0x03#8] <+: [0xFF#8, 0xFE#8, 0x00#8, 0x03#8, 0x41#8] := by decide

/-- A table with codes of 1 and of 16 bits: the shortest and the longest. -/
def tableEnds : HuffTable := ⟨counts [(1, 1#8), (16, 2#8)], [0x00#8, 0x01#8, 0x02#8]⟩

theorem built_E3 : Built tableE3 := ⟨by decide, by decide, by decide⟩
theorem built_Ends : Built tableEnds := ⟨by decide, by decide, by decide⟩

/-- V-H4: a table without codes. -/
theorem built_none : Built ⟨counts [], []⟩ := ⟨by decide, by decide, by decide⟩

theorem witness_HuffmanCodesDecode :
    Built tableEnds ∧ 0 < countOf tableEnds.counts 1 ∧ 1 < countOf tableEnds.counts 16 ∧
    (codeBits tableEnds 16 1).length = 16 ∧ bitsValue (codeBits tableEnds 16 1) = codeStart tableEnds.counts 16 + 1 ∧
    codeBits tableE3 4 7 = [true, true, false, true] := ⟨built_Ends, by decide, by decide, by decide, by decide, by decide⟩

theorem witness_HuffmanCodesArePrefixFree :
    Built tableEnds ∧ 1 < 16 ∧ 0 < countOf tableEnds.counts 1 ∧ 1 < countOf tableEnds.counts 16 :=
  ⟨built_Ends, by decide, by decide, by decide⟩

theorem witness_NextSymbolOutcomes :
    nextSymbol tableE3 [true, true, false, true, true] = .found 0x6B#8 [true] ∧ nextSymbol tableE3 [true, true, false] = .more ∧
    nextSymbol ⟨counts [], []⟩ (List.replicate 15 false) = .more ∧
    nextSymbol ⟨counts [], []⟩ (List.replicate 16 false) = .notFound := by decide

/-- The scan in phase `dc` with sixteen bits that start with no code of its table. -/
def noCode : State := { scanning .dc with bits := List.replicate 16 true }

theorem witness_NextSymbolOutcomes_step : noCode.turns = [] ∧ elementCtx noCode = some (dcTable noCode, .dc) ∧
    nextSymbol (dcTable noCode) noCode.bits = .notFound := by decide

theorem witness_StepRuns_stream :
    framed.turns = [] ∧ ReadsFrom { framed with fetched := [0xFF#8, 0xD8#8] } (.segments true 0) ∧
    decodeStream (.segments true 0) [0xFF#8, 0xD8#8] = .instr .soiInSegments := ⟨rfl, .segments rfl, by decide⟩

theorem witness_StepRuns_element :
    elementCtx { scanning .dc with bits := [false] } = some (oneCode 0#8, .dc) ∧
    decodeElement (oneCode 0#8) .dc [false] = .instr .dcZero ∧
    elementCtx { scanning .ac with k := 63, bits := [false] } = some (oneCode 0#8, .ac) ∧
    decodeElement (oneCode 0#8) .ac [false] = .instr .eob := by decide

theorem witness_StepRuns_value :
    let s := { scanning (.value 0#4 1#4) with bits := [false] }
    s.turns = [] ∧ s.state = .scan ∧ s.cur.phase = .value 0#4 1#4 ∧ decodeValue 0#4 1#4 s.bits = .instr (.coef 0#4 1#4 [false]) := by
  decide

theorem witness_StepRuns_turns :
    ({ framed with turns := [.host .accept, .engine] } : State).turns = .host .accept :: [.engine] ∧
    decodeHost .accept = .ok .pixelAccept ∧ ({ framed with turns := [.engine] } : State).turns = .engine :: [] := by decide

/-- The scan waits for a bit, with `n` unread bits in the buffer. -/
def waiting (n : Fin 9) : State := { scanning .dc with bitcnt := n, bitbuf := 0xA5#8 }

theorem waiting_needsBit (n : Fin 9) : needsBit (waiting n) := rfl

theorem waiting_needsByte : needsByte (waiting 0) := ⟨.ecs, .ecs (waiting_needsBit 0) rfl, rfl⟩

theorem segments_needsByte : needsByte framed := ⟨.segments true 0, .segments rfl, rfl⟩

/-- Each of ReadByte's three cases: the stream has ended, nothing is offered, a byte is offered. -/
theorem witness_ReadByteTakesOneByte :
    (framed.turns = [] ∧ needsByte framed) ∧
    (needsByte { framed with lastSeen := true } ∧ ({ framed with lastSeen := true } : State).lastSeen = true) ∧
    (framed.lastSeen = false ∧ framed.offered = []) ∧
    (needsByte { waiting 0 with offered := [(0x03#8, true)] } ∧
      ({ waiting 0 with offered := [(0x03#8, true)] } : State).offered = (0x03#8, true) :: []) :=
  ⟨⟨rfl, segments_needsByte⟩, ⟨⟨.segments true 0, .segments rfl, rfl⟩, rfl⟩, ⟨rfl, rfl⟩,
    ⟨⟨.ecs, .ecs rfl rfl, rfl⟩, rfl⟩⟩

theorem witness_OnlyWordAccessesHaveMeaning :
    ({ framed with turns := [.host (.bus ⟨true, 0x05#8, .w8, 0#32⟩)] } : State).turns
      = .host (.bus ⟨true, 0x05#8, .w8, 0#32⟩) :: [] ∧ (0xFF#8 : Byte).toNat % 4 ≠ 0 ∧ (0xFC#8 : Byte).toNat % 4 = 0 := by decide

theorem witness_NextBitIsMostSignificantFirst :
    ((waiting 8).turns = [] ∧ needsBit (waiting 8) ∧ (waiting 8).bitcnt.val ≠ 0) ∧
    ((waiting 1).turns = [] ∧ needsBit (waiting 1) ∧ (waiting 1).bitcnt.val ≠ 0) :=
  ⟨⟨rfl, waiting_needsBit 8, by decide⟩, ⟨rfl, waiting_needsBit 1, by decide⟩⟩

theorem witness_SignedMagnitudeIsABijection :
    (2 ^ (1 - 1) ≤ (-1 : Int).natAbs ∧ (-1 : Int).natAbs ≤ 2 ^ 1 - 1) ∧
    (2 ^ (16 - 1) ≤ (65535 : Int).natAbs ∧ (65535 : Int).natAbs ≤ 2 ^ 16 - 1) := by decide

theorem witness_EngineNeverLooksAhead : framed.turns = [] ∧ needsByte framed ∧ framed.lastSeen = false :=
  ⟨rfl, segments_needsByte, rfl⟩

/-- One product at the end of the range, and one just past it. -/
theorem witness_MultiplyBlockIsExactOrFails :
    inRange 32 (8388608 * 255) = true ∧ 8388608 * 255 ≤ (2 : Int) ^ (32 - 1) - 1 ∧ (2 : Int) ^ (32 - 1) - 1 < 8421505 * 255 ∧
    (∀ n : Fin 64, ((Vector.replicate 64 255#16 : Block (BitVec 16))[n]).toNat ≤ 255) ∧
    (∀ n : Fin 64, n ≠ 0 → ((Vector.replicate 64 32767 : Block Int)[n]).natAbs ≤ 2 ^ 15 - 1) := by decide

theorem witness_DcOnlyBlocksAreExact : ∀ n : Fin 64, n ≠ 0 → ((Vector.replicate 64 0 : Block Int).set 0 100)[n] = 0 := by decide

theorem witness_AdmittedValuesAreTheToleranceSet : (0 < channelDen ∧ 0 < 1) ∧
    (admittedLow (coordOfInt 2040) 16 0 1, admittedHigh (coordOfInt 2040) 16 0 1) = (128, 128) ∧
    (admittedLow (coordOfInt 2040) 16 1 100, admittedHigh (coordOfInt 2040) 16 1 100) = (127, 128) := by decide

/-- A frame at 3×2, 2×1 and 1×2, so that no ratio is 1 in both directions. -/
def mixed : State := { framed with
  comp := #v[⟨1#8, 3#4, 2#4, 0#8⟩, ⟨2#8, 2#4, 1#4, 0#8⟩, ⟨3#8, 1#4, 2#4, 0#8⟩], hmax := 3#4, vmax := 2#4 }

theorem witness_UpsamplingStaysInsideTheMcu : FrameOk mixed ∧ 23 < 8 * mixed.hmax.toNat ∧ 15 < 8 * mixed.vmax.toNat :=
  ⟨⟨rfl, rfl, by decide, by decide, rfl, rfl⟩, by decide, by decide⟩

theorem witness_AcceptedPixelsAreWithinTolerance : presenting (scanning .emit) = true := by decide

theorem witness_SoiAndEoiAreCompared :
    ((0xFF#8 : Byte) ≠ 0xFF#8 ∨ (0xD9#8 : Byte) ≠ 0xD8#8) ∧ ((0x00#8 : Byte) ≠ 0xFF#8 ∨ (0xD9#8 : Byte) ≠ 0xD9#8) := by decide

theorem witness_MarkersOutOfPlaceRaise :
    decodeStream (.segments true 0) [0xFF#8, 0xD0#8] = .instr (.rstn 0#3) ∧
    decodeStream (.segments false 0) [0xFF#8, 0xD7#8] = .instr (.rstn 7#3) := by decide

/-- The lengths where R313's check meets the rest: 1 fails, 2 passes. -/
theorem witness_lengths : (1#16 : Half).toNat < 2 ∧ 2 ≤ (2#16 : Half).toNat ∧ (2#16 : Half).toNat - 2 = ([] : List Byte).length := by
  decide

theorem witness_SkippedSegments_codes :
    isOther 0x00#8 = true ∧ isOther 0xCF#8 = true ∧ isOther 0xDD#8 = true ∧ isOther 0xFF#8 = true ∧
    [0x41#8].length = (0x00#8 ++ 0x03#8 : Half).toNat - 2 := by decide

/-- The lengths and ids at the ends of R315's and R316's ranges. -/
theorem witness_DqtStoresOrWarns :
    ((2#16 : Half).toNat - 2) % 65 = 0 ∧ ((67#16 : Half).toNat - 2) % 65 = 0 ∧ ((66#16 : Half).toNat - 2) % 65 ≠ 0 ∧
    (1#16 : Half).toNat < 2 ∧ (0x0F#8 : Byte).toNat < 16 ∧ 16 ≤ (0x10#8 : Byte).toNat := by decide

/-- X2, X20, X19, and tables at the bounds of R231 and R235. -/
theorem witness_DhtChecksThenStores :
    (21#16 : Half).toNat ≠ totalOf (counts [(1, 1#8)]) + 19 ∧
    ((22#16 : Half).toNat = totalOf (counts [(1, 3#8)]) + 19 ∧ 2 ^ 16 < kraftSum (counts [(1, 3#8)])) ∧
    ((276#16 : Half).toNat = totalOf (counts [(15, 255#8), (16, 2#8)]) + 19 ∧
      kraftSum (counts [(15, 255#8), (16, 2#8)]) ≤ 2 ^ 16 ∧ 256 < totalOf (counts [(15, 255#8), (16, 2#8)])) ∧
    ((275#16 : Half).toNat = totalOf (counts [(8, 255#8), (16, 1#8)]) + 19 ∧
      kraftSum (counts [(8, 255#8), (16, 1#8)]) ≤ 2 ^ 16 ∧ totalOf (counts [(8, 255#8), (16, 1#8)]) ≤ 256) ∧
    (kraftSum (counts [(1, 2#8)]) = 2 ^ 16 ∧ (0x0F#8 : Byte).getLsbD 4 = false ∧ (0xF0#8 : Byte).getLsbD 4 = true) := by decide

/-- Three components with the largest factors and distinct ids; one with a zero factor; two with one id. -/
theorem witness_Sof0ChecksThenStores :
    (18#16 : Half).toNat ≠ 8 + 3 * (3#8 : Byte).toNat ∧
    ((11#16 : Half).toNat = 8 + 3 * (1#8 : Byte).toNat ∧ (1#8 : Byte) ≠ 3#8) ∧ (12#8 : Byte) ≠ 8#8 ∧
    (let cs : Vector FrameSpec 3 := #v[⟨1#8, 0xFF#8, 0#8⟩, ⟨2#8, 0x11#8, 0#8⟩, ⟨3#8, 0x1F#8, 0#8⟩];
      (∀ i : Fin 3, (cs[i].hv).toNat / 16 ≠ 0 ∧ (cs[i].hv).toNat % 16 ≠ 0) ∧ ∀ i j : Fin 3, i ≠ j → cs[i].id ≠ cs[j].id) ∧
    (let cs : Vector FrameSpec 3 := #v[⟨1#8, 0x11#8, 0#8⟩, ⟨2#8, 0x11#8, 0#8⟩, ⟨3#8, 0x10#8, 0#8⟩];
      ∃ i : Fin 3, (cs[i].hv).toNat / 16 = 0 ∨ (cs[i].hv).toNat % 16 = 0) ∧
    (let cs : Vector FrameSpec 3 := #v[⟨1#8, 0x11#8, 0#8⟩, ⟨2#8, 0x11#8, 0#8⟩, ⟨1#8, 0x11#8, 0#8⟩];
      ∃ i j : Fin 3, i ≠ j ∧ cs[i].id = cs[j].id) := by decide

/-- X18's length and count. -/
theorem witness_Sos_checks :
    (11#16 : Half).toNat ≠ 6 + 2 * (3#8 : Byte).toNat ∧ ((8#16 : Half).toNat = 6 + 2 * (1#8 : Byte).toNat ∧ (1#8 : Byte) ≠ 3#8) := by
  decide

/-- X16 and X17: an id no component has, and one id twice; then a resolution in another order than the frame's, with its
tables defined, and with slot 15 undefined. -/
theorem witness_Sos_scan :
    (∀ i j : Fin 3, framed.comp[i].id = framed.comp[j].id → i = j) ∧
    (let cs : Vector ScanSpec 3 := #v[⟨1#8, 0#8⟩, ⟨2#8, 0#8⟩, ⟨4#8, 0#8⟩]; ∃ j : Fin 3, ∀ i : Fin 3, framed.comp[i].id ≠ cs[j].cs) ∧
    (let cs : Vector ScanSpec 3 := #v[⟨1#8, 0#8⟩, ⟨1#8, 0#8⟩, ⟨3#8, 0#8⟩]; ∃ j j' : Fin 3, j ≠ j' ∧ cs[j].cs = cs[j'].cs) ∧
    (let cs : Vector ScanSpec 3 := #v[⟨3#8, 0xF0#8⟩, ⟨1#8, 0#8⟩, ⟨2#8, 0#8⟩];
      let sc : Vector ScanComp 3 := #v[⟨2, 0#4⟩, ⟨0, 0#4⟩, ⟨1, 0#4⟩];
      (∀ j : Fin 3, framed.comp[sc[j].fi].id = cs[j].cs ∧ sc[j].th.toNat = (cs[j].t).toNat % 16) ∧
      (∀ j j' : Fin 3, sc[j].fi = sc[j'].fi → j = j') ∧
      ∀ j : Fin 3, (framed.comp[sc[j].fi].tq).toNat = 0 ∧ framed.qtValid[0] = true ∧ framed.htDcValid[sc[j].th.toNat] = true ∧
        framed.htAcValid[sc[j].th.toNat] = true) ∧
    framed.htDcValid[15] = false := by decide

/-- The predictor at both ends of its range, and the differences that leave it. -/
theorem witness_DcElementsUpdateThePredictor :
    inRange 32 (scanning .dc).pred[0] = true ∧ -2 ^ 31 ≤ (2 ^ 31 - 2 : Int) + signedMagnitude [true] ∧
    (2 ^ 31 - 2 : Int) + signedMagnitude [true] ≤ 2 ^ 31 - 1 ∧ 2 ^ 31 - 1 < (2 ^ 31 - 1 : Int) + signedMagnitude [true] ∧
    (-2 ^ 31 : Int) + signedMagnitude [false] < -2 ^ 31 := by decide

/-- The cursor where the AC checks change their answer (V-S2 and V-S3, V-S1 and V-S4). -/
theorem witness_AcElements :
    ({ scanning .ac with k := 48 } : State).k + 16 ≤ 64 ∧ 64 < ({ scanning .ac with k := 49 } : State).k + 16 ∧
    ({ scanning .ac with k := 49 } : State).k + (14#4 : BitVec 4).toNat < 64 ∧
    63 < ({ scanning .ac with k := 49 } : State).k + (15#4 : BitVec 4).toNat ∧ (1#4 : BitVec 4) ≠ 0#4 ∧
    ({ scanning (.value 0#4 1#4) with k := 63 } : State).k < 64 := by decide

/-- The end of a block: a product that fits and one that does not. -/
theorem witness_BlockEnd :
    (scanning .finish).turns = [] ∧ (scanning .finish).state = .scan ∧ (scanning .finish).cur.phase = .finish ∧
    (scanning .finish).comp[(scanning .finish).sc[(scanning .finish).cur.j].fi].tq.toNat < 16 ∧
    (multiplyBlock 32 ((scanning .finish).qt[0]) (scanning .finish).coef).isSome = true ∧
    multiplyBlock 32 (Vector.replicate 64 2#16) (Vector.replicate 64 (2 ^ 31 - 1)) = none := by decide

/-- The scan's loops: an MCU is due, none is, the AC loop is full, a position outside a 7-pixel row, and an MCU's end in the
middle of a row and at its end. -/
theorem witness_ScanLoops :
    ((scanning .loop).cur.phase = .loop ∧ (scanning .loop).yPos.toNat < (scanning .loop).height.toNat) ∧
    ({ scanning .loop with yPos := 8#17 } : State).height.toNat ≤ ({ scanning .loop with yPos := 8#17 } : State).yPos.toNat ∧
    ({ scanning .ac with k := 64 } : State).k = 64 ∧
    (let s := { scanning .emit with width := 7#16, cur := { Cursor.init with phase := .emit, px := 7, py := 7 } };
      s.cur.px < 8 * s.hmax.toNat ∧ s.cur.py < 8 * s.vmax.toNat ∧ s.width.toNat ≤ s.xPos.toNat + s.cur.px) ∧
    (let s := { scanning .emit with width := 9#16, cur := { Cursor.init with phase := .emit, py := 8 } };
      s.cur.py = 8 * s.vmax.toNat ∧ s.xPos.toNat + 8 * s.hmax.toNat < s.width.toNat) ∧
    (let s := { scanning .emit with cur := { Cursor.init with phase := .emit, py := 8 } };
      s.width.toNat ≤ s.xPos.toNat + 8 * s.hmax.toNat ∧ s.yPos.toNat < s.height.toNat) := by decide

/-- The last pixel of the frame. -/
theorem witness_PixelAccept :
    let s := { scanning .emit with cur := { Cursor.init with phase := .emit, px := 7, py := 7 } }
    s.state = .scan ∧ s.cur.phase = .emit ∧ s.cur.py < 8 * s.vmax.toNat ∧ s.cur.px < 8 * s.hmax.toNat ∧
      s.xPos.toNat + s.cur.px < s.width.toNat ∧ s.yPos.toNat + s.cur.py < s.height.toNat ∧ s.turns = [] := by decide

theorem witness_Start : State.reset.state = .idle ∧ framed.state = .segments := by decide

theorem witness_WritesWithoutEffect :
    (0xFFFFFFFC#32 : Word).getLsbD 1 = false ∧ (0xFFFFFFFC#32 : Word).getLsbD 0 = false ∧
    ((0xFC#8 : Byte).toNat % 4 = 0 ∧ (0xFC#8 : Byte) ≠ 0x04#8 ∧ (0xFC#8 : Byte) ≠ 0x30#8 ∧ (0xFC#8 : Byte) ≠ 0x34#8) := by decide

/-- A component with one scan position and, before any scan, components with none: positions 0, 1 and 2 all name 0. -/
theorem witness_RegisterReads :
    (0x4C#8 : Byte).toNat % 4 = 0 ∧ 0x4C ≤ (0x4C#8 : Byte).toNat ∧ 0x4C ≤ (0xFC#8 : Byte).toNat ∧
    ((scanning .loop).sc[(2 : Fin 3)].fi = 2 ∧ ∀ j' : Fin 3, (scanning .loop).sc[j'].fi = 2 → j' = 2) ∧
    ∀ j : Fin 3, State.reset.sc[j].fi ≠ 1 := by decide

theorem witness_OfferedBytesWaitAtThePort : presenting framed = false ∧ presenting (scanning .dc) = false := by decide

theorem witness_ErrorEntryRecordsTheCause :
    ({ framed with state := .error } : State).state = .error ∧ ({ framed with state := .error } : State).turns = [] := by decide

theorem witness_EveryInstructionKeepsItsFrame :
    exec (.irqAck 7#32) framed = .next { framed with irqStatus := framed.irqStatus &&& ~~~((7#32 : Word).extractLsb' 0 3) } ∧
    ∀ hi, Instr.irqAck 7#32 ≠ .start hi ∧ Instr.irqAck 7#32 ≠ .softReset hi ∧ Instr.irqAck 7#32 ≠ .softResetAndStart hi :=
  ⟨rfl, fun hi => ⟨by simp, by simp, by simp⟩⟩

/-- Its clauses about the control state, an error and a status bit: EOI reaches DONE, and a DHT with a bad length raises. -/
theorem witness_EveryInstructionKeepsItsFrame_events :
    let t := after (exec (.eoi 0xFF#8 0xD9#8) framed)
    let u := after (exec (.dht 0#16 none) framed)
    (framed.irqStatus.getLsbD 0 = false ∧ t.irqStatus.getLsbD 0 = true ∧ t.state = .done) ∧
    (u.state = .error ∧ u.errCause = Cause.segmentLength.code ∧ Cause.segmentLength ∈ causesOf (.dht 0#16 none)) := by decide

/-- The one valid slot of P1's registries holds a table that passed its checks. -/
theorem built_slot {i : Fin 16} (h : (State.reset.htDcValid.set 0 true)[i] = true) : Built (State.reset.htDc.set 0 (oneCode 0#8))[i] := by
  have h0 : i = 0 := by revert i; decide
  subst h0
  exact ⟨by decide, by decide, by decide⟩

/-- P1's scan, at its loop test. -/
theorem inv_scanning : Inv (scanning .loop) where
  tables := ⟨fun i h => built_slot h, fun i h => built_slot h, by decide⟩
  frame _ := ⟨rfl, rfl, by decide, by decide, rfl, rfl⟩
  scan _ := ⟨rfl, rfl, by decide, by decide, .inl rfl, trivial⟩
  ended h := by rcases h with h | h <;> cases h
  error := ⟨rfl, rfl, rfl⟩
  pred := by decide
  cursor := (by decide : (0 : Nat) ≤ 64)
  align h := absurd rfl h
  warn := by decide
  rem := by decide
  raster := by decide

theorem witness_StepKeeps : Inv (scanning .loop) ∧ CountOk (scanning .loop) ∧ PixelsOk (scanning .loop) ∧
    step (scanning .loop) = .next (enterBlock 0 0 0 (scanning .loop)) := by
  refine ⟨inv_scanning, (by decide : (scanning .loop).pixelsOut = BitVec.ofNat 32 (emitted (scanning .loop))), ?_, rfl⟩
  rintro X Y ⟨-, -, h | ⟨-, h | ⟨h, -⟩⟩⟩
  · exact absurd h (Nat.not_lt_zero _)
  · exact absurd h (Nat.not_lt_zero _)
  · cases h

/-- A step in SCAN that changes no table, one that resets the block, and a bus write that is no command. -/
theorem witness_TablesAreReadOnly :
    step (scanning .loop) = .next (enterBlock 0 0 0 (scanning .loop)) ∧
    step { scanning .loop with turns := [.hwReset] } = .next (blockReset (scanning .loop)) ∧
    ((0x00000004#32 : Word).getLsbD 0 = false ∧ (0x00000004#32 : Word).getLsbD 1 = false) := ⟨rfl, rfl, by decide⟩

/-- `pos` stays, grows by one, and returns to 0. -/
theorem witness_PosCountsTakenBytes :
    step framed = .next framed ∧
    (∃ t, step { framed with offered := [(0xFF#8, false)] } = .next t ∧ t.pos = 135#32) ∧
    (∃ t, step { framed with turns := [.hwReset] } = .next t ∧ t.pos = 0#32) ∧
    (∃ t, step { framed with state := .done, turns := [.host (.bus ⟨true, 0x04#8, .w32, 1#32⟩)] } = .next t ∧ t.pos = 0#32) ∧
    (∃ t, step { framed with turns := [.host (.bus ⟨true, 0x04#8, .w32, 3#32⟩)] } = .next t ∧ t.pos = 0#32) :=
  ⟨rfl, ⟨_, rfl, rfl⟩, ⟨_, rfl, rfl⟩, ⟨_, rfl, rfl⟩, ⟨_, rfl, rfl⟩⟩

theorem witness_EngineWaitsOnlyForTheHost :
    State.reset.turns = [] ∧ (needsByte framed ∧ framed.lastSeen = false ∧ framed.offered = []) ∧ presenting (scanning .emit) = true :=
  ⟨rfl, ⟨segments_needsByte, rfl, rfl⟩, by decide⟩

theorem witness_EndedDecodesStayEnded :
    step { framed with state := .error } = .next { framed with state := .error } ∧
    step { framed with state := .done, turns := [.host (.bus ⟨true, 0x04#8, .w32, 1#32⟩)] }
      = .next (applyStart { framed with state := .done }) := ⟨rfl, rfl⟩

/-- The WARN bit set by a DQT record of id 16, and the same bit acknowledged. -/
theorem witness_InterruptStatusIsSticky :
    (∃ t, step { framed with rem := 65, fetched := 16#8 :: List.replicate 64 1#8 } = .next t ∧ framed.irqStatus.getLsbD 2 = false ∧
      t.irqStatus.getLsbD 2 = true) ∧
    (∃ t, step { framed with irqStatus := 4#3, turns := [.host (.bus ⟨true, 0x34#8, .w32, 4#32⟩)] } = .next t ∧
      t.irqStatus.getLsbD 2 = false) := ⟨⟨_, rfl, rfl, rfl⟩, ⟨_, rfl, rfl⟩⟩

/-- Two of the transitions: SOI is accepted, and the MCU loop ends. -/
theorem witness_Transitions :
    (∃ t, step { State.reset with state := .expectSoi, fetched := [0xFF#8, 0xD8#8] } = .next t ∧ t.state = .segments) ∧
    (∃ t, step { scanning .loop with yPos := 8#17 } = .next t ∧ t.state = .expectEoi) := ⟨⟨_, rfl, rfl⟩, ⟨_, rfl, rfl⟩⟩

end Sys2Proof.Tests
end

section
/-! The statements about the state: the values after reset, where `pos` moves, and the count of the emitted pixels. -/

namespace Sys2Proof.Machine

/-! ## After reset (R70, R481) -/

/-- Settles O41: each conjunct is one field of `State.reset`. -/
theorem resetStateIsTheResetColumn : Obligations.ResetStateIsTheResetColumn := by
  unfold Obligations.ResetStateIsTheResetColumn
  and_intros <;> rfl

/-- No registry slot is valid after reset, so every table the invariant asks about is there. -/
theorem tablesOk_reset : TablesOk State.reset where
  dc i h := by simp [State.reset] at h
  ac i h := by simp [State.reset] at h
  qt i h := by simp [State.reset] at h

/-- Neither a frame, a scan nor an error is there after reset, so those parts of the invariant ask nothing. -/
theorem inv_reset : Inv State.reset where
  tables := tablesOk_reset
  frame := nofun
  scan := nofun
  ended := nofun
  error := ⟨rfl, rfl, rfl⟩
  pred := by decide
  cursor := Nat.zero_le _
  align _ _ := rfl
  warn := by decide
  rem := rfl
  raster := rfl

/-- Settles O51: in IDLE the count is 0 and no pixel is due yet. -/
theorem invariantHoldsAtReset : Obligations.InvariantHoldsAtReset :=
  ⟨inv_reset, rfl, trivial⟩

/-! ## What an instruction the engine reads leaves of the counters -/

/-- The instructions of class H and the two port handshakes: what the host does, and the engine never reads. -/
def isHostInstr : Instr → Bool
  | .start _ | .softReset _ | .softResetAndStart _ | .ctrlNop _ | .irqEnWrite _ | .irqAck _ | .roWrite _ _
  | .regRead _ | .streamByte _ _ | .pixelAccept => true
  | _ => false

theorem segmentInstr_not_host {i : Instr} (h : SegmentInstr i) : isHostInstr i = false := by
  cases h <;> rfl

theorem decodeStream_not_host {c : StreamCtx} {l : List Byte} {i : Instr} (h : decodeStream c l = .instr i) :
    isHostInstr i = false := by
  cases c with
  | soi => obtain ⟨a, b, rfl⟩ := decodeStream_soi l i h; rfl
  | segments fv rem => exact segmentInstr_not_host (decodeStream_segments fv rem l i h).1
  | eoi => obtain ⟨a, b, rfl⟩ := decodeStream_eoi l i h; rfl
  | ecs => rcases decodeStream_ecs l i h with ⟨b, rfl⟩ | rfl | ⟨n, rfl⟩ | ⟨cc, rfl⟩ <;> rfl

theorem elementBits_not_host {s : State} {i : Instr} (h : elementBits s = some (.instr i)) : isHostInstr i = false := by
  cases (elementBits_instr s i h).2 <;> rfl

/-- What an instruction the engine reads leaves: `pos` and `pixels_out` stay, and the scan is entered only at its start
(R324). -/
structure ReadFrame (s t : State) : Prop where
  pos       : t.pos = s.pos
  pixelsOut : t.pixelsOut = s.pixelsOut
  scan      : t.state = .scan → s.state = .scan ∨ (t.xPos = 0#17 ∧ t.yPos = 0#17 ∧ t.cur = Cursor.init)

theorem ReadFrame.raised {s u : State} (c : Cause) (hp : u.pos = s.pos) (hx : u.pixelsOut = s.pixelsOut) :
    ReadFrame s (raise c u) := ⟨hp, hx, nofun⟩

theorem ReadFrame.kept {s t : State} (hp : t.pos = s.pos) (hx : t.pixelsOut = s.pixelsOut) (hs : t.state = s.state) :
    ReadFrame s t := ⟨hp, hx, fun h => .inl (hs ▸ h)⟩

theorem readFrame_check {c : Option Cause} {s u t : State} {k : State → Result} (hp : u.pos = s.pos)
    (hx : u.pixelsOut = s.pixelsOut) (e : check c u k = .next t) (hk : k u = .next t → ReadFrame s t) :
    ReadFrame s t := by
  rcases check_cases e with ⟨c, -, rfl⟩ | ⟨-, e⟩
  · exact .raised c hp hx
  · exact hk e

theorem readFrame_dcAccept {d : Int} {s t : State} (e : dcAccept d s = .next t) : ReadFrame s t := by
  rcases dcAccept_cases d s with ⟨-, h⟩ | ⟨-, h⟩ <;> cases h.symm.trans e
  · exact .raised _ rfl rfl
  · exact .kept rfl rfl rfl

theorem readFrame_skipRun {r : BitVec 4} {s t : State} {f : State → State} (hf : ∀ u, ReadFrame u (f u))
    (e : skipRun r s f = .next t) : ReadFrame s t := by
  rcases skipRun_cases r s f with ⟨-, h⟩ | ⟨-, h⟩ <;> cases h.symm.trans e
  · exact .raised _ rfl rfl
  · obtain ⟨hp, hx, hs⟩ := hf { s with k := s.k + r.toNat }
    exact ⟨hp, hx, hs⟩

theorem readFrame_sos {L : Half} {body : Option SosBody} {s t : State} (e : execSos L body s = .next t) :
    ReadFrame s t := by
  unfold execSos at e
  split at e
  · cases e; exact .raised _ rfl rfl
  split at e
  · cases e; exact .raised _ rfl rfl
  rename_i tl _
  obtain ⟨sc, hsc⟩ := scanResolve_eq tl.comps s
  refine readFrame_check rfl rfl e fun e => ?_
  rw [hsc] at e
  refine readFrame_check (by rfl) (by rfl) e fun e => ?_
  cases e
  exact ⟨rfl, rfl, fun _ => .inr ⟨rfl, rfl, rfl⟩⟩

/-- Every instruction's meaning but the host's: a raise, an update of other fields, or SOS's entry to the scan. -/
theorem exec_readFrame {i : Instr} {s t : State} (hi : isHostInstr i = false) (e : exec i s = .next t) :
    ReadFrame s t := by
  cases i
  case soi => simp only [exec, execSoi] at e; split at e <;> cases e <;> exact ⟨rfl, rfl, nofun⟩
  case eoi => simp only [exec, execEoi] at e; split at e <;> cases e <;> exact ⟨rfl, rfl, nofun⟩
  case dqt part =>
    cases part with
    | header L =>
      simp only [exec, execDqt] at e
      refine readFrame_check rfl rfl e fun e => ?_
      cases e; exact .kept rfl rfl rfl
    | record tq q => simp only [exec, execDqt] at e; split at e <;> cases e <;> exact .kept rfl rfl rfl
  case dht L body =>
    cases body with
    | none => cases e; exact .raised _ rfl rfl
    | some b =>
      simp only [exec, execDht] at e
      refine readFrame_check rfl rfl e fun e => ?_
      cases e; unfold storeHt; split <;> exact .kept rfl rfl rfl
  case sof0 L body =>
    cases body with
    | none => cases e; exact .raised _ rfl rfl
    | some b =>
      simp only [exec, execSof0] at e
      split at e
      · cases e; exact .raised _ rfl rfl
      · refine readFrame_check rfl rfl e fun e => readFrame_check rfl rfl e fun e => ?_
        cases e; exact .kept rfl rfl rfl
  case sof2 =>
    simp only [exec, execSof2] at e
    refine readFrame_check rfl rfl e fun e => ?_
    cases e; exact .raised _ rfl rfl
  case sos => exact readFrame_sos e
  case app0 | com | other => refine readFrame_check rfl rfl e fun e => ?_; cases e; exact .kept rfl rfl rfl
  case dcZero | dcDiff => exact readFrame_dcAccept e
  case zrl =>
    rcases execZrl_cases s with ⟨-, h⟩ | ⟨-, h⟩ <;> cases h.symm.trans e
    · exact .raised _ rfl rfl
    · exact .kept rfl rfl rfl
  case zsr => exact readFrame_skipRun (f := placeCoef 0) (fun _ => .kept rfl rfl rfl) e
  case coef r n a =>
    cases a with
    | nil =>
      exact readFrame_skipRun (f := fun u => { u with cur := { u.cur with phase := .value r n } })
        (fun _ => .kept rfl rfl rfl) e
    | cons b a => cases e; exact .kept rfl rfl rfl
  case soiInSegments | eoiInSegments | rstn | sof0Second | sosBeforeSof0 | markerPrefixErr | ecsRst | ecsMarker
    | dcTooWide => cases e; exact .raised _ rfl rfl
  case data | stuff | eob => cases e; exact .kept rfl rfl rfl
  all_goals cases hi

/-- No meaning but STREAM_BYTE's touches the offered bytes. -/
theorem exec_offered {i : Instr} {s t : State} (hi : ∀ b l, i ≠ .streamByte b l) (e : exec i s = .next t) :
    t.offered = s.offered := by
  obtain ⟨u, hu, hw⟩ := exec_ignoresOffered i hi s s.offered
  cases hu.symm.trans e
  have ht : t = withOffered s.offered t := next_inj (hu.symm.trans hw).symm
  calc t.offered = (withOffered s.offered t).offered := congrArg State.offered ht
    _ = s.offered := rfl

/-! ## What an engine action leaves of `pos` and the offered bytes -/

/-- R372 after a block: another block is entered, or the MCU is emitted. -/
theorem nextBlock_cases (s : State) :
    (∃ j row col, nextBlock s = enterBlock j row col s) ∨ nextBlock s = enterEmit s := by
  unfold nextBlock
  split
  · exact .inl ⟨_, _, _, rfl⟩
  split
  · exact .inl ⟨_, _, _, rfl⟩
  split
  · exact .inl ⟨_, _, _, rfl⟩
  · exact .inr rfl

/-- R380, R381: the block's end raises, or its samples are stored and R372 goes on. -/
theorem finishBlock_cases (s : State) :
    finishBlock s = raise .coefRange s ∨
    ∃ f, finishBlock s = nextBlock (storeSamples (curComp s) (curBlock s) (inverseDct f) { s with coef := f }) := by
  unfold finishBlock
  split
  · exact .inl rfl
  · exact .inr ⟨_, rfl⟩

theorem finishBlock_pos_offered (s : State) : (finishBlock s).pos = s.pos ∧ (finishBlock s).offered = s.offered := by
  rcases finishBlock_cases s with e | ⟨f, e⟩ <;> rw [e]
  · exact ⟨rfl, rfl⟩
  · rcases nextBlock_cases (storeSamples (curComp s) (curBlock s) (inverseDct f) { s with coef := f }) with
      ⟨j, row, col, e⟩ | e <;> rw [e] <;> exact ⟨rfl, rfl⟩

@[simp] theorem nextPixel_pos (s : State) : (nextPixel s).pos = s.pos := by unfold nextPixel; split <;> rfl
@[simp] theorem nextPixel_offered (s : State) : (nextPixel s).offered = s.offered := by unfold nextPixel; split <;> rfl
@[simp] theorem nextPixel_state (s : State) : (nextPixel s).state = s.state := by unfold nextPixel; split <;> rfl
@[simp] theorem nextPixel_pixelsOut (s : State) : (nextPixel s).pixelsOut = s.pixelsOut := by
  unfold nextPixel; split <;> rfl

theorem exec_pos_offered {i : Instr} {s t : State} (hi : isHostInstr i = false) (e : exec i s = .next t) :
    t.pos = s.pos ∧ t.offered = s.offered :=
  ⟨(exec_readFrame hi e).pos, exec_offered (by rintro b l rfl; cases hi) e⟩

/-- R201: one byte is taken, and its flag recorded, or `pos` and the offered bytes stay. -/
theorem readByte_pos {s t : State} (e : readByte s = .next t) :
    (t.pos = s.pos ∧ t.offered = s.offered) ∨
    (∃ x, s.offered = x :: t.offered ∧ t.pos = s.pos + 1#32 ∧ t.lastSeen = x.2 ∧ s.lastSeen = false) := by
  rcases readByte_cases s with ⟨-, h⟩ | ⟨-, -, h⟩ | ⟨b, last, rest, hl, ho, h⟩ <;> cases h.symm.trans e
  · exact .inl ⟨rfl, rfl⟩
  · exact .inl ⟨rfl, rfl⟩
  · exact .inr ⟨(b, last), ho, rfl, rfl, hl⟩

/-- R32, R101: only a ReadByte moves `pos` or the offered bytes. -/
theorem engine_pos {s t : State} (e : EngineAction s (.next t)) :
    (t.pos = s.pos ∧ t.offered = s.offered) ∨
    (∃ x, s.offered = x :: t.offered ∧ t.pos = s.pos + 1#32 ∧ t.lastSeen = x.2 ∧ s.lastSeen = false) := by
  generalize hr : (Host.Outcome.next t : Result) = r at e
  cases e with
  | read _ => exact readByte_pos hr.symm
  | stream c i _ hd =>
    obtain ⟨hp, ho⟩ := exec_pos_offered (decodeStream_not_host hd) hr.symm
    exact .inl ⟨hp, ho⟩
  | element i hb =>
    obtain ⟨hp, ho⟩ := exec_pos_offered (elementBits_not_host hb) hr.symm
    exact .inl ⟨hp, ho⟩
  | loop _ _ => cases hr; unfold loopTest; split <;> exact .inl ⟨rfl, rfl⟩
  | finish _ _ => cases hr; exact .inl (finishBlock_pos_offered s)
  | mcu _ _ _ => cases hr; unfold nextMcu; split <;> exact .inl ⟨rfl, rfl⟩
  | skip _ _ _ _ => cases hr; exact .inl ⟨nextPixel_pos s, nextPixel_offered s⟩
  | idle _ | bit _ _ | noSymbol _ | acDone _ _ _ | hold _ => cases hr; exact .inl ⟨rfl, rfl⟩

/-! ## `pos` over every step -/

theorem not_busy_cases {e : EngineState} (h : ¬ e.busy = true) : e = .idle ∨ e = .done ∨ e = .error := by
  revert h; cases e <;> decide

/-- R420: START is ignored while the block is busy, and else it is R70's START column. -/
theorem execStart_cases (hi : BitVec 30) (s : State) :
    (s.state.busy = true ∧ execStart hi s = .next s) ∨
    ((s.state = .idle ∨ s.state = .done ∨ s.state = .error) ∧ execStart hi s = .next (applyStart s)) := by
  unfold execStart
  split
  · exact .inl ⟨‹_›, rfl⟩
  · exact .inr ⟨not_busy_cases ‹_›, rfl⟩

/-- R429: the presented pixel is delivered, and without one nothing happens (log entry 12). -/
theorem execPixelAccept_cases (s : State) :
    (presenting s = true ∧ execPixelAccept s = .next (deliverPixel s)) ∨ execPixelAccept s = .next s := by
  unfold execPixelAccept
  split
  · exact .inl ⟨‹_›, rfl⟩
  · exact .inr rfl

/-- What a host action can do to `pos`: nothing, or set it to 0 by one of the CTRL commands (R420 to R422). -/
theorem host_pos {a : HostAction} {i : Instr} {s t : State} (ha : HostCase a i) (e : exec i s = .next t) :
    (t.pos = s.pos ∧ (t.offered = s.offered ∨ ∃ x, t.offered = s.offered ++ [x])) ∨
    (t.pos = 0#32 ∧ t.offered = s.offered ∧
      ((∃ d, a = busWrite 0x04#8 d ∧ d.getLsbD 1 = false ∧ d.getLsbD 0 = true ∧
          (s.state = .idle ∨ s.state = .done ∨ s.state = .error) ∧ t.state = .expectSoi) ∨
        (∃ d, a = busWrite 0x04#8 d ∧ d.getLsbD 1 = true ∧ t.state = .idle))) := by
  cases ha with
  | start d hi ha h1 h0 =>
    rcases execStart_cases hi s with ⟨-, h⟩ | ⟨hs, h⟩ <;> cases h.symm.trans e
    · exact .inl ⟨rfl, .inl rfl⟩
    · exact .inr ⟨rfl, rfl, .inl ⟨d, ha, h1, h0, hs, rfl⟩⟩
  | softReset d hi ha h1 _ => cases e; exact .inr ⟨rfl, rfl, .inr ⟨d, ha, h1, rfl⟩⟩
  | softResetAndStart d hi ha h1 _ => cases e; exact .inr ⟨rfl, rfl, .inr ⟨d, ha, h1, rfl⟩⟩
  | streamByte b last _ => cases e; exact .inl ⟨rfl, .inr ⟨(b, last), rfl⟩⟩
  | pixelAccept _ =>
    rcases execPixelAccept_cases s with ⟨-, h⟩ | h <;> cases h.symm.trans e
    · exact .inl ⟨nextPixel_pos _, .inl (nextPixel_offered _)⟩
    · exact .inl ⟨rfl, .inl rfl⟩
  | ctrlNop _ _ _ _ _ | irqEnWrite _ _ | irqAck _ _ | roWrite _ _ _ _ | regRead _ _ _ =>
    cases e; exact .inl ⟨rfl, .inl rfl⟩

/-- Settles O56: an engine action takes at most one byte, and only a reset or a CTRL command sets `pos` to 0. -/
theorem posCountsTakenBytes : Obligations.PosCountsTakenBytes := by
  intro s t e
  have hc := step_case s
  rw [e] at hc
  generalize hr : (Host.Outcome.next t : Result) = r at hc
  cases hc with
  | engine _ _ ha => subst hr; exact (engine_pos ha).imp (.imp_right .inl) .inl
  | engineTurn rest _ _ ha => subst hr; exact (engine_pos ha).imp (.imp_right .inl) .inl
  | hwReset rest ht => cases hr; exact .inr (.inr ⟨rfl, rfl, .inr (.inr ⟨rest, ht, rfl⟩)⟩)
  | host a rest i ht ha =>
    obtain h | ⟨hp, ho, ⟨d, rfl, h⟩ | ⟨d, rfl, h⟩⟩ := host_pos ha hr.symm
    · exact .inl h
    · exact .inr (.inr ⟨hp, ho, .inl ⟨d, rest, ht, h⟩⟩)
    · exact .inr (.inr ⟨hp, ho, .inr (.inl ⟨d, rest, ht, h⟩)⟩)
  | refused _ => cases hr

/-! ## Counting the positions of one MCU (R386) -/

/-- In-frame positions passed of an MCU with `rows` rows and `cols` columns inside the frame, when the loops stand at
offset `(px, py)`. -/
def passedInMcu (rows cols px py : Nat) : Nat := min py rows * cols + (if py < rows then min px cols else 0)

@[simp] theorem passedInMcu_start (rows cols : Nat) : passedInMcu rows cols 0 0 = 0 := by
  simp [passedInMcu]

theorem passedInMcu_end {rows cols px py : Nat} (h : rows ≤ py) : passedInMcu rows cols px py = rows * cols := by
  simp [passedInMcu, Nat.min_eq_right h, Nat.not_lt.2 h]

/-- The next column passes one more position if the present one is inside the frame. -/
theorem passedInMcu_nextCol (rows cols px py : Nat) :
    passedInMcu rows cols (px + 1) py = passedInMcu rows cols px py + (if px < cols ∧ py < rows then 1 else 0) := by
  unfold passedInMcu
  split_ifs <;> omega

/-- So does the next row, from the row's last column or past it. -/
theorem passedInMcu_nextRow {rows cols px : Nat} (py : Nat) (h : cols ≤ px + 1) :
    passedInMcu rows cols 0 (py + 1) = passedInMcu rows cols px py + (if px < cols ∧ py < rows then 1 else 0) := by
  by_cases hr : py < rows
  · have hl : passedInMcu rows cols px py = py * cols + min px cols := by
      simp [passedInMcu, hr, Nat.min_eq_left hr.le]
    have hn : passedInMcu rows cols 0 (py + 1) = py * cols + cols := by
      simp [passedInMcu, Nat.min_eq_left (Nat.succ_le_of_lt hr), Nat.add_mul]
    rw [hl, hn]
    split_ifs <;> omega
  · rw [passedInMcu_end (by omega), passedInMcu_end (by omega)]
    simp [hr]

/-! ## Counting the positions of the frame (R371) -/

/-- Rows of the present MCU that are inside the frame, below `y_pos`. -/
def mcuRows (s : State) : Nat := min (s.yPos.toNat + 8 * s.vmax.toNat) s.height.toNat - min s.yPos.toNat s.height.toNat

/-- Columns of it that are inside the frame. -/
def mcuCols (s : State) : Nat := min (s.xPos.toNat + 8 * s.hmax.toNat) s.width.toNat - min s.xPos.toNat s.width.toNat

/-- In-frame positions of the MCUs before the present one. -/
def passedBefore (s : State) : Nat :=
  min s.yPos.toNat s.height.toNat * s.width.toNat + min s.xPos.toNat s.width.toNat * mcuRows s

theorem emitted_of_emit {s : State} (h : s.cur.phase = .emit) :
    emitted s = passedBefore s + passedInMcu (mcuRows s) (mcuCols s) s.cur.px s.cur.py := by
  simp only [emitted, h, if_true]
  rfl

theorem emitted_of_not_emit {s : State} (h : s.cur.phase ≠ .emit) : emitted s = passedBefore s := by
  simp only [emitted, h, if_false]
  rfl

theorem emitted_enterEmit (s : State) : emitted (enterEmit s) = passedBefore s := by
  rw [emitted_of_emit rfl]
  simp [passedBefore, mcuRows]

/-- At the top left corner nothing has been passed. -/
theorem emitted_start {s : State} (hx : s.xPos = 0#17) (hy : s.yPos = 0#17) (hc : s.cur = Cursor.init) :
    emitted s = 0 := by
  rw [emitted_of_not_emit (by rw [hc]; nofun)]
  simp [passedBefore, hx, hy]

/-- Below the frame every position has been. -/
theorem passedBefore_end {s : State} (h : s.height.toNat ≤ s.yPos.toNat) :
    passedBefore s = s.width.toNat * s.height.toNat := by
  have hr : mcuRows s = 0 := by unfold mcuRows; omega
  rw [passedBefore, hr, Nat.min_eq_right h, Nat.mul_zero, Nat.add_zero, Nat.mul_comm]

/-- R386: one more position of the frame is passed if the loops stand inside the frame. -/
theorem emitted_nextPixel {s : State} (h : s.cur.phase = .emit) :
    emitted (nextPixel s) = emitted s + (if s.cur.px < mcuCols s ∧ s.cur.py < mcuRows s then 1 else 0) := by
  rw [emitted_of_emit h, Nat.add_assoc]
  unfold nextPixel
  split
  · rw [← passedInMcu_nextCol]
    exact emitted_of_emit h
  · have hc : mcuCols s ≤ s.cur.px + 1 := by unfold mcuCols; omega
    rw [← passedInMcu_nextRow _ hc]
    exact emitted_of_emit h

theorem emitted_deliverPixel {s : State} (h : s.cur.phase = .emit) :
    emitted (deliverPixel s) = emitted s + (if s.cur.px < mcuCols s ∧ s.cur.py < mcuRows s then 1 else 0) := by
  unfold deliverPixel
  exact emitted_nextPixel h

/-- R39's 17-bit positions do not wrap while they are inside the frame. -/
theorem toNat_advance {p : BitVec 17} {d : Half} (f : BitVec 4) (h : p.toNat < d.toNat) :
    (p + BitVec.ofNat 17 (8 * f.toNat)).toNat = p.toNat + 8 * f.toNat := by
  have hd := d.isLt
  have hf := f.isLt
  rw [BitVec.toNat_add, BitVec.toNat_ofNat]
  omega

/-- R371: advancing adds the whole MCU's positions to those of the MCUs before, at the end of a row too. -/
theorem passedBefore_nextMcu {s : State} (hy : s.yPos.toNat < s.height.toNat) :
    passedBefore (nextMcu s) = passedBefore s + mcuRows s * mcuCols s := by
  unfold nextMcu
  split
  · rename_i hw
    have hcols : min s.xPos.toNat s.width.toNat + mcuCols s = s.width.toNat := by unfold mcuCols; omega
    have hrows : min (s.yPos.toNat + 8 * s.vmax.toNat) s.height.toNat = min s.yPos.toNat s.height.toNat + mcuRows s := by
      unfold mcuRows; omega
    calc _ = min (s.yPos.toNat + 8 * s.vmax.toNat) s.height.toNat * s.width.toNat := by
            simp [passedBefore, -BitVec.toNat_add, toNat_advance s.vmax hy]
      _ = min s.yPos.toNat s.height.toNat * s.width.toNat
            + (min s.xPos.toNat s.width.toNat + mcuCols s) * mcuRows s := by rw [hcols, hrows]; ring
      _ = passedBefore s + mcuRows s * mcuCols s := by unfold passedBefore; ring
  · rename_i hw
    have hx : (s.xPos + BitVec.ofNat 17 (8 * s.hmax.toNat)).toNat = s.xPos.toNat + 8 * s.hmax.toNat :=
      toNat_advance (d := s.width) s.hmax (by omega)
    have hcols : min (s.xPos.toNat + 8 * s.hmax.toNat) s.width.toNat = min s.xPos.toNat s.width.toNat + mcuCols s := by
      unfold mcuCols; omega
    calc _ = min s.yPos.toNat s.height.toNat * s.width.toNat
            + min (s.xPos.toNat + 8 * s.hmax.toNat) s.width.toNat * mcuRows s := by rw [← hx]; rfl
      _ = passedBefore s + mcuRows s * mcuCols s := by rw [hcols, passedBefore]; ring

@[simp] theorem nextMcu_state (s : State) : (nextMcu s).state = s.state := by unfold nextMcu; split <;> rfl
@[simp] theorem nextMcu_pixelsOut (s : State) : (nextMcu s).pixelsOut = s.pixelsOut := by unfold nextMcu; split <;> rfl
@[simp] theorem nextMcu_phase (s : State) : (nextMcu s).cur.phase = .loop := by unfold nextMcu; split <;> rfl

/-- The MCU's loops end with all its positions passed, and R371 counts them with the MCUs before. -/
theorem emitted_nextMcu {s : State} (h : s.cur.phase = .emit) (hy : s.yPos.toNat < s.height.toNat)
    (hp : 8 * s.vmax.toNat ≤ s.cur.py) : emitted (nextMcu s) = emitted s := by
  have hrow : mcuRows s ≤ s.cur.py := by unfold mcuRows; omega
  rw [emitted_of_emit h, passedInMcu_end hrow, ← passedBefore_nextMcu hy]
  exact emitted_of_not_emit (by rw [nextMcu_phase]; nofun)

/-! ## The count over each action -/

theorem countOk_scan {s : State} (h : s.state = .scan) : CountOk s ↔ s.pixelsOut = BitVec.ofNat 32 (emitted s) := by
  simp [CountOk, h]

/-- In the scan the count follows `emitted`. -/
theorem CountOk.of_emitted {s t : State} (h : CountOk s) (hs : s.state = .scan) (ht : t.state = .scan)
    (hx : t.pixelsOut = s.pixelsOut) (he : emitted t = emitted s) : CountOk t := by
  rw [countOk_scan ht, hx, he]
  exact (countOk_scan hs).1 h

/-- Outside R386's loops only the MCU's place counts. -/
theorem CountOk.of_passedBefore {s t : State} (h : CountOk s) (hs : s.state = .scan) (hp : s.cur.phase ≠ .emit)
    (ht : t.state = .scan) (hq : t.cur.phase ≠ .emit) (hx : t.pixelsOut = s.pixelsOut)
    (hb : passedBefore t = passedBefore s) : CountOk t :=
  h.of_emitted hs ht hx (by rw [emitted_of_not_emit hp, emitted_of_not_emit hq, hb])

theorem countOk_readByte {s t : State} (h : CountOk s) (e : readByte s = .next t) : CountOk t := by
  rcases readByte_cases s with ⟨-, hr⟩ | ⟨-, -, hr⟩ | ⟨b, last, rest, -, -, hr⟩ <;> cases hr.symm.trans e
  · trivial
  · exact h
  · exact h

/-- Among the segments the count is 0, and SOS enters the scan where nothing has been passed. -/
theorem countOk_segments {s t : State} {i : Instr} (h : CountOk s) (hs : s.state = .segments) (hi : SegmentInstr i)
    (e : exec i { s with fetched := [] } = .next t) : CountOk t := by
  have h0 : s.pixelsOut = 0#32 := by simpa [CountOk, hs] using h
  obtain ⟨-, hx, hscan⟩ := exec_readFrame (segmentInstr_not_host hi) e
  replace hx : t.pixelsOut = 0#32 := hx.trans h0
  cases outcome_segments i hs (by rfl) (by rfl) (by rfl) hi e with
  | same ht _ => simpa [CountOk, ht, hs] using hx
  | error c u _ _ _ ht => rw [ht]; trivial
  | scan _ ht _ =>
    obtain hn | ⟨hX, hY, hc⟩ := hscan ht
    · cases hs.symm.trans hn
    · rw [countOk_scan ht, emitted_start hX hY hc, hx]
  | warned id u _ hu _ _ ht => subst ht; simpa [CountOk, hu, hs] using hx
  | segments hn _ _ | endScan hn _ _ | done hn _ _ => cases hs.symm.trans hn

theorem countOk_stream {s t : State} {c : StreamCtx} {i : Instr} (h : CountOk s) (hc : ReadsFrom s c)
    (hd : decodeStream c s.fetched = .instr i) (e : exec i { s with fetched := [] } = .next t) : CountOk t := by
  cases hc with
  | soi hs =>
    obtain ⟨a, b, rfl⟩ := decodeStream_soi _ _ hd
    simp only [exec, execSoi] at e
    split at e <;> cases e
    · trivial
    · simpa [CountOk, hs] using h
  | segments hs => exact countOk_segments h hs (decodeStream_segments _ _ _ _ hd).1 e
  | eoi hs =>
    obtain ⟨a, b, rfl⟩ := decodeStream_eoi _ _ hd
    simp only [exec, execEoi] at e
    split at e <;> cases e
    · trivial
    · simpa [CountOk, hs] using h
  | ecs _ _ =>
    rcases decodeStream_ecs _ _ hd with ⟨b, rfl⟩ | rfl | ⟨n, rfl⟩ | ⟨cc, rfl⟩ <;> cases e
    · exact h
    · exact h
    · trivial
    · trivial

theorem bitsInstr_phase {s : State} {i : Instr} (h : BitsInstr s i) : s.cur.phase ≠ .emit := by
  cases h <;> simp [*]

/-- An element raises, or stays outside R386's loops at the same MCU. -/
theorem countOk_element {s t : State} {i : Instr} (h : CountOk s) (hb : elementBits s = some (.instr i))
    (e : exec i { s with bits := [] } = .next t) : CountOk t := by
  obtain ⟨hs, hi⟩ := elementBits_instr s i hb
  have hp := bitsInstr_phase hi
  have dc : ∀ d, dcAccept d { s with bits := [] } = .next t → CountOk t := by
    intro d e
    rcases dcAccept_cases d { s with bits := [] } with ⟨-, hr⟩ | ⟨-, hr⟩ <;> cases hr.symm.trans e
    · trivial
    · exact h.of_passedBefore hs hp hs nofun rfl rfl
  cases hi with
  | dcZero _ => exact dc _ e
  | dcDiff _ _ _ => exact dc _ e
  | dcTooWide _ _ => cases e; trivial
  | eob _ _ => cases e; exact h.of_passedBefore hs hp hs nofun rfl rfl
  | zrl _ _ =>
    rcases execZrl_cases { s with bits := [] } with ⟨-, hr⟩ | ⟨-, hr⟩ <;> cases hr.symm.trans e
    · trivial
    · exact h
  | zsr r _ _ =>
    rcases skipRun_cases r { s with bits := [] } (placeCoef 0) with ⟨-, hr⟩ | ⟨-, hr⟩ <;> cases hr.symm.trans e
    · trivial
    · exact h
  | run r n _ _ _ =>
    rcases skipRun_cases r { s with bits := [] } (fun u => { u with cur := { u.cur with phase := .value r n } }) with
      ⟨-, hr⟩ | ⟨-, hr⟩ <;> cases hr.symm.trans e
    · trivial
    · exact h.of_passedBefore hs hp hs nofun rfl rfl
  | value _ _ _ _ _ => cases e; exact h.of_passedBefore hs hp hs nofun rfl rfl

/-- R371, R387: the scan ends below the frame. -/
theorem countOk_loopTest {s : State} (h : CountOk s) (hs : s.state = .scan) (hp : s.cur.phase = .loop) :
    CountOk (loopTest s) := by
  have hp : s.cur.phase ≠ .emit := by rw [hp]; nofun
  unfold loopTest
  split
  · exact h.of_passedBefore hs hp hs nofun rfl rfl
  · rename_i hy
    have hx := (countOk_scan hs).1 h
    rw [emitted_of_not_emit hp, passedBefore_end (Nat.not_lt.1 hy)] at hx
    exact hx

theorem countOk_finishBlock {s : State} (h : CountOk s) (hs : s.state = .scan) (hp : s.cur.phase = .finish) :
    CountOk (finishBlock s) := by
  have hp : s.cur.phase ≠ .emit := by rw [hp]; nofun
  rcases finishBlock_cases s with e | ⟨f, e⟩ <;> rw [e]
  · trivial
  generalize hu : storeSamples (curComp s) (curBlock s) (inverseDct f) { s with coef := f } = u
  have hb : passedBefore u = passedBefore s := by subst hu; rfl
  rcases nextBlock_cases u with ⟨j, row, col, e⟩ | e <;> rw [e] <;> subst hu
  · exact h.of_passedBefore hs hp hs nofun rfl rfl
  · exact h.of_emitted hs hs rfl (by rw [emitted_enterEmit, hb, emitted_of_not_emit hp])

/-- R386: the loops of an MCU inside the frame present a pixel exactly at the positions inside the frame. -/
theorem presenting_iff {s : State} (hi : Inv s) (hs : s.state = .scan) (hp : s.cur.phase = .emit)
    (hpy : s.cur.py < 8 * s.vmax.toNat) :
    presenting s = true ↔ s.cur.px < mcuCols s ∧ s.cur.py < mcuRows s := by
  have hc := (hi.scan hs).cursor
  have hx := (hi.scan hs).column
  simp only [CursorOk, hp] at hc
  simp only [presenting, hs, hp, Bool.and_eq_true, decide_eq_true_eq, beq_self_eq_true, true_and]
  unfold pixelX pixelY mcuCols mcuRows
  omega

theorem countOk_skip {s : State} (hi : Inv s) (h : CountOk s) (hs : s.state = .scan) (hp : s.cur.phase = .emit)
    (hpy : s.cur.py < 8 * s.vmax.toNat) (hn : presenting s = false) : CountOk (nextPixel s) := by
  have hout : ¬ (s.cur.px < mcuCols s ∧ s.cur.py < mcuRows s) := by
    rw [← presenting_iff hi hs hp hpy, hn]; nofun
  refine h.of_emitted hs ((nextPixel_state s).trans hs) (nextPixel_pixelsOut s) ?_
  rw [emitted_nextPixel hp, if_neg hout, Nat.add_zero]

theorem countOk_deliverPixel {s : State} (hi : Inv s) (h : CountOk s) (hpr : presenting s = true) :
    CountOk (deliverPixel s) := by
  obtain ⟨hs, hp, hpy, -⟩ := presenting_cases hpr
  have hin := (presenting_iff hi hs hp hpy).1 hpr
  have hst : (deliverPixel s).state = .scan := (nextPixel_state _).trans hs
  have hx : (deliverPixel s).pixelsOut = s.pixelsOut + 1#32 := nextPixel_pixelsOut _
  rw [countOk_scan hst, hx, emitted_deliverPixel hp, if_pos hin, (countOk_scan hs).1 h, BitVec.ofNat_add]

theorem countOk_nextMcu {s : State} (hi : Inv s) (h : CountOk s) (hs : s.state = .scan) (hp : s.cur.phase = .emit)
    (hpy : 8 * s.vmax.toNat ≤ s.cur.py) : CountOk (nextMcu s) := by
  have hc := (hi.scan hs).cursor
  simp only [CursorOk, hp] at hc
  exact h.of_emitted hs ((nextMcu_state s).trans hs) (nextMcu_pixelsOut s) (emitted_nextMcu hp hc.1 hpy)

theorem engine_keeps_count {s t : State} (hi : Inv s) (h : CountOk s) (e : EngineAction s (.next t)) : CountOk t := by
  generalize hr : (Host.Outcome.next t : Result) = r at e
  cases e with
  | idle _ => cases hr; exact h
  | read _ => exact countOk_readByte h hr.symm
  | stream c i hc hd => exact countOk_stream h hc hd hr.symm
  | bit _ _ => cases hr; exact h
  | element i hb => exact countOk_element h hb hr.symm
  | noSymbol _ => cases hr; trivial
  | loop hs hp => cases hr; exact countOk_loopTest h hs hp
  | acDone hs hp _ => cases hr; exact h.of_passedBefore hs (by rw [hp]; nofun) hs nofun rfl rfl
  | finish hs hp => cases hr; exact countOk_finishBlock h hs hp
  | mcu hs hp hpy => cases hr; exact countOk_nextMcu hi h hs hp hpy
  | hold _ => cases hr; exact h
  | skip hs hp hpy hn => cases hr; exact countOk_skip hi h hs hp hpy hn

/-- The host moves the count by accepting a pixel, and clears it with the block. -/
theorem host_keeps_count {a : HostAction} {i : Instr} {s t : State} (hi : Inv s) (h : CountOk s) (ha : HostCase a i)
    (e : exec i s = .next t) : CountOk t := by
  cases ha with
  | start d hi _ _ _ =>
    rcases execStart_cases hi s with ⟨-, hr⟩ | ⟨-, hr⟩ <;> cases hr.symm.trans e
    · exact h
    · rfl
  | softReset _ _ _ _ _ | softResetAndStart _ _ _ _ _ => cases e; rfl
  | pixelAccept _ =>
    rcases execPixelAccept_cases s with ⟨hpr, hr⟩ | hr <;> cases hr.symm.trans e
    · exact countOk_deliverPixel hi h hpr
    · exact h
  | ctrlNop _ _ _ _ _ | irqEnWrite _ _ | irqAck _ _ | roWrite _ _ _ _ | regRead _ _ _ | streamByte _ _ _ =>
    cases e; exact h

/-- The turns are no part of the invariant. -/
theorem Inv.with_turns {s : State} (h : Inv s) (l : List Turn) : Inv { s with turns := l } where
  tables := ⟨h.tables.dc, h.tables.ac, h.tables.qt⟩
  frame hf :=
    have f := h.frame hf
    ⟨f.precision, f.nf, f.sampling, f.ids, f.hmax, f.vmax⟩
  scan hs :=
    have c := h.scan hs
    ⟨c.frame, c.scan, c.distinct, c.tables, c.column, c.cursor⟩
  ended := h.ended
  error := h.error
  pred := h.pred
  cursor := h.cursor
  align := h.align
  warn := h.warn
  rem := h.rem
  raster := h.raster

/-- Settles O53: the count follows `emitted` through every engine action, and the host moves it by delivering a pixel. -/
theorem stepKeepsThePixelCount : Obligations.StepKeepsThePixelCount := by
  intro s t hi h e
  have hc := step_case s
  rw [e] at hc
  generalize hr : (Host.Outcome.next t : Result) = r at hc
  cases hc with
  | engine _ _ ha => subst hr; exact engine_keeps_count hi h ha
  | engineTurn rest _ _ ha => subst hr; exact engine_keeps_count (hi.with_turns rest) h ha
  | hwReset rest _ => cases hr; rfl
  | host a rest i _ ha => exact host_keeps_count (hi.with_turns rest) h ha hr.symm
  | refused _ => cases hr

end Sys2Proof.Machine
end

section
/-! The statements about the input port and the register window: no lookahead, and which accesses have a meaning. -/

namespace Sys2Proof.Machine

/-! ## No lookahead (R101) -/

/-- At `s` the action does the same whatever bytes are offered, and leaves them. -/
def IgnoresOfferedAt (f : State → Result) (s : State) : Prop :=
  ∃ t, ∀ o, f (withOffered o s) = .next (withOffered o t)

theorem IgnoresOffered.ignoresOfferedAt {f : State → Result} (h : IgnoresOffered f) (s : State) :
    IgnoresOfferedAt f s := by
  obtain ⟨t, ht, -⟩ := h s []
  refine ⟨t, fun o => ?_⟩
  obtain ⟨u, hu, ho⟩ := h s o
  rw [ho, next_inj (ht.symm.trans hu)]

/-- An action is a state update, and the update commutes with offering other bytes. -/
theorem IgnoresOfferedAt.of_next {f : State → Result} {g : State → State} {s : State}
    (hf : ∀ o, f (withOffered o s) = .next (g (withOffered o s)))
    (hg : ∀ o, g (withOffered o s) = withOffered o (g s)) : IgnoresOfferedAt f s :=
  ⟨g s, fun o => (hf o).trans (congrArg _ (hg o))⟩

theorem loopTest_withOffered (o : List (Byte × Bool)) (s : State) :
    loopTest (withOffered o s) = withOffered o (loopTest s) := by
  unfold loopTest
  rw [apply_ite (withOffered o)]
  rfl

theorem nextPixel_withOffered (o : List (Byte × Bool)) (s : State) :
    nextPixel (withOffered o s) = withOffered o (nextPixel s) := by
  unfold nextPixel
  rw [apply_ite (withOffered o)]
  rfl

theorem nextMcu_withOffered (o : List (Byte × Bool)) (s : State) :
    nextMcu (withOffered o s) = withOffered o (nextMcu s) := by
  unfold nextMcu
  rw [apply_ite (withOffered o)]
  rfl

theorem nextBlock_withOffered (o : List (Byte × Bool)) (s : State) :
    nextBlock (withOffered o s) = withOffered o (nextBlock s) := by
  unfold nextBlock
  rw [apply_ite (withOffered o), apply_ite (withOffered o), apply_dite (withOffered o)]
  rfl

/-- R380: a product out of range. -/
theorem finishBlock_none {s : State}
    (h : multiplyBlock Config.coefWidth (s.qt[qtSlot (s.comp[curComp s]).tq]) s.coef = none) :
    finishBlock s = raise .coefRange s := by
  rw [finishBlock, h]

/-- R380, R381: the block's samples are stored. -/
theorem finishBlock_some {s : State} {f : Block Int}
    (h : multiplyBlock Config.coefWidth (s.qt[qtSlot (s.comp[curComp s]).tq]) s.coef = some f) :
    finishBlock s = nextBlock (storeSamples (curComp s) (curBlock s) (inverseDct f) { s with coef := f }) := by
  rw [finishBlock, h]

theorem finishBlock_withOffered (o : List (Byte × Bool)) (s : State) :
    finishBlock (withOffered o s) = withOffered o (finishBlock s) := by
  cases h : multiplyBlock Config.coefWidth (s.qt[qtSlot (s.comp[curComp s]).tq]) s.coef with
  | none => rw [finishBlock_none h, finishBlock_none (s := withOffered o s) h]; rfl
  | some f =>
    rw [finishBlock_some h, finishBlock_some (s := withOffered o s) h]
    exact nextBlock_withOffered o (storeSamples (curComp s) (curBlock s) (inverseDct f) { s with coef := f })

/-- Where the engine reads does not depend on the offered bytes. -/
theorem ReadsFrom.withOffered {s : State} {c : StreamCtx} (h : ReadsFrom s c) (o : List (Byte × Bool)) :
    ReadsFrom (withOffered o s) c := by
  cases h with
  | soi h => exact .soi h
  | segments h => exact .segments h
  | eoi h => exact .eoi h
  | ecs hn h0 => exact .ecs hn h0

/-- R201: where a byte is due, the engine's action is a ReadByte. -/
theorem engineStep_of_needsByte {s : State} (h : needsByte s) : engineStep s = readByte s := by
  obtain ⟨c, hc, hd⟩ := h
  rw [streamStep_of_reads s c hc, streamStep, hd, runBytes]

/-- Where no byte is due, an instruction of the stream runs. -/
theorem streamStep_ignoresOffered {s : State} {c : StreamCtx} (hn : ¬ needsByte s) (hc : ReadsFrom s c) :
    IgnoresOfferedAt (streamStep c) s := by
  cases hd : decodeStream c s.fetched with
  | more => exact absurd ⟨c, hc, hd⟩ hn
  | instr i =>
    obtain ⟨t, h⟩ := (exec_ignoresOffered i (by rintro b l rfl; cases decodeStream_not_host hd)).ignoresOfferedAt
      { s with fetched := [] }
    refine ⟨t, fun o => ?_⟩
    show runBytes (decodeStream c s.fetched) (withOffered o s) = _
    rw [hd]
    exact h o

/-- Where no byte is due, what the scan's bits stand for runs or raises, or the bit buffer gives another bit. -/
theorem runBits_ignoresOffered {s : State} {r : ElementResult} (hn : ¬ needsByte s) (hr : elementBits s = some r) :
    IgnoresOfferedAt (runBits r) s := by
  cases r with
  | more =>
    show IgnoresOfferedAt bitStep s
    by_cases h0 : s.bitcnt.val = 0
    · obtain ⟨t, h⟩ := streamStep_ignoresOffered hn (.ecs hr h0)
      exact ⟨t, fun o => (if_pos h0).trans (h o)⟩
    · exact ⟨takeBit s, fun o => if_neg h0⟩
  | instr i =>
    obtain ⟨t, h⟩ := (exec_ignoresOffered i (by rintro b l rfl; cases elementBits_not_host hr)).ignoresOfferedAt
      { s with bits := [] }
    exact ⟨t, h⟩
  | notFound => exact ⟨raise .huffNotFound s, fun _ => rfl⟩

/-! ### The engine's step by its place, an equation for each -/

section
variable {s : State}

/-- R333. -/
theorem engineStep_ended (h : s.state = .idle ∨ s.state = .done ∨ s.state = .error) : engineStep s = .next s := by
  rcases h with h | h | h <;> simp [engineStep, h]

theorem engineStep_loop (hs : s.state = .scan) (hp : s.cur.phase = .loop) : engineStep s = .next (loopTest s) := by
  simp [engineStep, scanStep, hs, hp]

theorem engineStep_acDone (hs : s.state = .scan) (hp : s.cur.phase = .ac) (hk : 63 < s.k) :
    engineStep s = .next { s with cur := { s.cur with phase := .finish } } := by
  simp [engineStep, scanStep, hs, hp, hk]

theorem engineStep_finish (hs : s.state = .scan) (hp : s.cur.phase = .finish) :
    engineStep s = .next (finishBlock s) := by
  simp [engineStep, scanStep, hs, hp]

theorem engineStep_mcu (hs : s.state = .scan) (hp : s.cur.phase = .emit) (hy : 8 * s.vmax.toNat ≤ s.cur.py) :
    engineStep s = .next (nextMcu s) := by
  simp [engineStep, scanStep, hs, hp, hy]

/-- R386, R429: the engine holds while it presents a pixel. -/
theorem engineStep_hold (h : presenting s = true) : engineStep s = .next s := by
  obtain ⟨hs, hp, hy, -⟩ := presenting_cases h
  simp [engineStep, scanStep, hs, hp, hy, h]

theorem engineStep_skip (hs : s.state = .scan) (hp : s.cur.phase = .emit) (hy : s.cur.py < 8 * s.vmax.toNat)
    (h : presenting s = false) : engineStep s = .next (nextPixel s) := by
  simp [engineStep, scanStep, hs, hp, hy, h]

end

/-- R101: where no byte is due, the engine's action does not depend on the offered bytes and leaves them. -/
theorem engineStep_ignoresOffered {s : State} (hn : ¬ needsByte s) : IgnoresOfferedAt engineStep s := by
  have hbits {r} (h : elementBits s = some r) : IgnoresOfferedAt engineStep s := by
    obtain ⟨t, ht⟩ := runBits_ignoresOffered hn h
    exact ⟨t, fun o => (runBits_of_bits (withOffered o s) r h).trans (ht o)⟩
  have ha := engineStep_action s
  generalize engineStep s = r at ha
  cases ha with
  | idle h => exact ⟨s, fun o => engineStep_ended (s := withOffered o s) h⟩
  | read h => exact absurd h hn
  | stream c i hc _ =>
    obtain ⟨t, ht⟩ := streamStep_ignoresOffered hn hc
    exact ⟨t, fun o => (streamStep_of_reads _ c (hc.withOffered o)).trans (ht o)⟩
  | bit hb _ => exact hbits hb
  | element i hb => exact hbits hb
  | noSymbol hb => exact hbits hb
  | loop hs hp => exact .of_next (fun _ => engineStep_loop hs hp) fun o => loopTest_withOffered o s
  | acDone hs hp hk => exact ⟨{ s with cur := { s.cur with phase := .finish } },
      fun o => engineStep_acDone (s := withOffered o s) hs hp hk⟩
  | finish hs hp => exact .of_next (fun _ => engineStep_finish hs hp) fun o => finishBlock_withOffered o s
  | mcu hs hp hy => exact .of_next (fun _ => engineStep_mcu hs hp hy) fun o => nextMcu_withOffered o s
  | hold h => exact ⟨s, fun o => engineStep_hold (s := withOffered o s) h⟩
  | skip hs hp hy h => exact .of_next (fun _ => engineStep_skip hs hp hy h) fun o => nextPixel_withOffered o s

/-- R32: an engine action that ignores the offered bytes leaves `pos`. -/
theorem engineStep_pos_of_ignoresOffered {s t : State}
    (h : ∀ o, engineStep (withOffered o s) = .next (withOffered o t)) : t.pos = s.pos := by
  have ha := engineStep_action (withOffered [] s)
  rw [h] at ha
  obtain ⟨hp, -⟩ | ⟨x, ho, -⟩ := engine_pos ha
  · exact hp
  · cases ho

/-- Where a byte is due does not depend on the offered bytes. -/
theorem needsByte.withOffered {s : State} (h : needsByte s) (o : List (Byte × Bool)) : needsByte (withOffered o s) := by
  obtain ⟨c, hc, hd⟩ := h
  exact ⟨c, hc.withOffered o, hd⟩

/-- Settles O13: a ReadByte raises or takes the first offered byte (R201), and every other action ignores them all. -/
theorem engineNeverLooksAhead : Obligations.EngineNeverLooksAhead := by
  intro s x r₁ r₂ hturns
  have hstep (o) : step { s with offered := o } = engineStep (withOffered o s) := step_engine _ hturns
  simp only [hstep]
  by_cases hn : needsByte s
  · have hread (o) : engineStep (withOffered o s) = readByte (withOffered o s) :=
      engineStep_of_needsByte (hn.withOffered o)
    simp only [hread]
    cases hl : s.lastSeen with
    | true =>
      refine ⟨raise .truncated s, false, ?_, ?_, rfl, by simp⟩ <;> exact if_pos hl
    | false =>
      refine ⟨{ s with pos := s.pos + 1#32, lastSeen := x.2, fetched := s.fetched ++ [x.1] }, true, ?_, ?_, rfl,
        by simp [hn]⟩ <;> exact if_neg (by simp [withOffered, hl])
  · obtain ⟨t, ht⟩ := engineStep_ignoresOffered hn
    exact ⟨t, false, ht _, ht _, engineStep_pos_of_ignoresOffered ht, by simp [hn]⟩

/-! ## Accesses to the register window (R102) -/

/-- An aligned 32-bit access is a register write or read. -/
theorem decodeHost_word {a : Access} (hw : a.width = .w32) (ho : a.off.toNat % 4 = 0) :
    decodeHost (.bus a) = .ok (if a.write then decodeWrite a.off a.data else .regRead a.off) := by
  cases h : a.write <;> simp [decodeHost, hw, ho, h]

/-- Settles O10: the decoder refuses every other access, and an instruction's meaning always answers a next state. -/
theorem onlyWordAccessesHaveMeaning : Obligations.OnlyWordAccessesHaveMeaning := by
  intro s a rest hturns
  rw [step_turn s _ rest hturns]
  refine ⟨fun hw => ?_, fun hw ho => ?_, fun hw ho => ?_⟩
  · simp [turnStep, decodeHost, hw, refusalOf]
  · simp [turnStep, decodeHost, hw, ho, refusalOf]
  · rw [turnStep, decodeHost_word hw ho]
    exact exec_next _ _

end Sys2Proof.Machine
end

section
/-! The frame of an instruction: the storage it may write, and what it does to the control state, the recorded error and the interrupt status. -/

namespace Sys2Proof.Machine

/-! ## The causes an instruction's checks can find (R441) -/

theorem lengthCause_eq {L : Half} {e : Cause} (h : lengthCause L = some e) : e = .segmentLength := by
  unfold lengthCause at h
  split at h <;> cases h
  rfl

theorem dqtCause_mem {L : Half} {e : Cause} (h : dqtCause L = some e) : e ∈ [Cause.segmentLength] := by
  unfold dqtCause at h
  repeat' split at h
  all_goals cases h
  all_goals decide

theorem dhtCause_mem {L : Half} {c : Vector Byte 16} {e : Cause} (h : dhtCause L c = some e) :
    e ∈ [Cause.segmentLength, .huffKraft, .huffCapacity] := by
  unfold dhtCause at h
  repeat' split at h
  all_goals cases h
  all_goals decide

theorem sof0Cause_mem {L : Half} {n : Byte} {e : Cause} (h : sof0Cause L n = some e) :
    e ∈ [Cause.segmentLength, .channelCount, .precision, .frameParam, .componentRef, .mcuCapacity] := by
  unfold sof0Cause at h
  repeat' split at h
  all_goals cases h
  all_goals decide

theorem frameCause_mem {p : Byte} {cs : Vector FrameSpec 3} {e : Cause} (h : frameCause p cs = some e) :
    e ∈ [Cause.segmentLength, .channelCount, .precision, .frameParam, .componentRef, .mcuCapacity] := by
  unfold frameCause at h
  repeat' split at h
  all_goals cases h
  all_goals decide

theorem sosCause_mem {L : Half} {n : Byte} {e : Cause} (h : sosCause L n = some e) :
    e ∈ [Cause.segmentLength, .channelCount, .componentRef, .tableUndefined] := by
  unfold sosCause at h
  repeat' split at h
  all_goals cases h
  all_goals decide

theorem resolveComps_cause {cs : Vector ScanSpec 3} {js used : List (Fin 3)} {s : State} {e : Cause}
    (h : (resolveComps cs js used s).2 = some e) : e = .componentRef := by
  induction js generalizing used s with
  | nil => cases h
  | cons j js ih =>
    rcases resolveComps_cons cs j js used s with ⟨hr, -⟩ | ⟨fi, -, -, hr⟩ <;> rw [hr] at h
    · cases h; rfl
    · exact ih h

theorem scanResolve_mem {cs : Vector ScanSpec 3} {s : State} {e : Cause} (h : (scanResolve cs s).2 = some e) :
    e ∈ [Cause.segmentLength, .channelCount, .componentRef, .tableUndefined] := by
  unfold scanResolve at h
  split at h
  · rename_i hr
    cases h
    rw [resolveComps_cause (congrArg Prod.snd hr)]
    decide
  · split at h <;> cases h
    decide

theorem acCause_mem {k : Nat} {e : Cause} (h : acCause k = some e) : e ∈ [Cause.acOverflow] := by
  unfold acCause at h
  split at h <;> cases h
  decide

theorem getD_mem {o : Option Cause} {d : Cause} {l : List Cause} (h : ∀ e, o = some e → e ∈ l) (hd : d ∈ l) :
    o.getD d ∈ l := by
  cases o with
  | none => exact hd
  | some e => exact h e rfl

/-! ## The storage an instruction may write (R103, R30, R111) -/

/-- What `i` leaves of the storage, kind by kind, unless it is one of the instructions that write that kind.  By default an
update writes none of it. -/
structure StorageFrame (i : Instr) (s t : State) : Prop where
  taken : t.pos = s.pos ∧ t.lastSeen = s.lastSeen ∧ t.turns = s.turns ∧ t.fetched = s.fetched ∧ t.bits = s.bits ∧
    t.samples = s.samples := by exact ⟨rfl, rfl, rfl, rfl, rfl, rfl⟩
  quant : (∀ tq qzz, i ≠ .dqt (.record tq qzz)) → t.qt = s.qt ∧ t.qtValid = s.qtValid ∧ t.warn = s.warn ∧
    t.warnLastId = s.warnLastId ∧ t.warnCount = s.warnCount := by exact fun _ => ⟨rfl, rfl, rfl, rfl, rfl⟩
  rem : (∀ p, i ≠ .dqt p) → t.rem = s.rem := by exact fun _ => rfl
  huff : (∀ L b, i ≠ .dht L b) → t.htDc = s.htDc ∧ t.htDcValid = s.htDcValid ∧ t.htAc = s.htAc ∧
    t.htAcValid = s.htAcValid := by exact fun _ => ⟨rfl, rfl, rfl, rfl⟩
  frame : (∀ L b, i ≠ .sof0 L b) → t.frameValid = s.frameValid ∧ t.precision = s.precision ∧ t.height = s.height ∧
    t.width = s.width ∧ t.nf = s.nf ∧ t.comp = s.comp ∧ t.hmax = s.hmax ∧ t.vmax = s.vmax := by
      exact fun _ => ⟨rfl, rfl, rfl, rfl, rfl, rfl, rfl, rfl⟩
  scan : (∀ L b, i ≠ .sos L b) → t.scanValid = s.scanValid ∧ t.sc = s.sc ∧ t.inScan = s.inScan ∧ t.xPos = s.xPos ∧
    t.yPos = s.yPos := by exact fun _ => ⟨rfl, rfl, rfl, rfl, rfl⟩
  pred : (∀ L b, i ≠ .sos L b) → (∀ n a, i ≠ .dcDiff n a) → i ≠ .dcZero → t.pred = s.pred := by
    exact fun _ _ _ => rfl
  buffer : (∀ L b, i ≠ .sos L b) → (∀ b, i ≠ .data b) → i ≠ .stuff → t.bitcnt = s.bitcnt ∧ t.bitbuf = s.bitbuf := by
    exact fun _ _ _ => ⟨rfl, rfl⟩
  pixels : i ≠ .pixelAccept → t.pixelsOut = s.pixelsOut ∧ t.raster = s.raster ∧ t.freeCtr = s.freeCtr := by
    exact fun _ => ⟨rfl, rfl, rfl⟩
  irqEn : (∀ d, i ≠ .irqEnWrite d) → t.irqEn = s.irqEn := by exact fun _ => rfl
  bus : (∀ off, i ≠ .regRead off) → t.busRead = s.busRead := by exact fun _ => rfl
  port : (∀ b l, i ≠ .streamByte b l) → t.offered = s.offered := by exact fun _ => rfl
  block : i ≠ .dcZero → (∀ n a, i ≠ .dcDiff n a) → i ≠ .zrl → (∀ r, i ≠ .zsr r) → (∀ r n a, i ≠ .coef r n a) →
    t.coef = s.coef ∧ t.k = s.k := by exact fun _ _ _ _ _ => ⟨rfl, rfl⟩
  loops : (∀ L b, i ≠ .sos L b) → i ≠ .dcZero → (∀ n a, i ≠ .dcDiff n a) → i ≠ .eob → (∀ r n a, i ≠ .coef r n a) →
    i ≠ .pixelAccept → t.cur = s.cur := by exact fun _ _ _ _ _ _ => rfl

/-- R442: an error entry writes no storage. -/
theorem StorageFrame.raised {i : Instr} {s u : State} (h : StorageFrame i s u) (c : Cause) :
    StorageFrame i s (raise c u) :=
  ⟨h.taken, h.quant, h.rem, h.huff, h.frame, h.scan, h.pred, h.buffer, h.pixels, h.irqEn, h.bus, h.port, h.block, h.loops⟩

/-! ## The events an instruction can cause (R310, R441, R446, R448) -/

/-- The recorded error stays (R42). -/
def SameError (s t : State) : Prop := t.errKind = s.errKind ∧ t.errCause = s.errCause ∧ t.errPos = s.errPos

/-- What `i` does to the control state, the recorded error and the interrupt status. -/
inductive ExecEvent (i : Instr) (s t : State) : Prop where
  | quiet : t.state = s.state → SameError s t → t.irqStatus = s.irqStatus → ExecEvent i s t
  | raised (c : Cause) (u : State) : c ∈ causesOf i → u.pos = s.pos → u.irqStatus = s.irqStatus → t = raise c u →
      ExecEvent i s t
  | segments (a b : Byte) : i = .soi a b → t.state = .segments → SameError s t → t.irqStatus = s.irqStatus →
      ExecEvent i s t
  | done (a b : Byte) : i = .eoi a b → t = setDone s → ExecEvent i s t
  | scan (L : Half) (b : Option SosBody) : i = .sos L b → t.state = .scan → SameError s t →
      t.irqStatus = s.irqStatus → ExecEvent i s t
  | warned (tq : Byte) (q : Block Byte) (u : State) : i = .dqt (.record tq q) → 16 ≤ tq.toNat → u.state = s.state →
      SameError s u → u.irqStatus = s.irqStatus → t = warnQtId tq u → ExecEvent i s t
  | acked (d : Word) : i = .irqAck d → t.state = s.state → SameError s t →
      t.irqStatus = s.irqStatus &&& ~~~(d.extractLsb' 0 3) → ExecEvent i s t

section
variable {i : Instr} {s t : State}

theorem ExecEvent.state_cases (h : ExecEvent i s t) :
    t.state = s.state ∨ (t.state = .error ∧ causesOf i ≠ []) ∨ (t.state = .segments ∧ ∃ a b, i = .soi a b) ∨
      (t.state = .done ∧ ∃ a b, i = .eoi a b) ∨ (t.state = .scan ∧ ∃ L b, i = .sos L b) := by
  cases h with
  | quiet hs _ _ => exact .inl hs
  | raised c u hc _ _ ht => exact .inr (.inl ⟨ht ▸ rfl, List.ne_nil_of_mem hc⟩)
  | segments a b hi hs _ _ => exact .inr (.inr (.inl ⟨hs, a, b, hi⟩))
  | done a b hi ht => exact .inr (.inr (.inr (.inl ⟨ht ▸ rfl, a, b, hi⟩)))
  | scan L b hi hs _ _ => exact .inr (.inr (.inr (.inr ⟨hs, L, b, hi⟩)))
  | warned tq q u _ _ hs _ _ ht => exact .inl (ht ▸ hs)
  | acked d _ hs _ _ => exact .inl hs

theorem ExecEvent.error_cases (h : ExecEvent i s t) :
    SameError s t ∨
      (t.state = .error ∧ t.errPos = s.pos ∧ ∃ c ∈ causesOf i, t.errKind = c.kind.code ∧ t.errCause = c.code) := by
  cases h with
  | raised c u hc hp _ ht => subst ht; exact .inr ⟨rfl, hp, c, hc, rfl, rfl⟩
  | done a b _ ht => subst ht; exact .inl ⟨rfl, rfl, rfl⟩
  | warned tq q u _ _ _ he _ ht => subst ht; exact .inl he
  | quiet _ he _ | segments _ _ _ _ he _ | scan _ _ _ _ he _ | acked _ _ _ he _ => exact .inl he

theorem irqBit_or {v m : BitVec 3} {n : Nat} (h : v.getLsbD n = true) : (v ||| m).getLsbD n = true := by
  simp [h]

/-- A bit newly set by an `or` with a mask is one of the mask's. -/
theorem maskBit_of_or {v m : BitVec 3} {n : Nat} (h0 : v.getLsbD n = false) (h1 : (v ||| m).getLsbD n = true) :
    m.getLsbD n = true := by
  simpa [h0] using h1

/-- R44: each of the masks of DONE, ERROR and WARN has one bit. -/
theorem irqMask_bit : ∀ n < 3, ((0b001#3).getLsbD n = true → n = 0) ∧ ((0b010#3).getLsbD n = true → n = 1) ∧
    ((0b100#3).getLsbD n = true → n = 2) := by decide

theorem ExecEvent.irq_set (h : ExecEvent i s t) {n : Nat} (hn : n < 3) (h0 : s.irqStatus.getLsbD n = false)
    (h1 : t.irqStatus.getLsbD n = true) :
    (n = 0 ∧ t.state = .done ∧ ∃ a b, i = .eoi a b) ∨ (n = 1 ∧ t.state = .error ∧ causesOf i ≠ []) ∨
      (n = 2 ∧ ∃ tq qzz, i = .dqt (.record tq qzz) ∧ 16 ≤ tq.toNat) := by
  obtain ⟨hdone, herror, hwarn⟩ := irqMask_bit n hn
  cases h with
  | quiet _ _ hq | segments _ _ _ _ _ hq | scan _ _ _ _ _ hq => simp [hq, h0] at h1
  | raised c u hc _ hq ht =>
    subst ht
    exact .inr (.inl ⟨herror (maskBit_of_or (hq ▸ h0) h1), rfl, List.ne_nil_of_mem hc⟩)
  | done a b hi ht =>
    subst ht
    exact .inl ⟨hdone (maskBit_of_or h0 h1), rfl, a, b, hi⟩
  | warned tq q u hi h16 _ _ hq ht =>
    subst ht
    exact .inr (.inr ⟨hwarn (maskBit_of_or (hq ▸ h0) h1), tq, q, hi, h16⟩)
  | acked d _ _ _ hq => simp [hq, h0] at h1

theorem ExecEvent.irq_kept (h : ExecEvent i s t) (hi : ∀ d, i ≠ .irqAck d) {n : Nat}
    (h0 : s.irqStatus.getLsbD n = true) : t.irqStatus.getLsbD n = true := by
  cases h with
  | quiet _ _ hq | segments _ _ _ _ _ hq | scan _ _ _ _ _ hq => rw [hq, h0]
  | raised c u _ _ hq ht => subst ht; exact irqBit_or (hq ▸ h0)
  | done a b _ ht => subst ht; exact irqBit_or h0
  | warned tq q u _ _ _ _ hq ht => subst ht; exact irqBit_or (hq ▸ h0)
  | acked d hd _ _ _ => exact absurd hd (hi d)

end

/-! ## The frame of every instruction but START and the resets -/

/-- What `i` leaves of the storage, with the event it causes. -/
structure ExecFrame (i : Instr) (s t : State) : Prop where
  storage : StorageFrame i s t
  event   : ExecEvent i s t

section
variable {i : Instr} {s u t : State}

theorem ExecFrame.raised {c : Cause} (hc : c ∈ causesOf i) (h : StorageFrame i s u := by exact {})
    (hq : u.irqStatus = s.irqStatus := by rfl) : ExecFrame i s (raise c u) :=
  ⟨h.raised c, .raised c u hc h.taken.1 hq rfl⟩

theorem ExecFrame.quiet (h : StorageFrame i s t := by exact {}) (hs : t.state = s.state := by rfl)
    (he : SameError s t := by exact ⟨rfl, rfl, rfl⟩) (hq : t.irqStatus = s.irqStatus := by rfl) : ExecFrame i s t :=
  ⟨h, .quiet hs he hq⟩

/-- A check raises one of the instruction's causes, or the rest of its meaning decides. -/
theorem frame_check {c : Option Cause} {k : State → Result} (e : check c u k = .next t)
    (hc : ∀ x, c = some x → x ∈ causesOf i) (h : StorageFrame i s u) (hq : u.irqStatus = s.irqStatus)
    (hk : k u = .next t → ExecFrame i s t) : ExecFrame i s t := by
  rcases check_cases e with ⟨x, hx, rfl⟩ | ⟨-, e⟩
  · exact .raised (hc x hx) h hq
  · exact hk e

/-- R373's part of DC_ZERO and DC_DIFF, the two instructions that may write the predictor. -/
theorem frame_dcAccept {d : Int} (hi : i ≠ .dcZero → ¬ ∀ n a, i ≠ .dcDiff n a) (hc : .predRange ∈ causesOf i)
    (e : dcAccept d s = .next t) : ExecFrame i s t := by
  rcases dcAccept_cases d s with ⟨-, h⟩ | ⟨-, h⟩ <;> cases h.symm.trans e
  · exact .raised hc
  · exact .quiet {
      pred := fun _ hd hz => absurd hd (hi hz)
      block := fun hz hd _ _ _ => absurd hd (hi hz)
      loops := fun _ hz hd _ _ _ => absurd hd (hi hz) }

end

section
variable {s t : State}

theorem frame_dqt {p : DqtPart} (e : execDqt p s = .next t) : ExecFrame (.dqt p) s t := by
  cases p with
  | header L =>
    rw [execDqt] at e
    refine frame_check e (fun _ => dqtCause_mem) {} rfl fun e => ?_
    cases e
    exact .quiet { rem := fun h => absurd rfl (h _) }
  | record tq q =>
    simp only [execDqt] at e
    split at e <;> cases e
    · exact .quiet { quant := fun h => absurd rfl (h tq q), rem := fun h => absurd rfl (h _) }
    · exact ⟨{ quant := fun h => absurd rfl (h tq q), rem := fun h => absurd rfl (h _) },
        .warned tq q { s with rem := s.rem - 65 } rfl (by omega) rfl ⟨rfl, rfl, rfl⟩ rfl rfl⟩

theorem frame_dht {L : Half} {body : Option DhtBody} (e : execDht L body s = .next t) :
    ExecFrame (.dht L body) s t := by
  cases body with
  | none => cases e; exact .raised (.head _)
  | some b =>
    rw [execDht] at e
    refine frame_check e (fun _ => dhtCause_mem) {} rfl fun e => ?_
    cases e
    unfold storeHt
    split <;> exact .quiet { huff := fun h => absurd rfl (h L b) }

theorem frame_sof0 {L : Half} {body : Option Sof0Body} (e : execSof0 L body s = .next t) :
    ExecFrame (.sof0 L body) s t := by
  cases body with
  | none => cases e; exact .raised (.head _)
  | some b =>
    simp only [execSof0] at e
    split at e
    · cases e; exact .raised (getD_mem (fun _ => sof0Cause_mem) (.head _))
    · refine frame_check e (fun _ => sof0Cause_mem) {} rfl fun e =>
        frame_check e (fun _ => frameCause_mem) {} rfl fun e => ?_
      cases e
      exact .quiet { frame := fun h => absurd rfl (h L b) }

/-- R322 to R324; a scan that fails to resolve may leave scan positions written (log entry 17). -/
theorem frame_sos {L : Half} {body : Option SosBody} (e : execSos L body s = .next t) :
    ExecFrame (.sos L body) s t := by
  cases body with
  | none => cases e; exact .raised (.head _)
  | some b =>
    simp only [execSos] at e
    split at e
    · cases e; exact .raised (getD_mem (fun _ => sosCause_mem) (.head _))
    · rename_i tl _
      refine frame_check e (fun _ => sosCause_mem) {} rfl fun e => ?_
      obtain ⟨sc, hsc⟩ := scanResolve_eq tl.comps s
      refine frame_check e (fun _ => scanResolve_mem) ?_ (by rw [hsc]) fun e => ?_
      · rw [hsc]
        exact { scan := fun h => absurd rfl (h L b) }
      · rw [hsc] at e
        cases e
        exact ⟨{
          scan := fun h => absurd rfl (h L b)
          pred := fun h => absurd rfl (h L b)
          buffer := fun h => absurd rfl (h L b)
          loops := fun h => absurd rfl (h L b) }, .scan L b rfl rfl ⟨rfl, rfl, rfl⟩ rfl⟩

theorem frame_zrl (e : execZrl s = .next t) : ExecFrame .zrl s t := by
  rcases execZrl_cases s with ⟨-, h⟩ | ⟨-, h⟩ <;> cases h.symm.trans e
  · exact .raised (.head _)
  · exact .quiet { block := fun _ _ h => absurd rfl h }

theorem frame_zsr {r : BitVec 4} (e : execZsr r s = .next t) : ExecFrame (.zsr r) s t := by
  rw [execZsr, skipRun] at e
  refine frame_check e (fun _ => acCause_mem) { block := fun _ _ _ h => absurd rfl (h r) } rfl fun e => ?_
  cases e
  exact .quiet { block := fun _ _ _ h => absurd rfl (h r) }

theorem frame_coef {r n : BitVec 4} {a : List Bool} (e : execCoef r n a s = .next t) :
    ExecFrame (.coef r n a) s t := by
  cases a with
  | nil =>
    rw [execCoef, skipRun] at e
    refine frame_check e (fun _ => acCause_mem) { block := fun _ _ _ _ h => absurd rfl (h r n []) } rfl fun e => ?_
    cases e
    exact .quiet {
      block := fun _ _ _ _ h => absurd rfl (h r n [])
      loops := fun _ _ _ _ h => absurd rfl (h r n []) }
  | cons b a =>
    cases e
    exact .quiet {
      block := fun _ _ _ _ h => absurd rfl (h r n (b :: a))
      loops := fun _ _ _ _ h => absurd rfl (h r n (b :: a)) }

/-- A delivery writes the raster, the pixel count, the free counter and the cursor's position. -/
theorem deliverPixel_eq (s : State) : ∃ px py raster, deliverPixel s = { s with
    raster := raster, pixelsOut := s.pixelsOut + 1#32, freeCtr := s.freeCtr + 3
    cur := { s.cur with px := px, py := py } } := by
  obtain ⟨px, py, h⟩ := nextPixel_eq { s with
    raster := s.raster.writePixel _ _ _ _ _, pixelsOut := s.pixelsOut + 1#32, freeCtr := s.freeCtr + 3 }
  exact ⟨px, py, _, h⟩

theorem frame_pixelAccept (e : execPixelAccept s = .next t) : ExecFrame .pixelAccept s t := by
  rcases execPixelAccept_cases s with ⟨-, h⟩ | h <;> cases h.symm.trans e
  · obtain ⟨px, py, raster, hd⟩ := deliverPixel_eq s
    rw [hd]
    exact .quiet { pixels := fun h => absurd rfl h, loops := fun _ _ _ _ _ h => absurd rfl h }
  · exact .quiet

/-- By instruction: a raise, an update of the storage it may write, or one of the events of its own. -/
theorem exec_frame {i : Instr} (hi : ∀ hi, i ≠ .start hi ∧ i ≠ .softReset hi ∧ i ≠ .softResetAndStart hi)
    (e : exec i s = .next t) : ExecFrame i s t := by
  cases i
  case soi a b =>
    simp only [exec, execSoi] at e
    split at e <;> cases e
    · exact .raised (.head _)
    · exact ⟨{}, .segments a b rfl rfl ⟨rfl, rfl, rfl⟩ rfl⟩
  case eoi a b =>
    simp only [exec, execEoi] at e
    split at e <;> cases e
    · exact .raised (.head _)
    · exact ⟨{}, .done a b rfl rfl⟩
  case dqt => exact frame_dqt e
  case dht => exact frame_dht e
  case sof0 => exact frame_sof0 e
  case sof2 =>
    rw [exec, execSof2] at e
    refine frame_check e (fun _ h => lengthCause_eq h ▸ .head _) {} rfl fun e => ?_
    cases e
    exact .raised (.tail _ (.head _))
  case sos => exact frame_sos e
  case app0 | com | other =>
    refine frame_check e (fun _ h => lengthCause_eq h ▸ .head _) {} rfl fun e => ?_
    cases e
    exact .quiet
  case dcZero => exact frame_dcAccept (fun h => absurd rfl h) (.head _) e
  case dcDiff n a => exact frame_dcAccept (fun _ h => h n a rfl) (.head _) e
  case zrl => exact frame_zrl e
  case zsr => exact frame_zsr e
  case coef => exact frame_coef e
  case pixelAccept => exact frame_pixelAccept e
  case soiInSegments | eoiInSegments | rstn | sof0Second | sosBeforeSof0 | markerPrefixErr | ecsRst | ecsMarker
    | dcTooWide => cases e; exact .raised (.head _)
  case data b => cases e; exact .quiet { buffer := fun _ h => absurd rfl (h b) }
  case stuff => cases e; exact .quiet { buffer := fun _ _ h => absurd rfl h }
  case eob => cases e; exact .quiet { loops := fun _ _ _ h => absurd rfl h }
  case irqEnWrite d => cases e; exact .quiet { irqEn := fun h => absurd rfl (h d) }
  case irqAck d => cases e; exact ⟨{}, .acked d rfl rfl ⟨rfl, rfl, rfl⟩ rfl⟩
  case regRead off => cases e; exact .quiet { bus := fun h => absurd rfl (h off) }
  case streamByte b l => cases e; exact .quiet { port := fun h => absurd rfl (h b l) }
  case ctrlNop | roWrite => cases e; exact .quiet
  case start x => exact absurd rfl (hi x).1
  case softReset x => exact absurd rfl (hi x).2.1
  case softResetAndStart x => exact absurd rfl (hi x).2.2

end

/-- Settles O50: the storage clauses are `StorageFrame`'s, and the last ones follow from the events. -/
theorem everyInstructionKeepsItsFrame : Obligations.EveryInstructionKeepsItsFrame := by
  intro i s t e hi
  obtain ⟨f, ev⟩ := exec_frame hi e
  obtain ⟨hpos, hlast, hturns, hfetched, hbits, hsamples⟩ := f.taken
  refine ⟨hpos, hlast, hturns, hfetched, hbits, f.quant, f.rem, f.huff, f.frame, fun h => ?_, f.buffer, fun h => ?_,
    f.irqEn, f.bus, f.port, f.block, ev.state_cases, f.loops, fun h => (f.pixels h).2.2, ev.error_cases,
    fun n => ev.irq_set, fun h n _ => ev.irq_kept h, hsamples⟩
  · obtain ⟨h1, h2, h3, h4, h5⟩ := f.scan h
    exact ⟨h1, h2, h3, h4, h5, f.pred h⟩
  · obtain ⟨hout, hraster, -⟩ := f.pixels h
    exact ⟨hout, fun a => by rw [hraster]⟩

end Sys2Proof.Machine
end

section
/-! The statements about the encoding, from the instruction to its words: its words decode to it wherever it stands, and no shorter run of a stream instruction's bytes is enough. -/

namespace Sys2Proof.Machine

/-! ## Packed fields (R142, R145, R151, R156) -/

@[simp] theorem hiNibble_append (r s : BitVec 4) : hiNibble (r ++ s) = r := BitVec.extractLsb'_append_eq_left

@[simp] theorem loNibble_append (r s : BitVec 4) : loNibble (r ++ s) = s := BitVec.extractLsb'_append_eq_right

@[simp] theorem hiNibble_append_loNibble (b : Byte) : hiNibble b ++ loNibble b = b :=
  (BitVec.extractLsb'_append_extractLsb'_eq_extractLsb' rfl).trans BitVec.extractLsb'_eq_self

@[simp] theorem hiByte_u16 (hi lo : Byte) : hiByte (u16 hi lo) = hi := BitVec.extractLsb'_append_eq_left

@[simp] theorem loByte_u16 (hi lo : Byte) : loByte (u16 hi lo) = lo := BitVec.extractLsb'_append_eq_right

@[simp] theorem u16_hiByte_loByte (v : Half) : u16 (hiByte v) (loByte v) = v :=
  (BitVec.extractLsb'_append_extractLsb'_eq_extractLsb' rfl).trans BitVec.extractLsb'_eq_self

@[simp] theorem rstIndex_append (n : BitVec 3) : (0b11010#5 ++ n).extractLsb' 0 3 = n :=
  BitVec.extractLsb'_append_eq_right

@[simp] theorem isRst_append (n : BitVec 3) : isRst (0b11010#5 ++ n) = true := by
  revert n; decide

theorem append_rstIndex {cc : Byte} (h : isRst cc = true) : 0b11010#5 ++ cc.extractLsb' 0 3 = cc := by
  revert cc; decide

/-! ## Bytes read whole (R158) -/

/-- The decoder `d` reads `i` from `l`, and asks for another byte at every shorter run of `l`. -/
structure ReadsWhole (d : List Byte → Decoded) (i : Instr) (l : List Byte) : Prop where
  instr : d l = .instr i
  more  : ∀ p, p <+: l → p ≠ l → d p = .more

theorem ReadsWhole.nil {d : List Byte → Decoded} {i : Instr} (h : d [] = .instr i) : ReadsWhole d i [] :=
  ⟨h, fun _ hp hne => absurd (List.prefix_nil.1 hp) hne⟩

/-- Bytes `a` that every shorter run of asks for more, then the rest. -/
theorem ReadsWhole.append {d : List Byte → Decoded} {i : Instr} {a l : List Byte}
    (ha : ∀ p : List Byte, p.length < a.length → d p = .more) (h : ReadsWhole (fun q => d (a ++ q)) i l) :
    ReadsWhole d i (a ++ l) where
  instr := h.instr
  more p hp hne := by
    rcases Nat.lt_or_ge p.length a.length with hlt | hge
    · exact ha p hlt
    · obtain ⟨q, rfl⟩ := List.prefix_of_prefix_length_le (List.prefix_append a l) hp hge
      exact h.more q ((List.prefix_append_right_inj a).1 hp) fun e => hne (by rw [e])

theorem ReadsWhole.cons {d : List Byte → Decoded} {i : Instr} {b : Byte} {l : List Byte} (hb : d [] = .more)
    (h : ReadsWhole (fun q => d (b :: q)) i l) : ReadsWhole d i (b :: l) :=
  .append (a := [b]) (fun p hp => by rwa [List.length_eq_zero_iff.1 (Nat.lt_one_iff.1 hp)]) h

/-! ## Counted bytes and header checks -/

/-- A decoder that takes `n` bytes and reads `f` of them. -/
def readCounted (n : Nat) (f : List Byte → Instr) (q : List Byte) : Decoded :=
  if q.length < n then .more else .instr (f q)

/-- A decoder that takes `n` bytes and reads `f` of them, unless a check on the header failed: then it reads `i` and
takes none (R318, R319, R322). -/
def readChecked (c : Option Cause) (i : Instr) (n : Nat) (f : List Byte → Instr) (q : List Byte) : Decoded :=
  if c.isSome then .instr i else readCounted n f q

theorem readCounted_instr {n : Nat} {f : List Byte → Instr} {q : List Byte} {i : Instr}
    (h : readCounted n f q = .instr i) : n ≤ q.length ∧ i = f q := by
  unfold readCounted at h
  split at h
  · cases h
  · cases h; exact ⟨Nat.le_of_not_lt ‹_›, rfl⟩

theorem readsWhole_readCounted {n : Nat} {f : List Byte → Instr} {q : List Byte} {i : Instr} (hn : q.length = n)
    (hf : f q = i) : ReadsWhole (readCounted n f) i q where
  instr := hf ▸ if_neg (by omega)
  more p hp hne := if_pos (by by_contra hc; exact hne (hp.eq_of_length_le (by omega)))

/-- As the decoders write it: `k` header bytes have been taken before. -/
theorem readChecked_after (k : Nat) {c : Option Cause} {i : Instr} {n : Nat} {f : List Byte → Instr} {q : List Byte} :
    readChecked c i n f q =
      if c.isSome then .instr i else if k + q.length < k + n then .more else .instr (f q) := by
  simp only [readChecked, readCounted, Nat.add_lt_add_iff_left]

theorem readChecked_instr {c : Option Cause} {i₀ i : Instr} {n : Nat} {f : List Byte → Instr} {q : List Byte}
    (h : readChecked c i₀ n f q = .instr i) : (c.isSome ∧ i = i₀) ∨ (c = none ∧ n ≤ q.length ∧ i = f q) := by
  cases c with
  | some c => cases h; exact .inl ⟨rfl, rfl⟩
  | none => exact .inr ⟨rfl, readCounted_instr h⟩

theorem readsWhole_readChecked_some {c : Option Cause} {i : Instr} {n : Nat} {f : List Byte → Instr} (h : c.isSome) :
    ReadsWhole (fun q => readChecked c i n f q) i [] := .nil (if_pos h)

theorem readsWhole_readChecked_none {c : Option Cause} {i₀ i : Instr} {n : Nat} {f : List Byte → Instr} {q : List Byte}
    (h : c = none) (hn : q.length = n) (hf : f q = i) : ReadsWhole (fun q => readChecked c i₀ n f q) i q := by
  subst h; exact readsWhole_readCounted hn hf

/-! ## DHT (R144, R318) -/

/-- At least `n` entries: a vector of `n` and the rest. -/
theorem exists_vector_append {α : Type} (n : Nat) (l : List α) (h : n ≤ l.length) :
    ∃ (v : Vector α n) (q : List α), l = v.toList ++ q :=
  ⟨⟨(l.take n).toArray, by simpa using h⟩, l.drop n, by simp⟩

theorem exists_dhtHeader {p : List Byte} (h : 17 ≤ p.length) :
    ∃ (ref : Byte) (counts : Vector Byte 16) (q : List Byte), p = ref :: counts.toList ++ q := by
  cases p with
  | nil => cases h
  | cons ref p =>
    obtain ⟨counts, q, rfl⟩ := exists_vector_append 16 p (Nat.le_of_succ_le_succ h)
    exact ⟨ref, counts, q, rfl⟩

/-- R144's counts stand after the `ref` byte. -/
theorem countsOf_header (ref : Byte) (counts : Vector Byte 16) (q : List Byte) :
    countsOf (ref :: counts.toList ++ q) = counts := by
  apply Vector.ext
  intro i hi
  simp [countsOf, List.getElem?_append_left]

/-- The 17 header bytes have been taken. -/
theorem decodeDht_header {L : Half} (hL : 2 ≤ L.toNat) (ref : Byte) (counts : Vector Byte 16) (q : List Byte) :
    decodeDht L (ref :: counts.toList ++ q) =
      readChecked (dhtCause L counts) (.dht L (some ⟨ref, ⟨counts, []⟩⟩)) (totalOf counts)
        (fun q => .dht L (some ⟨ref, ⟨counts, q.take (totalOf counts)⟩⟩)) q := by
  have hlen : (ref :: counts.toList ++ q).length = 17 + q.length := by simp; omega
  have hdrop : (ref :: counts.toList ++ q).drop 17 = q := by simp
  unfold decodeDht
  rw [countsOf_header, hlen, hdrop, if_neg (by omega), if_neg (by omega), readChecked_after 17]
  rfl

/-- Fewer than the 17 header bytes. -/
theorem decodeDht_more {L : Half} (hL : 2 ≤ L.toNat) {p : List Byte} (hp : p.length < 17) : decodeDht L p = .more := by
  rw [decodeDht, if_neg (by omega), if_pos hp]

/-- R313: no payload byte is taken. -/
theorem decodeDht_short {L : Half} (hL : L.toNat < 2) (p : List Byte) :
    decodeDht L p = .instr (.dht L none) := if_pos hL

theorem readsWhole_dht_none {L : Half} (h : Instr.WellFormed (.dht L none) = true) :
    ReadsWhole (decodeDht L) (.dht L none) [] := .nil (decodeDht_short (of_decide_eq_true h) [])

theorem readsWhole_dht_some {L : Half} {b : DhtBody} (h : Instr.WellFormed (.dht L (some b)) = true) :
    ReadsWhole (decodeDht L) (.dht L (some b)) b.bytes := by
  obtain ⟨ref, counts, symbols⟩ := b
  simp only [Instr.WellFormed, DhtBody.WellFormed, Bool.and_eq_true, decide_eq_true_eq, beq_iff_eq] at h
  obtain ⟨hL, hs⟩ := h
  refine .append (a := ref :: counts.toList) (fun p hp => decodeDht_more hL (by simpa using hp)) ?_
  simp only [decodeDht_header hL]
  cases hc : dhtCause L counts with
  | some c =>
    obtain rfl : symbols = [] := by simpa [hc] using hs
    exact readsWhole_readChecked_some rfl
  | none =>
    have hlen : symbols.length = totalOf counts := by simpa [hc] using hs
    exact readsWhole_readChecked_none rfl hlen (by simp [← hlen])

/-! ## SOF0 (R145, R319) -/

/-- R145's layout of the three components. -/
def frameSpecBytes (cs : Vector FrameSpec 3) : List Byte := cs[0].bytes ++ cs[1].bytes ++ cs[2].bytes

/-- R145's layout of the first six payload bytes. -/
def sof0Head (precision : Byte) (height width : Half) (nf : Byte) : List Byte :=
  [precision, hiByte height, loByte height, hiByte width, loByte width, nf]

theorem exists_sof0Head {p : List Byte} (h : 6 ≤ p.length) :
    ∃ precision height width nf q, p = sof0Head precision height width nf ++ q := by
  match p, h with
  | a :: b :: c :: d :: e :: f :: q, _ => exact ⟨a, u16 b c, u16 d e, f, q, by simp [sof0Head]⟩

theorem exists_frameSpecBytes {q : List Byte} (h : 9 ≤ q.length) : ∃ cs r, q = frameSpecBytes cs ++ r := by
  match q, h with
  | a :: b :: c :: d :: e :: f :: g :: h :: i :: r, _ => exact ⟨#v[⟨a, b, c⟩, ⟨d, e, f⟩, ⟨g, h, i⟩], r, rfl⟩

theorem frameSpecsOf_payload (precision : Byte) (height width : Half) (nf : Byte) (cs : Vector FrameSpec 3)
    (r : List Byte) : frameSpecsOf (sof0Head precision height width nf ++ (frameSpecBytes cs ++ r)) = cs := by
  apply Vector.ext
  intro i hi
  match i, hi with
  | 0, _ | 1, _ | 2, _ => simp [frameSpecsOf, sof0Head, frameSpecBytes, FrameSpec.bytes]

/-- The six bytes have been taken. -/
theorem decodeSof0_head {L : Half} (hL : 2 ≤ L.toNat) (precision : Byte) (height width : Half) (nf : Byte)
    (q : List Byte) :
    decodeSof0 L (sof0Head precision height width nf ++ q) =
      readChecked (sof0Cause L nf) (.sof0 L (some ⟨precision, height, width, nf, none⟩)) 9
        (fun q => .sof0 L (some ⟨precision, height, width, nf,
          some (frameSpecsOf (sof0Head precision height width nf ++ q))⟩)) q := by
  have hlen : (sof0Head precision height width nf ++ q).length = 6 + q.length := List.length_append
  unfold decodeSof0
  rw [hlen, if_neg (by omega), if_neg (by omega), readChecked_after 6]
  simp [sof0Head]

/-- Fewer than six bytes. -/
theorem decodeSof0_more {L : Half} (hL : 2 ≤ L.toNat) {p : List Byte} (hp : p.length < 6) : decodeSof0 L p = .more := by
  rw [decodeSof0, if_neg (by omega), if_pos hp]

/-- R313: no payload byte is taken. -/
theorem decodeSof0_short {L : Half} (hL : L.toNat < 2) (p : List Byte) :
    decodeSof0 L p = .instr (.sof0 L none) := if_pos hL

theorem readsWhole_sof0_none {L : Half} (h : Instr.WellFormed (.sof0 L none) = true) :
    ReadsWhole (decodeSof0 L) (.sof0 L none) [] := .nil (decodeSof0_short (of_decide_eq_true h) [])

theorem readsWhole_sof0_some {L : Half} {b : Sof0Body} (h : Instr.WellFormed (.sof0 L (some b)) = true) :
    ReadsWhole (decodeSof0 L) (.sof0 L (some b)) b.bytes := by
  obtain ⟨precision, height, width, nf, comps⟩ := b
  simp only [Instr.WellFormed, Sof0Body.WellFormed, Bool.and_eq_true, decide_eq_true_eq, beq_iff_eq] at h
  obtain ⟨hL, hs⟩ := h
  refine .append (a := sof0Head precision height width nf) (fun p hp => decodeSof0_more hL hp) ?_
  simp only [decodeSof0_head hL]
  cases comps with
  | none => exact readsWhole_readChecked_some (by simpa using hs)
  | some cs =>
    have hspec : frameSpecsOf (sof0Head precision height width nf ++ frameSpecBytes cs) = cs := by
      simpa using frameSpecsOf_payload precision height width nf cs []
    exact readsWhole_readChecked_none (q := frameSpecBytes cs) (by simpa using hs) rfl (by rw [hspec])

/-! ## SOS (R146, R322) -/

/-- R146's layout of what follows `Ns`. -/
def sosTailBytes (s : SosTail) : List Byte :=
  [s.comps[0].cs, s.comps[0].t, s.comps[1].cs, s.comps[1].t, s.comps[2].cs, s.comps[2].t] ++ s.trailer.toList

theorem exists_sosTailBytes {q : List Byte} (h : 9 ≤ q.length) : ∃ s r, q = sosTailBytes s ++ r := by
  match q, h with
  | a :: b :: c :: d :: e :: f :: g :: h :: i :: r, _ => exact ⟨⟨#v[⟨a, b⟩, ⟨c, d⟩, ⟨e, f⟩], #v[g, h, i]⟩, r, rfl⟩

theorem scanSpecsOf_payload (ns : Byte) (s : SosTail) (r : List Byte) :
    scanSpecsOf (ns :: (sosTailBytes s ++ r)) = s.comps := by
  apply Vector.ext
  intro i hi
  match i, hi with
  | 0, _ | 1, _ | 2, _ => simp [scanSpecsOf, sosTailBytes]

theorem trailerOf_payload (ns : Byte) (s : SosTail) (r : List Byte) :
    trailerOf (ns :: (sosTailBytes s ++ r)) = s.trailer := by
  apply Vector.ext
  intro i hi
  match i, hi with
  | 0, _ | 1, _ | 2, _ => simp [trailerOf, sosTailBytes, List.getElem?_append_left]

/-- `Ns` has been taken. -/
theorem decodeSos_head {L : Half} (hL : 2 ≤ L.toNat) (ns : Byte) (q : List Byte) :
    decodeSos L (ns :: q) =
      readChecked (sosCause L ns) (.sos L (some ⟨ns, none⟩)) 9
        (fun q => .sos L (some ⟨ns, some ⟨scanSpecsOf (ns :: q), trailerOf (ns :: q)⟩⟩)) q := by
  have hlen : (ns :: q).length = 1 + q.length := Nat.add_comm _ _
  unfold decodeSos
  rw [hlen, if_neg (by omega), if_neg (by omega), readChecked_after 1]
  rfl

theorem decodeSos_nil {L : Half} (hL : 2 ≤ L.toNat) : decodeSos L [] = .more := if_neg (by omega)

/-- R313: no payload byte is taken. -/
theorem decodeSos_short {L : Half} (hL : L.toNat < 2) (p : List Byte) :
    decodeSos L p = .instr (.sos L none) := if_pos hL

theorem readsWhole_sos_none {L : Half} (h : Instr.WellFormed (.sos L none) = true) :
    ReadsWhole (decodeSos L) (.sos L none) [] := .nil (decodeSos_short (of_decide_eq_true h) [])

theorem readsWhole_sos_some {L : Half} {b : SosBody} (h : Instr.WellFormed (.sos L (some b)) = true) :
    ReadsWhole (decodeSos L) (.sos L (some b)) b.bytes := by
  obtain ⟨ns, tail⟩ := b
  simp only [Instr.WellFormed, SosBody.WellFormed, Bool.and_eq_true, decide_eq_true_eq, beq_iff_eq] at h
  obtain ⟨hL, hs⟩ := h
  refine .cons (decodeSos_nil hL) ?_
  simp only [decodeSos_head hL]
  cases tail with
  | none => exact readsWhole_readChecked_some (by simpa using hs)
  | some s =>
    have hcomps : scanSpecsOf (ns :: sosTailBytes s) = s.comps := by simpa using scanSpecsOf_payload ns s []
    have htrailer : trailerOf (ns :: sosTailBytes s) = s.trailer := by simpa using trailerOf_payload ns s []
    exact readsWhole_readChecked_none (q := sosTailBytes s) (by simpa using hs) (by simp [sosTailBytes])
      (by rw [hcomps, htrailer])

/-! ## The payloads that are skipped (R325 to R327), and the DQT records (R143) -/

theorem decodeSkip_counted (mk : List Byte → Instr) (L : Half) :
    decodeSkip mk L = readCounted (L.toNat - 2) fun p => mk (p.take (L.toNat - 2)) := rfl

theorem readsWhole_skip {mk : List Byte → Instr} {L : Half} {p : List Byte} (h : (p.length == L.toNat - 2) = true) :
    ReadsWhole (decodeSkip mk L) (mk p) p := by
  have hlen := beq_iff_eq.1 h
  exact decodeSkip_counted mk L ▸ readsWhole_readCounted hlen (by rw [List.take_of_length_le hlen.le])

theorem decodeRecord_counted :
    decodeRecord = readCounted 65 fun l =>
      .dqt (.record (l.getD 0 0#8) (Vector.ofFn fun i => l.getD (i.val + 1) 0#8)) := rfl

theorem record_payload (tq : Byte) (qzz : Block Byte) (r : List Byte) :
    Vector.ofFn (fun i : Fin 64 => (tq :: (qzz.toList ++ r)).getD (i.val + 1) 0#8) = qzz := by
  apply Vector.ext
  intro i hi
  simp [List.getElem?_append_left]

theorem readsWhole_record (tq : Byte) (qzz : Block Byte) :
    ReadsWhole decodeRecord (.dqt (.record tq qzz)) (tq :: qzz.toList) := by
  have hq := record_payload tq qzz []
  rw [List.append_nil] at hq
  exact decodeRecord_counted ▸ readsWhole_readCounted (by simp) (by rw [hq]; rfl)

/-! ## Markers (R153, R312, R314) -/

/-- R314's row 6: the code bytes after which a length is read. -/
structure HasLength (fv : Bool) (cc : Byte) : Prop where
  soi  : cc ≠ 0xD8#8
  eoi  : cc ≠ 0xD9#8
  rst  : isRst cc = false
  sof0 : ¬ (cc = 0xC0#8 ∧ fv = true)
  sos  : ¬ (cc = 0xDA#8 ∧ fv = false)

theorem HasLength.of_not_mem {fv : Bool} {cc : Byte} (hr : isRst cc = false)
    (h : cc ∉ [0xD8#8, 0xD9#8, 0xC0#8, 0xDA#8]) : HasLength fv cc where
  soi  := by rintro rfl; simp at h
  eoi  := by rintro rfl; simp at h
  rst  := hr
  sof0 := by rintro ⟨rfl, -⟩; simp at h
  sos  := by rintro ⟨rfl, -⟩; simp at h

theorem hasLength_sof0 : HasLength false 0xC0#8 := ⟨nofun, nofun, rfl, nofun, nofun⟩

theorem hasLength_sos : HasLength true 0xDA#8 := ⟨nofun, nofun, rfl, nofun, nofun⟩

/-- R153's OTHER row, code by code. -/
theorem isOther_iff {cc : Byte} : isOther cc = true ↔ isRst cc = false ∧
    cc ∉ [0xD8#8, 0xD9#8, 0xDB#8, 0xC4#8, 0xC0#8, 0xC2#8, 0xDA#8, 0xE0#8, 0xFE#8] := by
  simp [isOther]

theorem HasLength.of_other {fv : Bool} {cc : Byte} (h : isOther cc = true) : HasLength fv cc := by
  obtain ⟨hr, hcc⟩ := isOther_iff.1 h
  exact .of_not_mem hr fun hm => hcc (by grind)

theorem HasLength.decodeCode_segment {fv : Bool} {cc : Byte} (h : HasLength fv cc) (hi lo : Byte) (p : List Byte) :
    decodeCode fv cc (hi :: lo :: p) = decodeSegment cc (u16 hi lo) p := by
  simp [decodeCode, h.soi, h.eoi, h.rst, h.sof0, h.sos]

theorem HasLength.decodeCode_nil {fv : Bool} {cc : Byte} (h : HasLength fv cc) : decodeCode fv cc [] = .more := by
  simp [decodeCode, h.soi, h.eoi, h.rst, h.sof0, h.sos]

theorem HasLength.decodeCode_single {fv : Bool} {cc : Byte} (h : HasLength fv cc) (hi : Byte) :
    decodeCode fv cc [hi] = .more := by
  simp [decodeCode, h.soi, h.eoi, h.rst, h.sof0, h.sos]

theorem readsWhole_marker {fv : Bool} {cc : Byte} {i : Instr} {l : List Byte} (h : ReadsWhole (decodeCode fv cc) i l) :
    ReadsWhole (decodeMarker fv) i (0xFF#8 :: cc :: l) := .cons rfl (.cons rfl h)

theorem ne_of_isRst {cc b : Byte} (h : isRst cc = true) (hb : isRst b = false) : cc ≠ b := by
  rintro rfl
  cases h.symm.trans hb

theorem decodeCode_rst {fv : Bool} {cc : Byte} (h : isRst cc = true) (p : List Byte) :
    decodeCode fv cc p = .instr (.rstn (cc.extractLsb' 0 3)) := by
  unfold decodeCode
  rw [if_neg (ne_of_isRst h rfl), if_neg (ne_of_isRst h rfl), if_pos h]

/-- A marker without a length. -/
theorem readsWhole_code {fv : Bool} {cc : Byte} {i : Instr} (h : decodeCode fv cc [] = .instr i) :
    ReadsWhole (decodeMarker fv) i [0xFF#8, cc] := readsWhole_marker (.nil h)

/-- A marker with a length, and its payload. -/
theorem readsWhole_segment {fv : Bool} {cc : Byte} {L : Half} {i : Instr} {p : List Byte} (hc : HasLength fv cc)
    (h : ReadsWhole (decodeSegment cc L) i p) : ReadsWhole (decodeMarker fv) i (segmentBytes cc L p) := by
  refine readsWhole_marker (.cons hc.decodeCode_nil (.cons (hc.decodeCode_single _) ?_))
  simpa only [hc.decodeCode_segment, u16_hiByte_loByte] using h

theorem decodeSegment_other {cc : Byte} (h : isOther cc = true) (L : Half) :
    decodeSegment cc L = decodeSkip (.other cc L) L := by
  funext p
  have hcc := (isOther_iff.1 h).2
  simp only [List.mem_cons, not_or] at hcc
  simp [decodeSegment, hcc]

/-! ## Which instructions stand where -/

theorem segmentInstr_of_admits {fv : Bool} {rem : Nat} {i : Instr} (h : admits (.stream (.segments fv rem)) i = true) :
    SegmentInstr i := by
  cases i with
  | soiInSegments => exact .soiInSegments
  | eoiInSegments => exact .eoiInSegments
  | rstn n => exact .rstn n
  | dqt p => exact .dqt p
  | dht L b => exact .dht L b
  | sof0 L b => exact .sof0 L b
  | sof0Second => exact .sof0Second
  | sof2 L => exact .sof2 L
  | sos L b => exact .sos L b
  | sosBeforeSof0 => exact .sosBeforeSof0
  | app0 L p => exact .app0 L p
  | com L p => exact .com L p
  | other cc L p => exact .other cc L p
  | markerPrefixErr p => exact .markerPrefixErr p
  | coef r s a => cases a <;> simp [admits] at h
  | _ => simp [admits] at h

theorem admits_soi {i : Instr} (h : admits (.stream .soi) i = true) : ∃ a b, i = .soi a b := by
  cases i with
  | soi a b => exact ⟨a, b, rfl⟩
  | coef r s a => cases a <;> simp [admits] at h
  | dqt p => cases p <;> cases h
  | _ => simp [admits, Ctx.inSegments] at h

theorem admits_eoi {i : Instr} (h : admits (.stream .eoi) i = true) : ∃ a b, i = .eoi a b := by
  cases i with
  | eoi a b => exact ⟨a, b, rfl⟩
  | coef r s a => cases a <;> simp [admits] at h
  | dqt p => cases p <;> cases h
  | _ => simp [admits, Ctx.inSegments] at h

theorem admits_ecs {i : Instr} (h : admits (.stream .ecs) i = true) :
    (∃ b, i = .data b) ∨ i = .stuff ∨ (∃ n, i = .ecsRst n) ∨ ∃ cc, i = .ecsMarker cc := by
  cases i with
  | data b => exact .inl ⟨b, rfl⟩
  | stuff => exact .inr (.inl rfl)
  | ecsRst n => exact .inr (.inr (.inl ⟨n, rfl⟩))
  | ecsMarker cc => exact .inr (.inr (.inr ⟨cc, rfl⟩))
  | coef r s a => cases a <;> simp [admits] at h
  | dqt p => cases p <;> cases h
  | _ => simp [admits, Ctx.inSegments] at h

/-! ## A stream instruction's bytes are read whole -/

theorem readsWhole_encode_marker {fv : Bool} {i : Instr} (hi : i.WellFormed = true)
    (ha : admits (.stream (.segments fv 0)) i = true) :
    ∃ l, encode i = .bytes l ∧ ReadsWhole (decodeMarker fv) i l := by
  cases segmentInstr_of_admits ha with
  | soiInSegments => exact ⟨_, rfl, readsWhole_code rfl⟩
  | eoiInSegments => exact ⟨_, rfl, readsWhole_code rfl⟩
  | rstn n => exact ⟨_, rfl, readsWhole_code (by simp [decodeCode_rst])⟩
  | dqt p =>
    cases p with
    | header L => exact ⟨_, rfl, readsWhole_segment (.of_not_mem rfl (by decide)) (.nil rfl)⟩
    | record tq qzz => cases ha
  | dht L b =>
    have hc : HasLength fv 0xC4#8 := .of_not_mem rfl (by decide)
    cases b with
    | none => exact ⟨_, rfl, readsWhole_segment hc (readsWhole_dht_none hi)⟩
    | some b => exact ⟨_, rfl, readsWhole_segment hc (readsWhole_dht_some hi)⟩
  | sof0 L b =>
    obtain rfl : fv = false := by simpa [admits, Ctx.inSegments] using ha
    cases b with
    | none => exact ⟨_, rfl, readsWhole_segment hasLength_sof0 (readsWhole_sof0_none hi)⟩
    | some b => exact ⟨_, rfl, readsWhole_segment hasLength_sof0 (readsWhole_sof0_some hi)⟩
  | sof0Second =>
    obtain rfl : fv = true := by simpa [admits, Ctx.inSegments] using ha
    exact ⟨_, rfl, readsWhole_code rfl⟩
  | sof2 L => exact ⟨_, rfl, readsWhole_segment (.of_not_mem rfl (by decide)) (.nil rfl)⟩
  | sos L b =>
    obtain rfl : fv = true := by simpa [admits, Ctx.inSegments] using ha
    cases b with
    | none => exact ⟨_, rfl, readsWhole_segment hasLength_sos (readsWhole_sos_none hi)⟩
    | some b => exact ⟨_, rfl, readsWhole_segment hasLength_sos (readsWhole_sos_some hi)⟩
  | sosBeforeSof0 =>
    obtain rfl : fv = false := by simpa [admits, Ctx.inSegments] using ha
    exact ⟨_, rfl, readsWhole_code rfl⟩
  | app0 L p => exact ⟨_, rfl, readsWhole_segment (.of_not_mem rfl (by decide)) (readsWhole_skip hi)⟩
  | com L p => exact ⟨_, rfl, readsWhole_segment (.of_not_mem rfl (by decide)) (readsWhole_skip hi)⟩
  | other cc L p =>
    obtain ⟨ho, hp⟩ := Bool.and_eq_true_iff.1 hi
    have hr : ReadsWhole (decodeSegment cc L) _ p := decodeSegment_other ho L ▸ readsWhole_skip hp
    exact ⟨_, rfl, readsWhole_segment (.of_other ho) hr⟩
  | markerPrefixErr p => exact ⟨_, rfl, .cons rfl (.nil (if_pos (by simpa [Instr.WellFormed] using hi)))⟩

/-- Where bytes of a DQT segment are due, only its record stands. -/
theorem record_of_admits {fv : Bool} {rem : Nat} {i : Instr} (hrem : rem ≠ 0)
    (ha : admits (.stream (.segments fv rem)) i = true) : ∃ tq qzz, i = .dqt (.record tq qzz) := by
  cases segmentInstr_of_admits ha with
  | dqt p =>
    cases p with
    | header L => simp [admits, Ctx.inSegments, hrem] at ha
    | record tq qzz => exact ⟨tq, qzz, rfl⟩
  | _ => simp [admits, Ctx.inSegments, hrem] at ha

theorem readsWhole_encode_ecs {i : Instr} (hi : i.WellFormed = true) (ha : admits (.stream .ecs) i = true) :
    ∃ l, encode i = .bytes l ∧ ReadsWhole decodeEcs i l := by
  rcases admits_ecs ha with ⟨b, rfl⟩ | rfl | ⟨n, rfl⟩ | ⟨cc, rfl⟩
  · exact ⟨_, rfl, .cons rfl (.nil (if_pos (by simpa [Instr.WellFormed] using hi)))⟩
  · exact ⟨_, rfl, .cons rfl (.cons rfl (.nil rfl))⟩
  · refine ⟨_, rfl, .cons rfl (.cons rfl (.nil ?_))⟩
    simp [decodeEcs, ne_of_isRst (isRst_append n) (b := 0x00#8) rfl]
  · refine ⟨_, rfl, .cons rfl (.cons rfl (.nil ?_))⟩
    obtain ⟨h0, hr⟩ : cc ≠ 0x00#8 ∧ isRst cc = false := by simpa [Instr.WellFormed] using hi
    simp [decodeEcs, h0, hr]

/-- Every stream instruction's bytes are read whole where it stands. -/
theorem readsWhole_encode {c : StreamCtx} {i : Instr} (hi : i.WellFormed = true) (ha : admits (.stream c) i = true) :
    ∃ l, encode i = .bytes l ∧ ReadsWhole (decodeStream c) i l := by
  cases c with
  | soi =>
    obtain ⟨a, b, rfl⟩ := admits_soi ha
    exact ⟨_, rfl, .cons rfl (.cons rfl (.nil rfl))⟩
  | segments fv rem =>
    by_cases hrem : rem = 0
    · subst hrem
      exact readsWhole_encode_marker hi ha
    · obtain ⟨tq, qzz, rfl⟩ := record_of_admits hrem ha
      have hd : decodeStream (.segments fv rem) = decodeRecord := by funext l; exact if_neg hrem
      exact ⟨_, rfl, hd ▸ readsWhole_record tq qzz⟩
  | eoi =>
    obtain ⟨a, b, rfl⟩ := admits_eoi ha
    exact ⟨_, rfl, .cons rfl (.cons rfl (.nil rfl))⟩
  | ecs => exact readsWhole_encode_ecs hi ha

/-- Settles O3: `readsWhole_encode` for the bytes the encoder writes. -/
theorem shorterPrefixesNeedMore : Obligations.ShorterPrefixesNeedMore := by
  intro c i l p hi ha hl hp hne
  obtain ⟨l', hl', hr⟩ := readsWhole_encode hi ha
  obtain rfl : l' = l := Code.bytes.inj (hl'.symm.trans hl)
  exact hr.more p hp hne

/-! ## Elements (R149 to R152, R154, R155) -/

/-- R155's sizes that take additional bits. -/
theorem decodeDcSymbol_diff {s : Byte} (h1 : 1 ≤ s.toNat) (h16 : s.toNat ≤ Config.numberMaxBits) (a : List Bool) :
    decodeDcSymbol s a = if a.length < s.toNat then .more else .instr (.dcDiff s (a.take s.toNat)) := by
  have h0 : s ≠ 0#8 := by rintro rfl; cases h1
  rw [decodeDcSymbol, if_neg h0, if_neg (Nat.not_lt.2 h16)]

theorem decodeDcSymbol_wide {s : Byte} (h : Config.numberMaxBits < s.toNat) (a : List Bool) :
    decodeDcSymbol s a = .instr (.dcTooWide s) := by
  have h0 : s ≠ 0#8 := by rintro rfl; cases h
  rw [decodeDcSymbol, if_neg h0, if_pos h]

theorem append_eq_iff_nibbles {r s : BitVec 4} {b : Byte} : r ++ s = b ↔ r = hiNibble b ∧ s = loNibble b := by
  constructor
  · rintro rfl; simp
  · rintro ⟨rfl, rfl⟩; simp

/-- R154's map, by the run and the size of the RS byte. -/
theorem decodeAcSymbol_append (r s : BitVec 4) :
    decodeAcSymbol (r ++ s) =
      if s = 0#4 then if r = 0#4 then .eob else if r = 15#4 then .zrl else .zsr r else .coef r s [] := by
  have h00 : r ++ s = 0x00#8 ↔ r = 0#4 ∧ s = 0#4 := append_eq_iff_nibbles
  have hF0 : r ++ s = 0xF0#8 ↔ r = 15#4 ∧ s = 0#4 := append_eq_iff_nibbles
  unfold decodeAcSymbol
  simp only [h00, hF0, hiNibble_append, loNibble_append]
  by_cases hs : s = 0#4 <;> simp [hs]

theorem decode_encode_element {c : ElementCtx} {i : Instr} (hi : i.WellFormed = true)
    (ha : admits (.element c) i = true) : decode (.element c) (encode i) = some i := by
  cases i with
  | dcZero =>
    obtain rfl : c = .dc := by simpa [admits] using ha
    rfl
  | dcDiff s a =>
    obtain rfl : c = .dc := by simpa [admits] using ha
    obtain ⟨⟨h1, h16⟩, hlen⟩ : (1 ≤ s.toNat ∧ s.toNat ≤ Config.numberMaxBits) ∧ a.length = s.toNat := by
      simpa [Instr.WellFormed] using hi
    simp [encode, decode, decodeSymbol, decodeDcSymbol_diff h1 h16, ← hlen]
  | dcTooWide s =>
    obtain rfl : c = .dc := by simpa [admits] using ha
    simp [encode, decode, decodeSymbol, decodeDcSymbol_wide (of_decide_eq_true hi)]
  | eob =>
    obtain rfl : c = .ac := by simpa [admits] using ha
    rfl
  | zrl =>
    obtain rfl : c = .ac := by simpa [admits] using ha
    rfl
  | zsr r =>
    obtain rfl : c = .ac := by simpa [admits] using ha
    obtain ⟨h0, h15⟩ : r ≠ 0#4 ∧ r ≠ 15#4 := by simpa [Instr.WellFormed] using hi
    simp [encode, decode, decodeSymbol, decodeAcSymbol_append, h0, h15]
  | coef r s a =>
    cases a with
    | nil =>
      obtain rfl : c = .ac := by simpa [admits] using ha
      have hs : s ≠ 0#4 := by simpa [Instr.WellFormed] using hi
      simp [encode, decode, decodeSymbol, decodeAcSymbol_append, hs]
    | cons b a => simp [admits] at ha
  | dqt p => cases p <;> cases ha
  | _ => simp [admits, Ctx.inSegments] at ha

theorem decode_encode_value {r n : BitVec 4} {i : Instr} (hi : i.WellFormed = true)
    (ha : admits (.value r n) i = true) : decode (.value r n) (encode i) = some i := by
  cases i with
  | coef r' n' a =>
    cases a with
    | nil => simp [admits] at ha
    | cons b a =>
      obtain ⟨rfl, rfl⟩ : r = r' ∧ n = n' := by simpa [admits] using ha
      have hlen : a.length + 1 = n.toNat := by
        obtain ⟨-, h⟩ := Bool.and_eq_true_iff.1 hi
        simpa using h
      simp [encode, decode, decodeValue, ← hlen]
  | dqt p => cases p <;> cases ha
  | _ => simp [admits, Ctx.inSegments] at ha

/-! ## The host (R156, R427 to R429) -/

/-- A CTRL word: the ignored bits, then the two command bits (R52). -/
def ctrlData (hi : BitVec 30) (reset start : Bool) : Word := hi ++ (BitVec.ofBool reset ++ BitVec.ofBool start)

theorem exists_ctrlData (d : Word) : ∃ hi reset start, d = ctrlData hi reset start :=
  ⟨d.extractLsb' 2 30, d.getLsbD 1, d.getLsbD 0, by unfold ctrlData; grind⟩

/-- R156's map of a CTRL write. -/
theorem decodeWrite_ctrl (hi : BitVec 30) (reset start : Bool) :
    decodeWrite 0x04#8 (ctrlData hi reset start) =
      if reset then if start then .softResetAndStart hi else .softReset hi
      else if start then .start hi else .ctrlNop hi := by
  have h2 : (ctrlData hi reset start).extractLsb' 2 30 = hi := BitVec.extractLsb'_append_eq_left
  have h1 : (ctrlData hi reset start).getLsbD 1 = reset := by
    rw [ctrlData, BitVec.getLsbD_append, BitVec.getLsbD_append]; simp
  have h0 : (ctrlData hi reset start).getLsbD 0 = start := by
    rw [ctrlData, BitVec.getLsbD_append, BitVec.getLsbD_append]; simp
  simp only [decodeWrite, if_true, h0, h1, h2]

theorem decodeHost_write {off : Byte} (h : off.toNat % 4 = 0) (d : Word) :
    decodeHost (.bus ⟨true, off, .w32, d⟩) = .ok (decodeWrite off d) := by
  simp [decodeHost, h]

theorem decodeHost_read {off : Byte} (h : off.toNat % 4 = 0) (d : Word) :
    decodeHost (.bus ⟨false, off, .w32, d⟩) = .ok (.regRead off) := by
  simp [decodeHost, h]

theorem decodeHost_ctrlWrite (hi : BitVec 30) (reset start : Bool) :
    decodeHost (ctrlWrite hi reset start) =
      .ok (if reset then if start then .softResetAndStart hi else .softReset hi
        else if start then .start hi else .ctrlNop hi) := by
  rw [← decodeWrite_ctrl]
  exact decodeHost_write rfl _

theorem decode_encode_host {i : Instr} (hi : i.WellFormed = true) (ha : admits .host i = true) :
    decode .host (encode i) = some i := by
  cases i with
  | start x => simp [encode, decode, decodeHost_ctrlWrite]
  | softReset x => simp [encode, decode, decodeHost_ctrlWrite]
  | softResetAndStart x => simp [encode, decode, decodeHost_ctrlWrite]
  | ctrlNop x => simp [encode, decode, decodeHost_ctrlWrite]
  | irqEnWrite d => simp [encode, decode, decodeHost_write, decodeWrite]
  | irqAck d => simp [encode, decode, decodeHost_write, decodeWrite]
  | roWrite off d =>
    obtain ⟨h4, hne⟩ : off.toNat % 4 = 0 ∧ off ≠ 0x04#8 ∧ off ≠ 0x30#8 ∧ off ≠ 0x34#8 := by
      simpa [Instr.WellFormed] using hi
    simp [encode, decode, decodeHost_write h4, decodeWrite, hne]
  | regRead off =>
    have h4 : off.toNat % 4 = 0 := of_decide_eq_true hi
    simp [encode, decode, decodeHost_read h4]
  | streamByte b last => rfl
  | pixelAccept => rfl
  | coef r s a => cases a <;> simp [admits] at ha
  | dqt p => cases p <;> cases ha
  | _ => simp [admits, Ctx.inSegments] at ha

/-- Settles O1: place by place. -/
theorem decodeEncodeAgree : Obligations.DecodeEncodeAgree := by
  intro c i hi ha
  cases c with
  | stream c =>
    obtain ⟨l, hl, hr⟩ := readsWhole_encode hi ha
    simp only [hl, decode, hr.instr]
  | element c => exact decode_encode_element hi ha
  | value r n => exact decode_encode_value hi ha
  | host => exact decode_encode_host hi ha

end Sys2Proof.Machine
end

section
/-! The statements about the encoding, from the words to the instruction: what a decoder reads is well-formed, stands there, and encodes to the start of the words it read. -/

namespace Sys2Proof.Machine

/-! ## What a stream decoder reads is the start of its bytes -/

/-- `i` can be read in `c`, and `l` begins with its bytes. -/
structure BeginsWith (c : StreamCtx) (l : List Byte) (i : Instr) : Prop where
  wf       : i.WellFormed = true
  admitted : admits (.stream c) i = true
  encoded  : ∃ p, encode i = .bytes p ∧ p <+: l

/-- `i` is the segment of code `cc` and length `L` whose payload begins `p`. -/
structure SegmentBegins (cc : Byte) (L : Half) (p : List Byte) (i : Instr) : Prop where
  wf      : i.WellFormed = true
  encoded : ∃ q, encode i = .bytes (segmentBytes cc L q) ∧ q <+: p

theorem SegmentBegins.beginsWith {c : StreamCtx} {cc : Byte} {L : Half} {p : List Byte} {i : Instr}
    (h : SegmentBegins cc L p i) (ha : admits (.stream c) i = true) : BeginsWith c (segmentBytes cc L p) i := by
  obtain ⟨q, he, r, rfl⟩ := h.encoded
  exact ⟨h.wf, ha, _, he, r, rfl⟩

theorem decodeDht_begins {L : Half} {p : List Byte} {i : Instr} (h : decodeDht L p = .instr i) :
    SegmentBegins 0xC4#8 L p i := by
  rcases Nat.lt_or_ge L.toNat 2 with hL | hL
  · cases (decodeDht_short hL p).symm.trans h
    exact ⟨decide_eq_true hL, [], rfl, List.nil_prefix⟩
  rcases Nat.lt_or_ge p.length 17 with hp | hp
  · cases (decodeDht_more hL hp).symm.trans h
  obtain ⟨ref, counts, q, rfl⟩ := exists_dhtHeader hp
  rw [decodeDht_header hL] at h
  rcases readChecked_instr h with ⟨hc, rfl⟩ | ⟨hc, hn, rfl⟩
  · exact ⟨by simp [Instr.WellFormed, DhtBody.WellFormed, hL, hc], _, rfl, by simp [DhtBody.bytes]⟩
  · exact ⟨by simp [Instr.WellFormed, DhtBody.WellFormed, hL, hc, hn], _, rfl,
      by simp [DhtBody.bytes, List.take_prefix]⟩

theorem decodeSof0_begins {L : Half} {p : List Byte} {i : Instr} (h : decodeSof0 L p = .instr i) :
    SegmentBegins 0xC0#8 L p i := by
  rcases Nat.lt_or_ge L.toNat 2 with hL | hL
  · cases (decodeSof0_short hL p).symm.trans h
    exact ⟨decide_eq_true hL, [], rfl, List.nil_prefix⟩
  rcases Nat.lt_or_ge p.length 6 with hp | hp
  · cases (decodeSof0_more hL hp).symm.trans h
  obtain ⟨precision, height, width, nf, q, rfl⟩ := exists_sof0Head hp
  rw [decodeSof0_head hL] at h
  rcases readChecked_instr h with ⟨hc, rfl⟩ | ⟨hc, hn, rfl⟩
  · exact ⟨by simp [Instr.WellFormed, Sof0Body.WellFormed, hL, hc], _, rfl, q, rfl⟩
  · obtain ⟨cs, r, rfl⟩ := exists_frameSpecBytes hn
    simp only [frameSpecsOf_payload]
    exact ⟨by simp [Instr.WellFormed, Sof0Body.WellFormed, hL, hc], _, rfl, r, rfl⟩

theorem decodeSos_begins {L : Half} {p : List Byte} {i : Instr} (h : decodeSos L p = .instr i) :
    SegmentBegins 0xDA#8 L p i := by
  rcases Nat.lt_or_ge L.toNat 2 with hL | hL
  · cases (decodeSos_short hL p).symm.trans h
    exact ⟨decide_eq_true hL, [], rfl, List.nil_prefix⟩
  cases p with
  | nil => rw [decodeSos_nil hL] at h; cases h
  | cons ns q =>
    rw [decodeSos_head hL] at h
    rcases readChecked_instr h with ⟨hc, rfl⟩ | ⟨hc, hn, rfl⟩
    · exact ⟨by simp [Instr.WellFormed, SosBody.WellFormed, hL, hc], _, rfl, q, rfl⟩
    · obtain ⟨s, r, rfl⟩ := exists_sosTailBytes hn
      simp only [scanSpecsOf_payload, trailerOf_payload]
      exact ⟨by simp [Instr.WellFormed, SosBody.WellFormed, hL, hc], _, rfl, r, rfl⟩

/-- A skipped payload is the first `L − 2` bytes. -/
theorem decodeSkip_instr {mk : List Byte → Instr} {L : Half} {p : List Byte} {i : Instr}
    (h : decodeSkip mk L p = .instr i) : ∃ q, q <+: p ∧ q.length = L.toNat - 2 ∧ i = mk q := by
  rw [decodeSkip_counted] at h
  obtain ⟨hn, rfl⟩ := readCounted_instr h
  exact ⟨_, List.take_prefix _ p, by simpa using hn, rfl⟩

theorem decodeSegment_begins {fv : Bool} {cc : Byte} {L : Half} {p : List Byte} {i : Instr} (hc : HasLength fv cc)
    (h : decodeSegment cc L p = .instr i) : BeginsWith (.segments fv 0) (segmentBytes cc L p) i := by
  unfold decodeSegment at h
  split at h
  · cases h; subst cc; exact ⟨rfl, rfl, _, rfl, p, rfl⟩
  split at h
  · subst cc
    obtain ⟨b, rfl⟩ := decodeDht_eq _ _ _ h
    exact (decodeDht_begins h).beginsWith rfl
  split at h
  · subst cc
    obtain ⟨b, rfl⟩ := decodeSof0_eq _ _ _ h
    obtain rfl : fv = false := by simpa using hc.sof0
    exact (decodeSof0_begins h).beginsWith rfl
  split at h
  · cases h; subst cc; exact ⟨rfl, rfl, _, rfl, p, rfl⟩
  split at h
  · subst cc
    obtain ⟨b, rfl⟩ := decodeSos_eq _ _ _ h
    obtain rfl : fv = true := by simpa using hc.sos
    exact (decodeSos_begins h).beginsWith rfl
  split at h
  · subst cc
    obtain ⟨q, ⟨r, rfl⟩, hq, rfl⟩ := decodeSkip_instr h
    exact ⟨beq_iff_eq.2 hq, rfl, _, rfl, r, rfl⟩
  split at h
  · subst cc
    obtain ⟨q, ⟨r, rfl⟩, hq, rfl⟩ := decodeSkip_instr h
    exact ⟨beq_iff_eq.2 hq, rfl, _, rfl, r, rfl⟩
  · obtain ⟨q, ⟨r, rfl⟩, hq, rfl⟩ := decodeSkip_instr h
    have ho : isOther cc = true := isOther_iff.2 ⟨hc.rst, by simp [hc.soi, hc.eoi, *]⟩
    exact ⟨Bool.and_eq_true_iff.2 ⟨ho, beq_iff_eq.2 hq⟩, rfl, _, rfl, r, rfl⟩

theorem decodeCode_begins {fv : Bool} {cc : Byte} {p : List Byte} {i : Instr} (h : decodeCode fv cc p = .instr i) :
    BeginsWith (.segments fv 0) (0xFF#8 :: cc :: p) i := by
  unfold decodeCode at h
  split at h
  · cases h; subst cc; exact ⟨rfl, rfl, _, rfl, p, rfl⟩
  split at h
  · cases h; subst cc; exact ⟨rfl, rfl, _, rfl, p, rfl⟩
  split at h
  · cases h; exact ⟨rfl, rfl, _, rfl, p, by rw [append_rstIndex ‹_›]; rfl⟩
  split at h
  · obtain ⟨rfl, rfl⟩ := ‹cc = _ ∧ _›; cases h; exact ⟨rfl, rfl, _, rfl, p, rfl⟩
  split at h
  · obtain ⟨rfl, rfl⟩ := ‹cc = _ ∧ _›; cases h; exact ⟨rfl, rfl, _, rfl, p, rfl⟩
  rename_i hsoi heoi hrst hsof0 hsos
  split at h
  · rename_i hi lo p
    simpa [segmentBytes] using decodeSegment_begins ⟨hsoi, heoi, by simpa using hrst, hsof0, hsos⟩ h
  · cases h

theorem decodeMarker_begins {fv : Bool} {l : List Byte} {i : Instr} (h : decodeMarker fv l = .instr i) :
    BeginsWith (.segments fv 0) l i := by
  unfold decodeMarker at h
  split at h
  · cases h
  split at h
  · cases h; exact ⟨by simpa [Instr.WellFormed], rfl, _, rfl, _, rfl⟩
  rename_i p rest hp
  obtain rfl := not_not.1 hp
  split at h
  · cases h
  · exact decodeCode_begins h

theorem decodeRecord_begins {fv : Bool} {rem : Nat} {l : List Byte} {i : Instr} (hrem : rem ≠ 0)
    (h : decodeRecord l = .instr i) : BeginsWith (.segments fv rem) l i := by
  rw [decodeRecord_counted] at h
  obtain ⟨hn, rfl⟩ := readCounted_instr h
  cases l with
  | nil => cases hn
  | cons tq q =>
    obtain ⟨qzz, r, rfl⟩ := exists_vector_append 64 q (Nat.le_of_succ_le_succ hn)
    rw [record_payload]
    exact ⟨rfl, by simpa [admits, Ctx.inSegments] using hrem, _, rfl, r, rfl⟩

theorem decodeEcs_begins {l : List Byte} {i : Instr} (h : decodeEcs l = .instr i) : BeginsWith .ecs l i := by
  unfold decodeEcs at h
  split at h
  · cases h
  split at h
  · cases h; exact ⟨by simpa [Instr.WellFormed], rfl, _, rfl, _, rfl⟩
  rename_i b rest hb
  obtain rfl := not_not.1 hb
  split at h
  · cases h
  split at h
  · cases h; subst_vars; exact ⟨rfl, rfl, _, rfl, _, rfl⟩
  split at h
  · cases h; exact ⟨rfl, rfl, _, rfl, _, by rw [append_rstIndex ‹_›]; rfl⟩
  · cases h; exact ⟨by simp [Instr.WellFormed, *], rfl, _, rfl, _, rfl⟩

theorem decodeStream_begins {c : StreamCtx} {l : List Byte} {i : Instr} (h : decodeStream c l = .instr i) :
    BeginsWith c l i := by
  cases c with
  | soi =>
    match l, h with
    | a :: b :: l, rfl => exact ⟨rfl, rfl, _, rfl, l, rfl⟩
  | segments fv rem =>
    by_cases hrem : rem = 0
    · subst hrem; exact decodeMarker_begins h
    · exact decodeRecord_begins hrem ((if_neg hrem).symm.trans h)
  | eoi =>
    match l, h with
    | a :: b :: l, rfl => exact ⟨rfl, rfl, _, rfl, l, rfl⟩
  | ecs => exact decodeEcs_begins h

/-! ## What the other decoders read -/

theorem decodeDcSymbol_begins {s : Byte} {a : List Bool} {i : Instr} (h : decodeDcSymbol s a = .instr i) :
    i.WellFormed = true ∧ admits (.element .dc) i = true ∧ ∃ p, encode i = .element s p ∧ p <+: a := by
  unfold decodeDcSymbol at h
  split at h
  · cases h; subst s; exact ⟨rfl, rfl, [], rfl, List.nil_prefix⟩
  split at h
  · cases h; exact ⟨decide_eq_true ‹_›, rfl, [], rfl, List.nil_prefix⟩
  split at h
  · cases h
  · cases h
    rename_i h0 h16 hlen
    have h1 : 1 ≤ s.toNat := Nat.one_le_iff_ne_zero.2 fun e => h0 (BitVec.eq_of_toNat_eq e)
    refine ⟨?_, rfl, _, rfl, List.take_prefix _ a⟩
    simp [Instr.WellFormed, h1, Nat.le_of_not_lt h16, Nat.le_of_not_lt hlen]

theorem decodeAcSymbol_begins (rs : Byte) (a : List Bool) :
    (decodeAcSymbol rs).WellFormed = true ∧ admits (.element .ac) (decodeAcSymbol rs) = true ∧
      ∃ p, encode (decodeAcSymbol rs) = .element rs p ∧ p <+: a := by
  obtain ⟨r, s, rfl⟩ : ∃ r s : BitVec 4, rs = r ++ s := ⟨_, _, (hiNibble_append_loNibble rs).symm⟩
  rw [decodeAcSymbol_append]
  split
  · subst s
    split
    · subst r; exact ⟨rfl, rfl, [], rfl, List.nil_prefix⟩
    split
    · subst r; exact ⟨rfl, rfl, [], rfl, List.nil_prefix⟩
    · exact ⟨by simp [Instr.WellFormed, *], rfl, [], rfl, List.nil_prefix⟩
  · exact ⟨by simp [Instr.WellFormed, *], rfl, [], rfl, List.nil_prefix⟩

theorem decodeSymbol_begins {c : ElementCtx} {sym : Byte} {a : List Bool} {i : Instr}
    (h : decodeSymbol c sym a = .instr i) :
    i.WellFormed = true ∧ admits (.element c) i = true ∧ ∃ p, encode i = .element sym p ∧ p <+: a := by
  cases c with
  | dc => exact decodeDcSymbol_begins h
  | ac => cases h; exact decodeAcSymbol_begins sym a

theorem decodeValue_begins {r n : BitVec 4} {a : List Bool} {i : Instr} (hn : n ≠ 0#4)
    (h : decodeValue r n a = .instr i) :
    i.WellFormed = true ∧ admits (.value r n) i = true ∧ ∃ p, encode i = .value p ∧ p <+: a := by
  obtain ⟨b, rest, rfl, hlen, rfl⟩ := decodeValue_instr h
  have h1 : 1 ≤ n.toNat := Nat.one_le_iff_ne_zero.2 fun e => hn (BitVec.eq_of_toNat_eq e)
  refine ⟨?_, by simp [admits], _, rfl, List.cons_prefix_cons.2 ⟨rfl, List.take_prefix _ rest⟩⟩
  simp [Instr.WellFormed, hn, hlen, Nat.sub_add_cancel h1]

/-- A write decodes to an instruction of the host whose encoding is that write. -/
theorem decodeWrite_encode {off : Byte} (h : off.toNat % 4 = 0) (d : Word) :
    (decodeWrite off d).WellFormed = true ∧ admits .host (decodeWrite off d) = true ∧
      encode (decodeWrite off d) = .action (.bus ⟨true, off, .w32, d⟩) := by
  by_cases hctrl : off = 0x04#8
  · subst hctrl
    obtain ⟨hi, reset, start, rfl⟩ := exists_ctrlData d
    rw [decodeWrite_ctrl]
    cases reset <;> cases start <;> exact ⟨rfl, rfl, rfl⟩
  rw [decodeWrite, if_neg hctrl]
  split
  · subst off; exact ⟨rfl, rfl, rfl⟩
  split
  · subst off; exact ⟨rfl, rfl, rfl⟩
  · exact ⟨by simp [Instr.WellFormed, *], rfl, rfl⟩

theorem decodeHost_encode {h : HostAction} {i : Instr} (hd : decodeHost h = .ok i) :
    i.WellFormed = true ∧ admits .host i = true ∧
      (encode i = .action h ∨
        ∃ off d, h = .bus ⟨false, off, .w32, d⟩ ∧ encode i = .action (.bus ⟨false, off, .w32, 0#32⟩)) := by
  cases h with
  | offer b last => cases hd; exact ⟨rfl, rfl, .inl rfl⟩
  | accept => cases hd; exact ⟨rfl, rfl, .inl rfl⟩
  | bus a =>
    obtain ⟨write, off, width, d⟩ := a
    unfold decodeHost at hd
    simp only at hd
    split at hd
    · cases hd
    split at hd
    · cases hd
    rename_i hw h4
    obtain rfl := not_not.1 hw
    replace h4 := not_not.1 h4
    cases write with
    | true =>
      cases hd
      obtain ⟨hwf, ha, he⟩ := decodeWrite_encode h4 d
      exact ⟨hwf, ha, .inl he⟩
    | false =>
      cases hd
      exact ⟨decide_eq_true h4, rfl, .inr ⟨off, d, rfl, rfl⟩⟩

/-- Settles O2: decoder by decoder. -/
theorem decodersReadEncodings : Obligations.DecodersReadEncodings := by
  refine ⟨fun c l i h => ?_, fun _ _ _ _ => decodeSymbol_begins, fun _ _ _ _ => decodeValue_begins,
    fun _ _ => decodeHost_encode⟩
  obtain ⟨hwf, ha, he⟩ := decodeStream_begins h
  exact ⟨hwf, ha, he⟩

/-- Settles O4: the decoders compute on the words. -/
theorem specWordsDecode : Obligations.SpecWordsDecode := by
  unfold Obligations.SpecWordsDecode
  decide

end Sys2Proof.Machine
end

section
/-! The statements about the bit reader: byte and bit takes, the additional bits' value, and what a step runs. -/

namespace Sys2Proof.Machine

/-! ## Bits as a number, most significant first (R106, R152) -/

@[simp] theorem bitsValue_nil : bitsValue [] = 0 := rfl

/-- Bits taken so far of value `v` weigh `2 ^ a.length` more once the bits `a` follow. -/
theorem foldl_bits_eq (a : List Bool) (v : Nat) :
    a.foldl (fun v b => 2 * v + b.toNat) v = v * 2 ^ a.length + bitsValue a := by
  induction a generalizing v with
  | nil => simp
  | cons b a ih =>
    rw [bitsValue, List.foldl_cons, List.foldl_cons, ih, ih (2 * 0 + b.toNat), List.length_cons]
    ring

theorem bitsValue_cons (b : Bool) (a : List Bool) : bitsValue (b :: a) = b.toNat * 2 ^ a.length + bitsValue a := by
  rw [bitsValue, List.foldl_cons, foldl_bits_eq, Nat.mul_zero, Nat.zero_add]

@[simp] theorem bitsValue_false (a : List Bool) : bitsValue (false :: a) = bitsValue a := by
  rw [bitsValue_cons, Bool.toNat_false, Nat.zero_mul, Nat.zero_add]

theorem bitsValue_lt (a : List Bool) : bitsValue a < 2 ^ a.length := by
  induction a with
  | nil => simp
  | cons b a ih =>
    rw [bitsValue_cons, List.length_cons, pow_succ]
    cases b <;> simp <;> omega

/-- Bit strings of one length are told apart by their values. -/
theorem bitsValue_inj {a a' : List Bool} (hl : a.length = a'.length) (h : bitsValue a = bitsValue a') : a = a' := by
  induction a generalizing a' with
  | nil => exact (List.length_eq_zero_iff.1 hl.symm).symm
  | cons b a ih =>
    cases a' with
    | nil => cases hl
    | cons b' a' =>
      have hlen : a.length = a'.length := Nat.succ.inj hl
      have ha := hlen ▸ bitsValue_lt a
      have ha' := bitsValue_lt a'
      rw [bitsValue_cons, bitsValue_cons, hlen] at h
      have hb : b = b' := by cases b <;> cases b' <;> simp at h ⊢ <;> omega
      subst hb
      rw [ih hlen (Nat.add_left_cancel h)]

@[simp] theorem length_toBits (n v : Nat) : (toBits n v).length = n := by
  induction n with
  | zero => rfl
  | succ n ih => rw [toBits, List.length_cons, ih]

@[simp] theorem bitsValue_toBits (n v : Nat) : bitsValue (toBits n v) = v % 2 ^ n := by
  induction n with
  | zero => rw [pow_zero, Nat.mod_one]; rfl
  | succ n ih =>
    rw [toBits, bitsValue_cons, ih, length_toBits, Nat.toNat_testBit, Nat.mod_pow_succ]
    ring

/-! ## The additional bits' value (R204) -/

/-- Inverting the `n` bits of a number is taking it from `2 ^ n - 1`. -/
theorem xor_two_pow_sub_one {n x : Nat} (h : x < 2 ^ n) : x ^^^ (2 ^ n - 1) = 2 ^ n - 1 - x := by
  have hx : (BitVec.ofNat n x).toNat = x := Nat.mod_eq_of_lt h
  have hnot := congrArg BitVec.toNat (BitVec.xor_allOnes (x := BitVec.ofNat n x))
  rwa [BitVec.toNat_xor, BitVec.toNat_allOnes, BitVec.toNat_not, hx] at hnot

theorem signedMagnitude_true (a : List Bool) : signedMagnitude (true :: a) = (2 ^ a.length + bitsValue a : Nat) := by
  rw [signedMagnitude, bitsValue_cons, Bool.toNat_true, Nat.one_mul]

theorem signedMagnitude_false (a : List Bool) :
    signedMagnitude (false :: a) = (bitsValue a : Int) - (2 ^ (a.length + 1) - 1 : Nat) := by
  have hlt := bitsValue_lt (false :: a)
  rw [signedMagnitude, xor_two_pow_sub_one hlt]
  rw [bitsValue_false, List.length_cons] at *
  omega

/-- The magnitude of `k + 1` bits has the top bit of its `k + 1` bits set. -/
theorem signedMagnitude_range {k : Nat} {a : List Bool} (h : a.length = k + 1) :
    2 ^ k ≤ (signedMagnitude a).natAbs ∧ (signedMagnitude a).natAbs ≤ 2 ^ (k + 1) - 1 := by
  cases a with
  | nil => cases h
  | cons b a =>
    obtain rfl : a.length = k := Nat.succ.inj h
    have hlt := bitsValue_lt a
    cases b with
    | true => rw [signedMagnitude_true]; omega
    | false => rw [signedMagnitude_false]; omega

theorem signedMagnitude_inj {a a' : List Bool} (hl : a.length = a'.length)
    (h : signedMagnitude a = signedMagnitude a') : a = a' := by
  match a, a', hl with
  | [], [], _ => rfl
  | b :: a, b' :: a', hl =>
    have hlen : a.length = a'.length := Nat.succ.inj hl
    have hlt := hlen ▸ bitsValue_lt a
    have hlt' := bitsValue_lt a'
    cases b <;> cases b' <;> simp only [signedMagnitude_true, signedMagnitude_false, hlen] at h
    case false.false | true.true => rw [bitsValue_inj hlen (by omega)]
    case false.true | true.false => omega

/-- The bits of a value whose magnitude needs `k + 1` bits: a first bit that says its sign, then the rest. -/
theorem exists_signedMagnitude {k : Nat} {v : Int} (hlo : 2 ^ k ≤ v.natAbs) (hhi : v.natAbs ≤ 2 ^ (k + 1) - 1) :
    ∃ a : List Bool, a.length = k + 1 ∧ signedMagnitude a = v := by
  have hpos := Nat.two_pow_pos k
  have hpow : ((2 ^ k : Nat) : Int) = 2 ^ k := by push_cast; rfl
  rcases le_total 0 v with hv | hv
  · have hlt : v.natAbs - 2 ^ k < 2 ^ k := by omega
    refine ⟨true :: toBits k (v.natAbs - 2 ^ k), by simp, ?_⟩
    rw [signedMagnitude_true, length_toBits, bitsValue_toBits, Nat.mod_eq_of_lt hlt]
    omega
  · have hlt : 2 ^ (k + 1) - 1 - v.natAbs < 2 ^ k := by omega
    refine ⟨false :: toBits k (2 ^ (k + 1) - 1 - v.natAbs), by simp, ?_⟩
    rw [signedMagnitude_false, length_toBits, bitsValue_toBits, Nat.mod_eq_of_lt hlt]
    omega

/-- Settles O12: the bits of a value exist by its sign and its magnitude, and no two strings of one length share a value. -/
theorem signedMagnitudeIsABijection : Obligations.SignedMagnitudeIsABijection := by
  refine ⟨rfl, fun _ => rfl, fun a => ?_, fun n hn v => ?_⟩
  · rw [signedMagnitude_false, bitsValue_false, Nat.cast_sub Nat.one_le_two_pow]
    norm_cast
  · obtain ⟨k, rfl⟩ := Nat.exists_eq_add_of_le' hn
    constructor
    · rintro ⟨hlo, hhi⟩
      obtain ⟨a, hl, hv⟩ := exists_signedMagnitude hlo hhi
      exact ⟨a, ⟨hl, hv⟩, fun a' ⟨hl', hv'⟩ => signedMagnitude_inj (hl'.trans hl.symm) (hv'.trans hv.symm)⟩
    · rintro ⟨a, ⟨hl, rfl⟩, -⟩
      exact signedMagnitude_range hl

/-! ## Bit takes (R200) -/

/-- As many takes as the buffer has unread bits append those bits, the most significant first, and empty it. -/
theorem takeBit_iterate (n : Nat) (s : State) (h : s.bitcnt.val = n) :
    takeBit^[n] s = { s with bitcnt := 0, bits := s.bits ++ toBits n s.bitbuf.toNat } := by
  induction n generalizing s with
  | zero =>
    have h0 : s.bitcnt = 0 := Fin.ext h
    rw [Function.iterate_zero, id, toBits, List.append_nil, ← h0]
  | succ n ih =>
    have hn : (takeBit s).bitcnt.val = n := by simp [takeBit, h]
    have htop : topBit s = s.bitbuf.toNat.testBit n := by rw [topBit, h]; rfl
    rw [Function.iterate_succ_apply, ih _ hn]
    simp [takeBit, toBits, htop]

/-- R200: where an element needs a bit and the buffer holds one, the step takes it. -/
theorem step_of_needsBit {s : State} (ht : s.turns = []) (hn : needsBit s) (h0 : s.bitcnt.val ≠ 0) :
    step s = .next (takeBit s) := by
  rw [step_engine s ht, runBits_of_bits s _ hn, runBits, bitStep, if_neg h0]

/-- Settles O11: the step is one `takeBit`, and a refilled buffer is emptied by eight. -/
theorem nextBitIsMostSignificantFirst : Obligations.NextBitIsMostSignificantFirst :=
  ⟨fun _ => step_of_needsBit, fun s b => takeBit_iterate 8 (loadBits b s) rfl⟩

/-! ## Byte takes (R201) -/

/-- Settles O9: where a byte is due the step is a ReadByte, and its guards give the three cases. -/
theorem readByteTakesOneByte : Obligations.ReadByteTakesOneByte := by
  intro s ht hn
  rw [step_engine s ht, engineStep_of_needsByte hn]
  refine ⟨fun hl => ?_, fun hl ho => ?_, fun b last rest hl ho => ?_⟩
  · simp [readByte, hl]
  · simp [readByte, hl, ho]
  · simp [readByte, hl, ho]

/-! ## The decoded instruction (R110, R489) -/

/-- Where the bits taken stand for an instruction, the step runs it and clears them. -/
theorem step_of_elementBits {s : State} {i : Instr} (ht : s.turns = []) (h : elementBits s = some (.instr i)) :
    step s = exec i { s with bits := [] } := by
  rw [step_engine s ht, runBits_of_bits s _ h, runBits]

/-- Where the bytes taken stand for an instruction, the step runs it and clears them. -/
theorem step_of_readsFrom {s : State} {c : StreamCtx} {i : Instr} (ht : s.turns = []) (hc : ReadsFrom s c)
    (hd : decodeStream c s.fetched = .instr i) : step s = exec i { s with fetched := [] } := by
  rw [step_engine s ht, streamStep_of_reads s c hc, streamStep, hd, runBytes]

/-- A host turn runs the instruction its action stands for. -/
theorem step_of_host {s : State} {a : HostAction} {rest : List Turn} {i : Instr} (ht : s.turns = .host a :: rest)
    (hd : decodeHost a = .ok i) : step s = exec i { s with turns := rest } := by
  rw [step_turn s _ rest ht, turnStep, hd]

/-- Settles O8: place by place; the bits of an element and of a COEF are both `elementBits`. -/
theorem stepRunsTheDecodedInstruction : Obligations.StepRunsTheDecodedInstruction := by
  refine ⟨fun _ _ _ => step_of_readsFrom, fun s t c i ht hc hd => ?_, fun s r n i ht hs hp hd => ?_,
    fun _ _ _ _ => step_of_host, fun s rest ht => ?_⟩
  · exact step_of_elementBits ht (by rw [elementBits_of_ctx hc, hd])
  · exact step_of_elementBits ht (by rw [elementBits_of_value hs hp, hd, Decoded.toElement])
  · rw [step_turn s _ rest ht, turnStep]

/-! ## The classes of entropy-coded bytes (R202) -/

/-- Settles O14: each class's meaning is a refill or a raise. -/
theorem ecsBytesActByClass : Obligations.EcsBytesActByClass :=
  ⟨fun _ _ => rfl, fun _ => rfl, fun _ _ => rfl, fun _ _ => rfl⟩

end Sys2Proof.Machine
end

section
/-! The statements about Huffman codes: the code values of a table that passed its checks, which bits are a code, and NextSymbol's three outcomes. -/

namespace Sys2Proof.Machine

/-! ## The code values of a table (R231, R232) -/

section
variable (c : Vector Byte 16) (L : Nat)

/-- R232: the first code of the next length is twice the value after the last code of this one. -/
theorem codeStart_succ : codeStart c (L + 1) = 2 * (codeStart c L + countOf c L) := by
  have hdouble : ∀ l ∈ List.range L, countOf c l * 2 ^ (L + 1 - l) = countOf c l * 2 ^ (L - l) * 2 := by
    intro l hl
    rw [Nat.succ_sub (List.mem_range.1 hl).le, pow_succ, mul_assoc]
  rw [codeStart, List.range_succ, List.map_append, List.sum_append, List.map_congr_left hdouble, List.sum_map_mul_right,
    codeStart]
  simp
  ring

theorem codeOffset_succ : codeOffset c (L + 1) = codeOffset c L + countOf c L := by
  simp [codeOffset, List.range_succ]

/-- The Kraft sum is the value after the last code of length 16. -/
theorem kraftSum_eq : kraftSum c = codeStart c 16 + countOf c 16 := by
  simp [kraftSum, List.range_succ (n := 16), codeStart]

theorem totalOf_eq : totalOf c = codeOffset c 17 := rfl

/-- R237: the codes of every greater length lie past all continuations of the codes of length `L`. -/
theorem codeEnd_mul_le_codeStart (n : Nat) :
    (codeStart c L + countOf c L) * 2 ^ (n + 1) ≤ codeStart c (L + n + 1) := by
  induction n with
  | zero => rw [codeStart_succ]; omega
  | succ n ih =>
    calc (codeStart c L + countOf c L) * 2 ^ (n + 1 + 1)
        = 2 * ((codeStart c L + countOf c L) * 2 ^ (n + 1)) := by ring
      _ ≤ 2 * (codeStart c (L + n + 1) + countOf c (L + n + 1)) := by omega
      _ = codeStart c (L + (n + 1) + 1) := (codeStart_succ c _).symm

theorem codeOffset_mono : Monotone (codeOffset c) :=
  monotone_nat_of_le_succ fun l => by rw [codeOffset_succ]; omega

end

section
variable {t : HuffTable} {L j : Nat}

/-- R231: the codes of length `L` fit in `L` bits. -/
theorem Built.codeEnd_le (h : Built t) (hL : L ≤ 16) : codeStart t.counts L + countOf t.counts L ≤ 2 ^ L := by
  have hk := kraftSum_eq t.counts ▸ h.kraft
  obtain rfl | hlt := hL.eq_or_lt
  · exact hk
  · obtain ⟨n, hn⟩ := Nat.exists_eq_add_of_lt hlt
    have hle : (codeStart t.counts L + countOf t.counts L) * 2 ^ (n + 1) ≤ 2 ^ L * 2 ^ (n + 1) := by
      have hmul := codeEnd_mul_le_codeStart t.counts L n
      rw [← hn] at hmul
      rw [← pow_add, ← Nat.add_assoc, ← hn]
      omega
    exact Nat.le_of_mul_le_mul_right hle (Nat.two_pow_pos _)

/-- R230: the table holds a symbol for each of its codes. -/
theorem Built.exists_symbol (h : Built t) (hL : L ≤ 16) (hj : j < countOf t.counts L) :
    ∃ sym, t.symbols[codeOffset t.counts L + j]? = some sym := by
  have hmono : codeOffset t.counts (L + 1) ≤ codeOffset t.counts 17 := codeOffset_mono _ (by omega)
  rw [codeOffset_succ, ← totalOf_eq, ← h.symbols] at hmono
  exact ⟨_, List.getElem?_eq_getElem (by omega)⟩

/-! ## Which bits are a code (R236) -/

@[simp] theorem length_codeBits : (codeBits t L j).length = L := length_toBits _ _

theorem Built.bitsValue_codeBits (h : Built t) (hL : L ≤ 16) (hj : j < countOf t.counts L) :
    bitsValue (codeBits t L j) = codeStart t.counts L + j := by
  have hend := h.codeEnd_le hL
  rw [codeBits, bitsValue_toBits, Nat.mod_eq_of_lt (by omega)]

/-- The bits of the code's length and value are the code. -/
theorem Built.eq_codeBits (h : Built t) (hL : L ≤ 16) (hj : j < countOf t.counts L) {p : List Bool} (hp : p.length = L)
    (hv : bitsValue p = codeStart t.counts L + j) : p = codeBits t L j :=
  bitsValue_inj (by rw [hp, length_codeBits]) (by rw [hv, h.bitsValue_codeBits hL hj])

theorem bitsValue_append (p q : List Bool) : bitsValue (p ++ q) = bitsValue p * 2 ^ q.length + bitsValue q := by
  rw [bitsValue, List.foldl_append, foldl_bits_eq, ← bitsValue]

theorem bitsValue_concat (p : List Bool) (b : Bool) : bitsValue (p ++ [b]) = 2 * bitsValue p + b.toNat := by
  rw [bitsValue, List.foldl_concat, ← bitsValue]

/-- R237: a code's continuations lie below the codes of every greater length. -/
theorem Built.codeBits_not_prefix (h : Built t) {L' j' : Nat} (hlt : L < L') (hL' : L' ≤ 16)
    (hj : j < countOf t.counts L) (hj' : j' < countOf t.counts L') : ¬ codeBits t L j <+: codeBits t L' j' := by
  rintro ⟨q, hq⟩
  obtain ⟨n, rfl⟩ := Nat.exists_eq_add_of_lt hlt
  have hlen : q.length = n + 1 := by
    have := congrArg List.length hq
    rw [List.length_append, length_codeBits, length_codeBits] at this
    omega
  have hval := congrArg bitsValue hq
  rw [bitsValue_append, h.bitsValue_codeBits (by omega) hj, h.bitsValue_codeBits hL' hj', hlen] at hval
  have hlast := hlen ▸ bitsValue_lt q
  have hend := codeEnd_mul_le_codeStart t.counts L n
  have hcode : (codeStart t.counts L + j + 1) * 2 ^ (n + 1) ≤ (codeStart t.counts L + countOf t.counts L) * 2 ^ (n + 1) :=
    Nat.mul_le_mul_right _ (by omega)
  rw [Nat.add_one_mul] at hcode
  omega

/-- Two codes at the front of the same bits are one code. -/
theorem Built.codeBits_unique (h : Built t) {L' j' : Nat} {rest rest' : List Bool} (hL : L ≤ 16) (hL' : L' ≤ 16)
    (hj : j < countOf t.counts L) (hj' : j' < countOf t.counts L')
    (e : codeBits t L j ++ rest = codeBits t L' j' ++ rest') : L = L' ∧ j = j' ∧ rest = rest' := by
  have hone := List.prefix_or_prefix_of_prefix ⟨rest, e⟩ (List.prefix_append (codeBits t L' j') rest')
  obtain rfl : L = L' := by
    rcases hone with hp | hp
    · exact (by simpa using hp.length_le : L ≤ L').eq_of_not_lt fun hlt => h.codeBits_not_prefix hlt hL' hj hj' hp
    · exact (by simpa using hp.length_le : L' ≤ L).eq_of_not_lt' fun hlt => h.codeBits_not_prefix hlt hL hj' hj hp
  obtain ⟨hc, hrest⟩ := List.append_inj e (by simp)
  have hval := congrArg bitsValue hc
  rw [h.bitsValue_codeBits hL hj, h.bitsValue_codeBits hL hj'] at hval
  exact ⟨rfl, by omega, hrest⟩

end

/-! ## NextSymbol's test, as a test of bits (R233) -/

/-- R233's membership test of the bits taken so far. -/
def matchBits (t : HuffTable) (p : List Bool) : Option Byte := matchCode t p.length (bitsValue p)

theorem matchCode_some {t : HuffTable} {L c : Nat} {sym : Byte} (h : matchCode t L c = some sym) :
    ∃ j, j < countOf t.counts L ∧ c = codeStart t.counts L + j ∧ t.symbols[codeOffset t.counts L + j]? = some sym := by
  unfold matchCode at h
  split at h
  · rename_i hc
    obtain ⟨-, hlo, hhi⟩ := hc
    obtain ⟨j, rfl⟩ := Nat.exists_eq_add_of_le hlo
    refine ⟨j, by omega, rfl, ?_⟩
    rwa [← Nat.add_left_comm, Nat.add_sub_cancel_left] at h
  · cases h

theorem matchCode_code {t : HuffTable} {L j : Nat} (hj : j < countOf t.counts L) :
    matchCode t L (codeStart t.counts L + j) = t.symbols[codeOffset t.counts L + j]? := by
  rw [matchCode, if_pos ⟨by omega, by omega, by omega⟩, ← Nat.add_left_comm, Nat.add_sub_cancel_left]

/-- Bits that match are a code of the table, and their symbol is that code's. -/
theorem Built.matchBits_some {t : HuffTable} (h : Built t) {p : List Bool} (hp : p.length ≤ 16) {sym : Byte}
    (hm : matchBits t p = some sym) : ∃ j, j < countOf t.counts p.length ∧ p = codeBits t p.length j ∧
      t.symbols[codeOffset t.counts p.length + j]? = some sym := by
  obtain ⟨j, hj, hv, hs⟩ := matchCode_some hm
  exact ⟨j, hj, h.eq_codeBits hp hj rfl hv, hs⟩

theorem Built.matchBits_codeBits {t : HuffTable} (h : Built t) {L j : Nat} (hL : L ≤ 16) (hj : j < countOf t.counts L) :
    matchBits t (codeBits t L j) = t.symbols[codeOffset t.counts L + j]? := by
  rw [matchBits, length_codeBits, h.bitsValue_codeBits hL hj, matchCode_code hj]

/-! ## NextSymbol (R233, R234) -/

section
variable {t : HuffTable} {p : List Bool} {b : Bool}

theorem nextSymbolFrom_of_match (hp : p.length < 16) {sym : Byte} (hm : matchBits t (p ++ [b]) = some sym)
    (bs : List Bool) : nextSymbolFrom t p.length (bitsValue p) (b :: bs) = .found sym bs := by
  rw [matchBits, bitsValue_concat, List.length_append, List.length_singleton] at hm
  rw [nextSymbolFrom, if_neg (by omega), hm]

theorem nextSymbolFrom_of_noMatch (hp : p.length < 16) (hm : matchBits t (p ++ [b]) = none) (bs : List Bool) :
    nextSymbolFrom t p.length (bitsValue p) (b :: bs) = nextSymbolFrom t (p ++ [b]).length (bitsValue (p ++ [b])) bs := by
  rw [matchBits] at hm
  rw [bitsValue_concat, List.length_append, List.length_singleton] at hm ⊢
  rw [nextSymbolFrom, if_neg (by omega), hm]

end

/-- R233's loop with the bits `p` taken: the first continuation that matches is found, and else all the bits are taken,
up to sixteen. -/
theorem nextSymbolFrom_cases (t : HuffTable) (bits p : List Bool) (hp : p.length ≤ 16) :
    (∃ q sym rest, q ≠ [] ∧ bits = q ++ rest ∧ p.length + q.length ≤ 16 ∧ matchBits t (p ++ q) = some sym ∧
      nextSymbolFrom t p.length (bitsValue p) bits = .found sym rest) ∨
    ((∀ q, q ≠ [] → q <+: bits → p.length + q.length ≤ 16 → matchBits t (p ++ q) = none) ∧
      nextSymbolFrom t p.length (bitsValue p) bits = if 16 ≤ p.length + bits.length then .notFound else .more) := by
  induction bits generalizing p with
  | nil => exact .inr ⟨fun q hq hb => absurd (List.prefix_nil.1 hb) hq, rfl⟩
  | cons b bs ih =>
    by_cases hfull : 16 ≤ p.length
    · refine .inr ⟨fun q hq _ hl => ?_, ?_⟩
      · have := List.length_pos_of_ne_nil hq
        omega
      · rw [nextSymbolFrom, if_pos hfull, if_pos (by omega)]
    have hlt : p.length < 16 := Nat.not_le.1 hfull
    have hlen : (p ++ [b]).length = p.length + 1 := List.length_append
    cases hm : matchBits t (p ++ [b]) with
    | some sym => exact .inl ⟨[b], sym, bs, nofun, rfl, hlt, hm, nextSymbolFrom_of_match hlt hm bs⟩
    | none =>
      rw [nextSymbolFrom_of_noMatch hlt hm]
      obtain ⟨q, sym, rest, -, rfl, hl, hq, hr⟩ | ⟨hnone, hr⟩ := ih (p ++ [b]) (by omega)
      · exact .inl ⟨b :: q, sym, rest, nofun, rfl, by rw [List.length_cons]; omega, by simpa using hq, hr⟩
      · refine .inr ⟨fun q hq hb hl => ?_, by rw [hr, hlen, List.length_cons, Nat.add_right_comm, Nat.add_assoc]⟩
        obtain ⟨q, rfl, hq'⟩ := (List.prefix_cons_iff.1 hb).resolve_left hq
        by_cases hn : q = []
        · subst hn; exact hm
        · simpa using hnone q hn hq' (by rw [List.length_cons] at hl; omega)

/-- In a table that passed its checks: the code at the front of the bits is found, and without one NextSymbol asks for more
bits, or has taken sixteen. -/
theorem Built.nextSymbol_cases {t : HuffTable} (h : Built t) (bits : List Bool) :
    (∃ L j sym rest, 1 ≤ L ∧ L ≤ 16 ∧ j < countOf t.counts L ∧ bits = codeBits t L j ++ rest ∧
      t.symbols[codeOffset t.counts L + j]? = some sym ∧ nextSymbol t bits = .found sym rest) ∨
    ((∀ L j, 1 ≤ L → L ≤ 16 → j < countOf t.counts L → ¬ codeBits t L j <+: bits) ∧
      nextSymbol t bits = if 16 ≤ bits.length then .notFound else .more) := by
  obtain ⟨q, sym, rest, hq, rfl, hl, hm, hr⟩ | ⟨hnone, hr⟩ := nextSymbolFrom_cases t bits [] (by simp)
  · have hl : q.length ≤ 16 := by simpa using hl
    obtain ⟨j, hj, hcode, hs⟩ := h.matchBits_some hl hm
    exact .inl ⟨q.length, j, sym, rest, List.length_pos_of_ne_nil hq, hl, hj, by rw [← hcode], hs, hr⟩
  · refine .inr ⟨fun L j h1 hL hj hp => ?_, by simpa [nextSymbol] using hr⟩
    have hc : matchBits t (codeBits t L j) = none :=
      hnone _ (List.ne_nil_of_length_pos (length_codeBits.symm ▸ h1)) hp (by simpa using hL)
    obtain ⟨sym, hs⟩ := h.exists_symbol hL hj
    rw [h.matchBits_codeBits hL hj, hs] at hc
    cases hc

/-- Settles O5: what NextSymbol finds at the front of `code ++ rest` is `code`, since no other code stands there. -/
theorem huffmanCodesDecode : Obligations.HuffmanCodesDecode := by
  intro t h L j h1 hL hj
  refine ⟨length_codeBits, h.bitsValue_codeBits hL hj, fun code rest hlen hval => ?_⟩
  obtain rfl := h.eq_codeBits hL hj hlen hval
  obtain ⟨L', j', sym, rest', -, hL', hj', hbits, hs, hr⟩ | ⟨hnone, -⟩ := h.nextSymbol_cases (codeBits t L j ++ rest)
  · obtain ⟨rfl, rfl, rfl⟩ := h.codeBits_unique hL hL' hj hj' hbits
    exact ⟨sym, hs, hr⟩
  · exact absurd (List.prefix_append _ _) (hnone L j h1 hL hj)

/-- Settles O6: a code's continuations lie below the codes of every greater length. -/
theorem huffmanCodesArePrefixFree : Obligations.HuffmanCodesArePrefixFree :=
  fun _ h _ _ _ _ _ hlt hL' hj hj' => h.codeBits_not_prefix hlt hL' hj hj'

/-- R234: where an element's bits are not found, the step raises HUFF_NOT_FOUND. -/
theorem step_of_notFound {s : State} {t : HuffTable} {c : ElementCtx} (ht : s.turns = [])
    (hc : elementCtx s = some (t, c)) (hn : nextSymbol t s.bits = .notFound) :
    step s = .next (raise .huffNotFound s) := by
  rw [step_engine s ht, runBits_of_element s t c hc, decodeElement, hn, runBits]

/-- Settles O7: each outcome is one of the cases of `Built.nextSymbol_cases`. -/
theorem nextSymbolOutcomes : Obligations.NextSymbolOutcomes := by
  refine ⟨fun t h bits => ?_, fun _ _ _ => step_of_notFound⟩
  obtain ⟨L, j, sym, rest, h1, hL, hj, hbits, hs, hr⟩ | ⟨hnone, hr⟩ := h.nextSymbol_cases bits
  · have hfound : ∀ {P : Prop}, ¬ (P ∧ ∀ L j, 1 ≤ L → L ≤ 16 → j < countOf t.counts L → ¬ codeBits t L j <+: bits) :=
      fun hp => hp.2 L j h1 hL hj ⟨rest, hbits.symm⟩
    rw [hr]
    refine ⟨fun _ _ e => ?_, ⟨nofun, fun hp => absurd hp hfound⟩, ⟨nofun, fun hp => absurd hp hfound⟩⟩
    cases e
    exact ⟨L, j, h1, hL, hj, hbits, hs⟩
  · by_cases hl : 16 ≤ bits.length
    · rw [hr, if_pos hl]
      exact ⟨nofun, ⟨nofun, fun hp => absurd hl (by omega)⟩, ⟨fun _ => ⟨hl, hnone⟩, fun _ => rfl⟩⟩
    · rw [hr, if_neg hl]
      exact ⟨nofun, ⟨fun _ => ⟨by omega, hnone⟩, fun _ => rfl⟩, ⟨nofun, fun hp => absurd hp.1 hl⟩⟩

end Sys2Proof.Machine
end

section
/-! The statement that every step keeps the machine's invariant: what it asks of the storage, its parts for each kind of control state, and the engine's actions and the host's place by place. -/

namespace Sys2Proof.Machine

/-! ## The fields the invariant reads -/

/-- `t` with the frame record of `s` (R36). -/
def State.withFrame (t s : State) : State :=
  { t with
    frameValid := s.frameValid, precision := s.precision, height := s.height, width := s.width, nf := s.nf
    comp := s.comp, hmax := s.hmax, vmax := s.vmax }

/-- `t` with the frame record and the tables of `s` (R34 to R36). -/
def State.withStore (t s : State) : State :=
  { t.withFrame s with
    qt := s.qt, qtValid := s.qtValid, htDc := s.htDc, htDcValid := s.htDcValid, htAc := s.htAc, htAcValid := s.htAcValid }

/-- `t` with the frame record, the tables and the scan positions of `s` (R34 to R37). -/
def State.withScan (t s : State) : State :=
  { t.withStore s with scanValid := s.scanValid, sc := s.sc }

/-- `s` with all that the invariant does not read taken from `t`. -/
def State.withUnread (s t : State) : State :=
  { s with
    pos := t.pos, bitbuf := t.bitbuf, inScan := t.inScan, coef := t.coef, samples := t.samples
    warnLastId := t.warnLastId, pixelsOut := t.pixelsOut, irqEn := t.irqEn, irqStatus := t.irqStatus
    lastSeen := t.lastSeen, fetched := t.fetched, bits := t.bits, offered := t.offered, busRead := t.busRead
    turns := t.turns, freeCtr := t.freeCtr }

section
variable {s t : State}

theorem TablesOk.congr (h : TablesOk s) (ht : t = t.withStore s := by rfl) : TablesOk t := by
  rw [ht]
  exact ⟨h.dc, h.ac, h.qt⟩

theorem FrameOk.congr (h : FrameOk s) (ht : t = t.withFrame s := by rfl) : FrameOk t := by
  rw [ht]
  exact ⟨h.precision, h.nf, h.sampling, h.ids, h.hmax, h.vmax⟩

/-- A scan keeps its frame and tables, wherever in the frame it moves. -/
theorem ScanOk.moved (h : ScanOk s) (hx : t.xPos.toNat = 0 ∨ t.xPos.toNat < t.width.toNat) (hc : CursorOk t)
    (ht : t = t.withScan s := by rfl) : ScanOk t := by
  rw [ht] at hx hc ⊢
  exact ⟨h.frame, h.scan, h.distinct, h.tables, hx, hc⟩

/-- What the invariant asks of the storage, whatever the control state. -/
structure StoredOk (s : State) : Prop where
  tables : TablesOk s
  frame  : s.frameValid = true → FrameOk s
  pred   : ∀ c : Fin 3, inRange Config.predWidth s.pred[c] = true
  warn   : s.warn = true ↔ s.warnCount ≠ 0#8
  rem    : s.rem % 65 = 0
  raster : s.raster.wf = true

theorem Inv.stored (h : Inv s) : StoredOk s := ⟨h.tables, h.frame, h.pred, h.warn, h.rem, h.raster⟩

theorem StoredOk.framed (h : StoredOk s) (ht : t = t.withFrame s := by rfl) : t.frameValid = true → FrameOk t := by
  rw [ht]
  exact fun hv => (h.frame hv).congr

theorem StoredOk.congr (h : StoredOk s) (ht : t = t.withStore s := by rfl) (hp : t.pred = s.pred := by rfl)
    (hw : t.warn = s.warn := by rfl) (hn : t.warnCount = s.warnCount := by rfl) (hr : t.rem = s.rem := by rfl)
    (hm : t.raster = s.raster := by rfl) : StoredOk t :=
  ⟨h.tables.congr ht, h.framed (by rw [ht]; rfl), hp ▸ h.pred, hw ▸ hn ▸ h.warn, hr ▸ h.rem, hm ▸ h.raster⟩

/-- What the invariant does not read may change freely. -/
theorem Inv.congr (h : Inv s) (ht : t = s.withUnread t := by rfl) : Inv t := by
  have hst : StoredOk (s.withUnread t) := h.stored.congr
  rw [ht]
  exact {
    tables := hst.tables
    frame := hst.frame
    scan := fun hs => (h.scan hs).moved (h.scan hs).column (h.scan hs).cursor
    ended := h.ended
    error := h.error
    pred := hst.pred
    cursor := h.cursor
    align := h.align
    warn := hst.warn
    rem := hst.rem
    raster := hst.raster }

/-! ## The invariant by control state -/

/-- Nothing is recorded (R42). -/
def NoError (s : State) : Prop := s.errKind = 0#3 ∧ s.errCause = 0#8 ∧ s.errPos = 0#32

theorem SameError.noError (h : SameError s t) (hn : NoError s) : NoError t := by
  obtain ⟨hk, hc, hp⟩ := h
  rwa [NoError, hk, hc, hp]

theorem Inv.noError (h : Inv s) (hs : s.state ≠ .error) : NoError s := by
  have he := h.error
  rwa [ErrorOk, if_neg hs] at he

theorem Inv.cursor_le (h : Inv s) (hs : s.state ≠ .error) : s.k ≤ 64 := by
  have hk := h.cursor
  rwa [AcCursorOk, if_neg hs] at hk

theorem Inv.of_error (h : StoredOk s) (hs : s.state = .error)
    (he : ∃ c : Cause, s.errKind = c.kind.code ∧ s.errCause = c.code) (hk : s.k ≤ 78) : Inv s where
  tables := h.tables
  frame := h.frame
  scan hn := nomatch hs.symm.trans hn
  ended hn := by rcases hn with hn | hn <;> cases hs.symm.trans hn
  error := by rwa [ErrorOk, if_pos hs]
  pred := h.pred
  cursor := by rwa [AcCursorOk, if_pos hs]
  align _ hn := absurd hs hn
  warn := h.warn
  rem := h.rem
  raster := h.raster

/-- R442: an error entry keeps the storage and records its cause. -/
theorem StoredOk.raise (h : StoredOk s) (c : Cause) (hk : s.k ≤ 78) : Inv (raise c s) :=
  .of_error h.congr rfl ⟨c, rfl, rfl⟩ hk

theorem Inv.raise (h : Inv s) (c : Cause) (hs : s.state ≠ .error) : Inv (raise c s) :=
  h.stored.raise c ((h.cursor_le hs).trans (by decide))

/-- What the invariant asks outside ERROR, whatever the place. -/
structure QuietOk (s : State) : Prop where
  stored  : StoredOk s
  noError : NoError s
  cursor  : s.k ≤ 64

theorem QuietOk.inv (h : QuietOk s) (hs : s.state ≠ .error) (hscan : s.state = .scan → ScanOk s)
    (hended : s.state = .expectEoi ∨ s.state = .done → s.frameValid = true ∧ s.scanValid = true)
    (halign : s.state ≠ .scan → s.bitcnt = 0) : Inv s where
  tables := h.stored.tables
  frame := h.stored.frame
  scan := hscan
  ended := hended
  error := by rw [ErrorOk, if_neg hs]; exact h.noError
  pred := h.stored.pred
  cursor := by rw [AcCursorOk, if_neg hs]; exact h.cursor
  align hn _ := halign hn
  warn := h.stored.warn
  rem := h.stored.rem
  raster := h.stored.raster

theorem QuietOk.inv_segments (h : QuietOk s) (hs : s.state = .segments) (hb : s.bitcnt = 0) : Inv s :=
  h.inv (by rw [hs]; nofun) (by rw [hs]; nofun) (by rw [hs]; nofun) fun _ => hb

theorem QuietOk.inv_ended (h : QuietOk s) (hs : s.state = .expectEoi ∨ s.state = .done) (hb : s.bitcnt = 0)
    (hv : s.frameValid = true ∧ s.scanValid = true) : Inv s :=
  h.inv (by rcases hs with hs | hs <;> rw [hs] <;> nofun) (by rcases hs with hs | hs <;> rw [hs] <;> nofun) (fun _ => hv)
    fun _ => hb

theorem QuietOk.inv_scan (h : QuietOk s) (hs : s.state = .scan) (hscan : ScanOk s) : Inv s :=
  h.inv (by rw [hs]; nofun) (fun _ => hscan) (by rw [hs]; nofun) fun hn => absurd hs hn

/-- A move inside the scan. -/
theorem Inv.scan_moved (h : Inv s) (hs : s.state = .scan) (hst : StoredOk t) (hk : t.k ≤ 64)
    (hx : t.xPos.toNat = 0 ∨ t.xPos.toNat < t.width.toNat) (hc : CursorOk t) (ht : t.state = s.state := by rfl)
    (he : SameError s t := by exact ⟨rfl, rfl, rfl⟩) (hscan : t = t.withScan s := by rfl) : Inv t :=
  QuietOk.inv_scan ⟨hst, he.noError (h.noError (by rw [hs]; nofun)), hk⟩ (ht.trans hs) ((h.scan hs).moved hx hc hscan)

/-- A move of the cursor or of the bit buffer alone. -/
theorem Inv.cursor_moved (h : Inv s) (hs : s.state = .scan) (hc : CursorOk t)
    (ht : t = { s.withUnread t with cur := t.cur, bitcnt := t.bitcnt } := by rfl) : Inv t := by
  rw [ht] at hc ⊢
  exact h.scan_moved hs h.stored.congr (h.cursor_le (by rw [hs]; nofun)) (h.scan hs).column hc

/-- R70: after the block's reset or START nothing is valid, nothing is recorded and the buffer is empty. -/
theorem inv_blockReset (h : s.raster.wf = true) : Inv (blockReset s) where
  tables := ⟨fun i hi => by simp at hi, fun i hi => by simp at hi, fun i hi => by simp at hi⟩
  frame := nofun
  scan := nofun
  ended := nofun
  error := ⟨rfl, rfl, rfl⟩
  pred := by rw [blockReset_pred]; decide
  cursor := Nat.le_of_lt_succ (Config.freeK s.freeCtr).isLt
  align _ _ := rfl
  warn := by rw [blockReset_warn, blockReset_warnCount]; decide
  rem := rfl
  raster := h

theorem inv_applyStart (h : s.raster.wf = true) : Inv (applyStart s) :=
  have hr := inv_blockReset h
  QuietOk.inv ⟨hr.stored.congr, hr.noError nofun, hr.cursor_le nofun⟩ nofun nofun nofun fun _ => rfl

end

/-! ## Where the scan stands in a block -/

/-- R371, R372: an MCU inside the frame, and a block of the current component. -/
def InBlock (s : State) : Prop :=
  s.yPos.toNat < s.height.toNat ∧ s.cur.row < (s.comp[curComp s]).V.toNat ∧ s.cur.col < (s.comp[curComp s]).H.toNat

section
variable {s : State}

theorem cursorOk_block (hp : s.cur.phase = .dc ∨ s.cur.phase = .ac ∨ s.cur.phase = .finish) : CursorOk s ↔ InBlock s := by
  rcases hp with hp | hp | hp <;> simp [CursorOk, InBlock, hp]

theorem cursorOk_value {r n : BitVec 4} (hp : s.cur.phase = .value r n) :
    CursorOk s ↔ InBlock s ∧ s.k ≤ 63 ∧ n ≠ 0#4 := by
  simp [CursorOk, InBlock, hp, and_assoc]

theorem cursorOk_emit (hp : s.cur.phase = .emit) :
    CursorOk s ↔ s.yPos.toNat < s.height.toNat ∧ s.cur.px < 8 * s.hmax.toNat ∧ s.cur.py ≤ 8 * s.vmax.toNat := by
  simp [CursorOk, hp]

theorem cursorOk_of_block (hp : s.cur.phase = .dc ∨ s.cur.phase = .ac ∨ s.cur.phase = .finish) (h : InBlock s) :
    CursorOk s := (cursorOk_block hp).2 h

theorem cursorOk_of_value {r n : BitVec 4} (hp : s.cur.phase = .value r n) (h : InBlock s ∧ s.k ≤ 63 ∧ n ≠ 0#4) :
    CursorOk s := (cursorOk_value hp).2 h

theorem cursorOk_of_emit (hp : s.cur.phase = .emit)
    (h : s.yPos.toNat < s.height.toNat ∧ s.cur.px < 8 * s.hmax.toNat ∧ s.cur.py ≤ 8 * s.vmax.toNat) : CursorOk s :=
  (cursorOk_emit hp).2 h

theorem cursorOk_loop (hp : s.cur.phase = .loop) : CursorOk s := by
  simp [CursorOk, hp]

/-- An element is read inside a block. -/
theorem BitsInstr.inBlock {i : Instr} (hi : BitsInstr s i) (hc : CursorOk s) : InBlock s := by
  cases hi with
  | dcZero hp | dcDiff _ _ hp | dcTooWide _ hp => exact (cursorOk_block (.inl hp)).1 hc
  | eob hp _ | zrl hp _ | zsr _ hp _ | run _ _ hp _ _ => exact (cursorOk_block (.inr (.inl hp))).1 hc
  | value _ _ _ _ hp => exact ((cursorOk_value hp).1 hc).1

/-- A checked frame has sampling factors of at least 1. -/
theorem FrameOk.sampling_pos (h : FrameOk s) (c : Fin 3) : 0 < (s.comp[c]).V.toNat ∧ 0 < (s.comp[c]).H.toNat := by
  obtain ⟨hH, hV⟩ := h.sampling c
  constructor
  · exact Nat.pos_of_ne_zero fun h0 => hV (BitVec.eq_of_toNat_eq h0)
  · exact Nat.pos_of_ne_zero fun h0 => hH (BitVec.eq_of_toNat_eq h0)

theorem FrameOk.hmax_pos (h : FrameOk s) : 0 < s.hmax.toNat := by
  have h0 := (h.sampling_pos 0).2
  rw [h.hmax]
  exact lt_max_of_lt_left h0

end

/-! ## What the stored values must pass (R316, R318 to R320) -/

/-- Storing a value of a registry that passes its check keeps all valid values checked. -/
theorem forall_valid_set {α : Type} {P : α → Prop} {v : Vector α 16} {valid : Vector Bool 16}
    (h : ∀ i : Fin 16, valid[i] = true → P v[i]) (j : Fin 16) {x : α} (hx : P x) (i : Fin 16)
    (hi : (valid.set j true)[i] = true) : P (v.set j x)[i] := by
  simp only [Fin.getElem_fin, Vector.getElem_set] at hi ⊢
  split
  · exact hx
  · rename_i hn
    rw [if_neg hn] at hi
    exact h i hi

/-- R262: the entries of a built table are bytes. -/
theorem buildQt_le (qzz : Block Byte) (n : Fin 64) : ((buildQt qzz)[n]).toNat ≤ 255 := by
  have hlt := (qzz[n2zz n]).isLt
  simp only [buildQt, Fin.getElem_fin, Vector.getElem_ofFn, BitVec.toNat_setWidth] at hlt ⊢
  omega

/-- Three pairwise distinct values tell their positions apart. -/
theorem injective_of_ne {α : Type} {f : Fin 3 → α} (h01 : f 0 ≠ f 1) (h02 : f 0 ≠ f 2) (h12 : f 1 ≠ f 2) :
    Function.Injective f := by
  intro i j hij
  revert hij
  fin_cases i <;> fin_cases j <;> simp [h01, h02, h12, h01.symm, h02.symm, h12.symm]

theorem toNat_max3 (a b c : BitVec 4) : (max3 a b c).toNat = max a.toNat (max b.toNat c.toNat) := by
  have ha := a.isLt
  have hb := b.isLt
  have hc := c.isLt
  rw [max3, BitVec.toNat_ofNat]
  omega

section
variable {s : State}

theorem StoredOk.storeQt (h : StoredOk s) (i : Fin 16) (qzz : Block Byte) : StoredOk (storeQt i (buildQt qzz) s) :=
  have hbytes := forall_valid_set (P := fun q : Block (BitVec 16) => ∀ n : Fin 64, (q[n]).toNat ≤ 255) h.tables.qt i
    (buildQt_le qzz)
  ⟨⟨h.tables.dc, h.tables.ac, hbytes⟩, h.framed, h.pred, h.warn, h.rem, h.raster⟩

theorem StoredOk.storeHt (h : StoredOk s) (ref : Byte) {t : HuffTable} (ht : Built t) : StoredOk (storeHt ref t s) := by
  have hdc := forall_valid_set h.tables.dc (slot (loNibble ref)) ht
  have hac := forall_valid_set h.tables.ac (slot (loNibble ref)) ht
  unfold Machine.storeHt
  split
  · exact ⟨⟨h.tables.dc, hac, h.tables.qt⟩, h.framed, h.pred, h.warn, h.rem, h.raster⟩
  · exact ⟨⟨hdc, h.tables.ac, h.tables.qt⟩, h.framed, h.pred, h.warn, h.rem, h.raster⟩

/-- R319, R320: the frame stored after the checks. -/
theorem frameOk_storeFrame {L : Half} {b : Sof0Body} {cs : Vector FrameSpec 3} (hn : sof0Cause L b.nf = none)
    (hf : frameCause b.precision cs = none) : FrameOk (storeFrame b cs s) := by
  obtain ⟨hp, hv, h01, h02, h12⟩ := frameCause_none hf
  have hcomp : ∀ i : Fin 3, (storeFrame b cs s).comp[i] = frameComp cs[i] := fun i => by simp [storeFrame]
  refine ⟨hp, sof0Cause_none hn, fun i => ?_, fun i j hij => ?_, ?_, ?_⟩
  · rw [hcomp]
    exact hv i
  · rw [hcomp, hcomp] at hij
    exact injective_of_ne (f := fun k : Fin 3 => cs[k].id) h01 h02 h12 hij
  · exact toNat_max3 _ _ _
  · exact toNat_max3 _ _ _

end

/-! ## What an instruction the engine reads leaves of the storage -/

/-- A DHT segment that passes its header checks has come with all its symbols (R318). -/
def DhtWhole (i : Instr) : Prop :=
  ∀ L b, i = .dht L (some b) → dhtCause L b.table.counts = none → b.table.symbols.length = totalOf b.table.counts

theorem dhtWhole_of_decodeStream {c : StreamCtx} {l : List Byte} {i : Instr} (h : decodeStream c l = .instr i) :
    DhtWhole i := by
  rintro L b rfl
  cases c with
  | soi => obtain ⟨_, _, hi⟩ := decodeStream_soi _ _ h; cases hi
  | segments fv rem => exact decodeStream_dht_length fv rem l L b h
  | eoi => obtain ⟨_, _, hi⟩ := decodeStream_eoi _ _ h; cases hi
  | ecs => rcases decodeStream_ecs _ _ h with ⟨_, hi⟩ | hi | ⟨_, hi⟩ | ⟨_, hi⟩ <;> cases hi

section
variable {s t : State}

theorem exec_frame_of_read {i : Instr} (hi : isHostInstr i = false) (e : exec i s = .next t) : ExecFrame i s t :=
  exec_frame (fun _ => ⟨(by rintro rfl; cases hi), (by rintro rfl; cases hi), (by rintro rfl; cases hi)⟩) e

theorem StorageFrame.withStore {i : Instr} (f : StorageFrame i s t) (hq : ∀ tq qzz, i ≠ .dqt (.record tq qzz))
    (hh : ∀ L b, i ≠ .dht L b) (hf : ∀ L b, i ≠ .sof0 L b) : t = t.withStore s := by
  obtain ⟨q1, q2, -⟩ := f.quant hq
  obtain ⟨h1, h2, h3, h4⟩ := f.huff hh
  obtain ⟨f1, f2, f3, f4, f5, f6, f7, f8⟩ := f.frame hf
  rw [State.withStore, State.withFrame, ← q1, ← q2, ← h1, ← h2, ← h3, ← h4, ← f1, ← f2, ← f3, ← f4, ← f5, ← f6, ← f7, ← f8]

theorem satSucc_ne_zero (n : Byte) : satSucc n ≠ 0#8 := by revert n; decide

/-- R315: the payload of a DQT segment is whole records. -/
theorem dqtCause_none {L : Half} (h : dqtCause L = none) : (L.toNat - 2) % 65 = 0 := by
  unfold dqtCause at h
  split at h
  · cases h
  split at h
  · cases h
  · rename_i hr
    exact not_not.1 hr

/-- R315, R316, R446: the length is a number of whole records, a stored table has bytes, and a warning is counted. -/
theorem storedOk_dqt {p : DqtPart} (h : StoredOk s) (e : execDqt p s = .next t) : StoredOk t := by
  cases p with
  | header L =>
    rw [execDqt] at e
    rcases check_cases e with ⟨c, -, rfl⟩ | ⟨hc, e⟩
    · exact h.congr
    · cases e
      exact ⟨h.tables.congr, h.framed, h.pred, h.warn, dqtCause_none hc, h.raster⟩
  | record tq qzz =>
    have hrem : StoredOk { s with rem := s.rem - 65 } :=
      ⟨h.tables.congr, h.framed, h.pred, h.warn, by have := h.rem; show (s.rem - 65) % 65 = 0; omega, h.raster⟩
    simp only [execDqt] at e
    split at e <;> cases e
    · exact hrem.storeQt _ qzz
    · exact ⟨hrem.tables.congr, hrem.framed, h.pred, iff_of_true rfl (satSucc_ne_zero _), hrem.rem, h.raster⟩

/-- R318: a stored table passed its checks. -/
theorem storedOk_dht {L : Half} {body : Option DhtBody} (h : StoredOk s) (hd : DhtWhole (.dht L body))
    (e : execDht L body s = .next t) : StoredOk t := by
  cases body with
  | none => cases e; exact h.congr
  | some b =>
    rw [execDht] at e
    rcases check_cases e with ⟨c, -, rfl⟩ | ⟨hc, e⟩
    · exact h.congr
    · cases e
      obtain ⟨hkraft, hcap⟩ := dhtCause_none hc
      exact h.storeHt b.ref ⟨hkraft, hcap, hd L b rfl hc⟩

/-- R319, R320: a stored frame passed its checks. -/
theorem storedOk_sof0 {L : Half} {body : Option Sof0Body} (h : StoredOk s) (e : execSof0 L body s = .next t) :
    StoredOk t := by
  cases body with
  | none => cases e; exact h.congr
  | some b =>
    simp only [execSof0] at e
    split at e
    · cases e; exact h.congr
    · rcases check_cases e with ⟨c, -, rfl⟩ | ⟨hn, e⟩
      · exact h.congr
      rcases check_cases e with ⟨c, -, rfl⟩ | ⟨hf, e⟩
      · exact h.congr
      · cases e
        exact ⟨⟨h.tables.dc, h.tables.ac, h.tables.qt⟩, fun _ => frameOk_storeFrame hn hf, h.pred, h.warn, h.rem, h.raster⟩

/-- R322 to R324: SOS writes scan positions, and on its entry to the scan sets the predictors to 0. -/
theorem storedOk_sos {L : Half} {body : Option SosBody} (h : StoredOk s) (e : execSos L body s = .next t) :
    StoredOk t := by
  cases body with
  | none => cases e; exact h.congr
  | some b =>
    simp only [execSos] at e
    split at e
    · cases e; exact h.congr
    · rename_i tl _
      obtain ⟨sc, hsc⟩ := scanResolve_eq tl.comps s
      rcases check_cases e with ⟨c, -, rfl⟩ | ⟨-, e⟩
      · exact h.congr
      rcases check_cases e with ⟨c, -, rfl⟩ | ⟨-, e⟩
      · rw [hsc]
        exact h.congr
      · cases e
        rw [hsc]
        exact ⟨h.tables.congr, h.framed, by rw [scanEnter_pred]; decide, h.warn, h.rem, h.raster⟩

/-- R373: a predictor is written only inside its range. -/
theorem storedOk_dcAccept {d : Int} (h : StoredOk s) (e : dcAccept d s = .next t) : StoredOk t := by
  rcases dcAccept_cases d s with ⟨-, hr⟩ | ⟨hin, hr⟩ <;> cases hr.symm.trans e
  · exact h.congr
  · refine ⟨h.tables.congr, h.framed, fun c => ?_, h.warn, h.rem, h.raster⟩
    simp only [Fin.getElem_fin, Vector.getElem_set]
    split
    · exact hin
    · exact h.pred c

/-- The writers keep the storage by their checks, and every other instruction of the stream or the scan leaves it. -/
theorem storedOk_exec {i : Instr} (h : StoredOk s) (hi : isHostInstr i = false) (hd : DhtWhole i)
    (e : exec i s = .next t) : StoredOk t := by
  cases i
  case dqt => exact storedOk_dqt h e
  case dht => exact storedOk_dht h hd e
  case sof0 => exact storedOk_sof0 h e
  case sos => exact storedOk_sos h e
  case dcZero | dcDiff => exact storedOk_dcAccept h e
  case start | softReset | softResetAndStart | ctrlNop | irqEnWrite | irqAck | roWrite | regRead | streamByte
    | pixelAccept => cases hi
  all_goals
    have f := (exec_frame_of_read hi e).storage
    obtain ⟨-, -, hw, -, hn⟩ := f.quant nofun
    obtain ⟨-, hraster, -⟩ := f.pixels nofun
    exact h.congr (f.withStore nofun nofun nofun) (f.pred nofun nofun nofun) hw hn (f.rem nofun) hraster

end

/-! ## The parser's instructions -/

section
variable {s t : State}

/-- R323: a resolved scan has distinct components and defined tables. -/
theorem scanResolve_none {cs : Vector ScanSpec 3} (h : (scanResolve cs s).2 = none) :
    (∀ i j : Fin 3, (scanResolve cs s).1.sc[i].fi = (scanResolve cs s).1.sc[j].fi → i = j) ∧
      ∀ j : Fin 3, tablesDefined (scanResolve cs s).1 j = true := by
  obtain ⟨u, c, hr⟩ : ∃ u c, resolveComps cs [0, 1, 2] [] s = (u, c) := ⟨_, _, rfl⟩
  cases c with
  | some c =>
    rw [scanResolve, hr] at h
    cases h
  | none =>
    have he : scanResolve cs s = (u, if (List.finRange 3).all (tablesDefined u) then none else some .tableUndefined) := by
      rw [scanResolve, hr]
    rw [he] at h ⊢
    obtain ⟨f0, f1, f2, -, -, -, h01, h02, h12, hu⟩ := resolveComps_none cs s (by rw [hr])
    constructor
    · have hsc : u.sc = _ := congrArg State.sc ((congrArg Prod.fst hr).symm.trans hu)
      have hinj := injective_of_ne (f := fun k : Fin 3 => u.sc[k].fi)
      rw [hsc] at hinj ⊢
      exact hinj h01 h02 h12
    · by_contra hn
      have hall : ¬ (List.finRange 3).all (tablesDefined u) = true := by simpa using hn
      rw [if_neg hall] at h
      cases h

/-- R322 to R324: SOS raises, or enters the scan at its loop test. -/
theorem inv_sos {L : Half} {body : Option SosBody} (h : Inv s) (hs : s.state = .segments) (hf : s.frameValid = true)
    (e : execSos L body s = .next t) : Inv t := by
  have hne : s.state ≠ .error := by rw [hs]; nofun
  have hst := storedOk_sos h.stored e
  cases body with
  | none => cases e; exact h.raise _ hne
  | some b =>
    simp only [execSos] at e
    split at e
    · cases e; exact h.raise _ hne
    · rename_i tl _
      obtain ⟨sc, hsc⟩ := scanResolve_eq tl.comps s
      have hk := h.cursor_le hne
      rcases check_cases e with ⟨c, -, rfl⟩ | ⟨-, e⟩
      · exact h.raise _ hne
      rcases check_cases e with ⟨c, -, rfl⟩ | ⟨hn, e⟩
      · exact .of_error hst rfl ⟨c, rfl, rfl⟩ (by rw [hsc]; exact hk.trans (by decide))
      · cases e
        obtain ⟨hdistinct, htables⟩ := scanResolve_none hn
        rw [hsc] at hst hdistinct htables ⊢
        exact QuietOk.inv_scan ⟨hst, h.noError hne, hk⟩ rfl ⟨hf, rfl, hdistinct, htables, .inl rfl, cursorOk_loop rfl⟩

/-- Among the segments SOS enters the scan, and every other instruction raises or stays there. -/
theorem inv_segments {i : Instr} (h : Inv s) (hs : s.state = .segments) (hi : SegmentInstr i)
    (hsos : ∀ L b, i = .sos L b → s.frameValid = true) (hst : StoredOk t) (e : exec i s = .next t) : Inv t := by
  have hne : s.state ≠ .error := by rw [hs]; nofun
  by_cases hn : ∃ L b, i = .sos L b
  · obtain ⟨L, b, rfl⟩ := hn
    exact inv_sos h hs (hsos L b rfl) e
  simp only [not_exists] at hn
  obtain ⟨f, ev⟩ := exec_frame_of_read (segmentInstr_not_host hi) e
  have hk : t.k ≤ 64 := by
    have hkept : t.k = s.k := by cases hi <;> exact (f.block nofun nofun nofun nofun nofun).2
    exact hkept ▸ h.cursor_le hne
  have hb : t.bitcnt = 0 := by
    obtain ⟨hkept, -⟩ := f.buffer hn (by cases hi <;> nofun) (by cases hi <;> nofun)
    exact hkept.trans (h.align (by rw [hs]; nofun) hne)
  have stays : t.state = s.state → SameError s t → Inv t := fun ht he =>
    QuietOk.inv_segments ⟨hst, he.noError (h.noError hne), hk⟩ (ht.trans hs) hb
  cases ev with
  | quiet ht he _ => exact stays ht he
  | raised c u _ _ _ ht =>
    subst ht
    exact .of_error hst rfl ⟨c, rfl, rfl⟩ (by omega)
  | warned tq q u _ _ hu he _ ht => subst ht; exact stays hu he
  | scan L b hi' _ _ _ => exact absurd hi' (hn L b)
  | segments _ _ hi' _ _ _ | done _ _ hi' _ | acked _ hi' _ _ _ => subst hi'; cases hi

/-- What the bytes taken stand for keeps the invariant, place by place. -/
theorem inv_stream {c : StreamCtx} {i : Instr} (h : Inv s) (hc : ReadsFrom s c) (hd : decodeStream c s.fetched = .instr i)
    (e : exec i { s with fetched := [] } = .next t) : Inv t := by
  have hu : Inv { s with fetched := [] } := h.congr
  have hst := storedOk_exec hu.stored (decodeStream_not_host hd) (dhtWhole_of_decodeStream hd) e
  cases hc with
  | soi hs =>
    have hne : s.state ≠ .error := by rw [hs]; nofun
    obtain ⟨a, b, rfl⟩ := decodeStream_soi _ _ hd
    simp only [exec, execSoi] at e
    split at e <;> cases e
    · exact hu.raise _ hne
    · exact QuietOk.inv_segments ⟨hst, h.noError hne, h.cursor_le hne⟩ rfl (h.align (by rw [hs]; nofun) hne)
  | segments hs =>
    obtain ⟨hi, -, hsos, -⟩ := decodeStream_segments _ _ _ _ hd
    exact inv_segments hu hs hi hsos hst e
  | eoi hs =>
    have hne : s.state ≠ .error := by rw [hs]; nofun
    obtain ⟨a, b, rfl⟩ := decodeStream_eoi _ _ hd
    simp only [exec, execEoi] at e
    split at e <;> cases e
    · exact hu.raise _ hne
    · exact QuietOk.inv_ended ⟨hst, h.noError hne, h.cursor_le hne⟩ (.inr rfl) (h.align (by rw [hs]; nofun) hne)
        (h.ended (.inl hs))
  | ecs hn _ =>
    have hs := needsBit_scan s hn
    have hne : s.state ≠ .error := by rw [hs]; nofun
    have loaded : ∀ b, Inv (loadBits b { s with fetched := [] }) := fun b => h.cursor_moved hs (h.scan hs).cursor
    rcases decodeStream_ecs _ _ hd with ⟨b, rfl⟩ | rfl | ⟨n, rfl⟩ | ⟨cc, rfl⟩ <;> cases e
    · exact loaded b
    · exact loaded 0xFF#8
    · exact hu.raise _ hne
    · exact hu.raise _ hne

/-! ## The scan's elements and moves -/

/-- A run takes the cursor to 78 at most (log entry 11). -/
theorem run_le {k : Nat} (hk : k ≤ 63) (r : BitVec 4) : k + r.toNat ≤ 78 := by
  have hr := r.isLt
  omega

/-- An element raises, or stays in its block. -/
theorem inv_element {i : Instr} (h : Inv s) (hb : elementBits s = some (.instr i))
    (e : exec i { s with bits := [] } = .next t) : Inv t := by
  obtain ⟨hs, hi⟩ := elementBits_instr s i hb
  have hu : Inv { s with bits := [] } := h.congr
  have hst : StoredOk t := storedOk_exec hu.stored (elementBits_not_host hb) (by rintro L b rfl; cases hi) e
  have hx := (h.scan hs).column
  have hin := hi.inBlock (h.scan hs).cursor
  have dc : ∀ d, dcAccept d { s with bits := [] } = .next t → Inv t := by
    intro d e
    rcases dcAccept_cases d { s with bits := [] } with ⟨-, hr⟩ | ⟨-, hr⟩ <;> cases hr.symm.trans e
    · exact hu.raise _ (by rw [hs]; nofun)
    · exact h.scan_moved hs hst (show 1 ≤ 64 by decide) hx (cursorOk_of_block (.inr (.inl rfl)) hin)
  cases hi with
  | dcZero _ => exact dc _ e
  | dcDiff _ _ _ => exact dc _ e
  | dcTooWide _ _ => cases e; exact hu.raise _ (by rw [hs]; nofun)
  | eob _ _ => cases e; exact h.cursor_moved hs (cursorOk_of_block (.inr (.inr rfl)) hin)
  | zrl hp _ =>
    rcases execZrl_cases { s with bits := [] } with ⟨-, hr⟩ | ⟨hle, hr⟩ <;> cases hr.symm.trans e
    · exact hu.raise _ (by rw [hs]; nofun)
    · exact h.scan_moved hs hst hle hx (cursorOk_of_block (.inr (.inl hp)) hin)
  | zsr r hp hk63 =>
    rcases skipRun_cases r { s with bits := [] } (placeCoef 0) with ⟨-, hr⟩ | ⟨hle, hr⟩ <;> cases hr.symm.trans e
    · exact hu.stored.congr.raise _ (run_le hk63 r)
    · exact h.scan_moved hs hst (Nat.succ_le_succ hle) hx (cursorOk_of_block (.inr (.inl hp)) hin)
  | run r n hp hk63 hn =>
    rcases skipRun_cases r { s with bits := [] } (fun u => { u with cur := { u.cur with phase := .value r n } }) with
      ⟨-, hr⟩ | ⟨hle, hr⟩ <;> cases hr.symm.trans e
    · exact hu.stored.congr.raise _ (run_le hk63 r)
    · exact h.scan_moved hs hst (hle.trans (by decide)) hx (cursorOk_of_value rfl ⟨hin, hle, hn⟩)
  | value r n b a hp =>
    obtain ⟨-, hk63, -⟩ := (cursorOk_value hp).1 (h.scan hs).cursor
    cases e
    exact h.scan_moved hs hst (Nat.succ_le_succ hk63) hx (cursorOk_of_block (.inr (.inl rfl)) hin)

theorem inv_enterBlock {j : Fin 3} {row col : Nat} (h : Inv s) (hs : s.state = .scan)
    (hin : InBlock (enterBlock j row col s)) : Inv (enterBlock j row col s) :=
  h.cursor_moved hs (cursorOk_of_block (.inl rfl) hin)

/-- The first block of a component: a checked frame gives every component one. -/
theorem inBlock_first {j : Fin 3} (hf : FrameOk s) (hy : s.yPos.toNat < s.height.toNat) : InBlock (enterBlock j 0 0 s) :=
  ⟨hy, hf.sampling_pos _⟩

/-- R371, R387: another MCU inside the frame, or the end of the scan. -/
theorem inv_loopTest (h : Inv s) (hs : s.state = .scan) : Inv (loopTest s) := by
  have hsc := h.scan hs
  have hne : s.state ≠ .error := by rw [hs]; nofun
  unfold loopTest
  split
  · exact inv_enterBlock h hs (inBlock_first (h.frame hsc.frame) ‹_›)
  · exact QuietOk.inv_ended ⟨h.stored.congr, h.noError hne, h.cursor_le hne⟩ (.inl rfl) rfl ⟨hsc.frame, hsc.scan⟩

/-- R372: the next block is one of the frame's, and after the last the MCU's positions begin. -/
theorem inv_nextBlock (h : Inv s) (hs : s.state = .scan) (hin : InBlock s) : Inv (nextBlock s) := by
  obtain ⟨hy, hrow, hcol⟩ := hin
  have hf := h.frame (h.scan hs).frame
  unfold nextBlock
  split
  · exact inv_enterBlock h hs ⟨hy, hrow, ‹_›⟩
  split
  · exact inv_enterBlock h hs ⟨hy, ‹_›, (hf.sampling_pos _).2⟩
  split
  · exact inv_enterBlock h hs (inBlock_first hf hy)
  · exact h.cursor_moved hs (cursorOk_of_emit rfl ⟨hy, Nat.mul_pos (by decide) hf.hmax_pos, Nat.zero_le _⟩)

/-- R380, R381: a block's end raises, or R372 goes on. -/
theorem inv_finishBlock (h : Inv s) (hs : s.state = .scan) (hp : s.cur.phase = .finish) : Inv (finishBlock s) := by
  rcases finishBlock_cases s with e | ⟨f, e⟩ <;> rw [e]
  · exact h.raise _ (by rw [hs]; nofun)
  · exact inv_nextBlock h.congr hs ((cursorOk_block (.inr (.inr hp))).1 (h.scan hs).cursor)

/-- R386: the next position is one of the MCU's, or ends it. -/
theorem inv_nextPixel (h : Inv s) (hs : s.state = .scan) (hp : s.cur.phase = .emit) (hpy : s.cur.py < 8 * s.vmax.toNat) :
    Inv (nextPixel s) := by
  obtain ⟨hy, hpx, -⟩ := (cursorOk_emit hp).1 (h.scan hs).cursor
  unfold nextPixel
  split
  · exact h.cursor_moved hs (cursorOk_of_emit hp ⟨hy, ‹_›, hpy.le⟩)
  · exact h.cursor_moved hs (cursorOk_of_emit hp ⟨hy, Nat.zero_lt_of_lt hpx, hpy⟩)

/-- R371: the next MCU starts at column 0 or inside the frame. -/
theorem inv_nextMcu (h : Inv s) (hs : s.state = .scan) : Inv (nextMcu s) := by
  have hk := h.cursor_le (by rw [hs]; nofun)
  unfold nextMcu
  split
  · exact h.scan_moved hs h.stored.congr hk (.inl rfl) (cursorOk_loop rfl)
  · rename_i hw
    refine h.scan_moved hs h.stored.congr hk (.inr ?_) (cursorOk_loop rfl)
    show (s.xPos + BitVec.ofNat 17 (8 * s.hmax.toNat)).toNat < s.width.toNat
    rw [toNat_advance (d := s.width) s.hmax (by omega)]
    omega

/-- R429: a delivered pixel keeps the raster canonical. -/
theorem inv_deliverPixel (h : Inv s) (hpr : presenting s = true) : Inv (deliverPixel s) := by
  obtain ⟨hs, hp, hpy, -⟩ := presenting_cases hpr
  have hwf := Memory.writePixel_wf s.raster (pixelX s) (pixelY s) (presentedRgb s).1 (presentedRgb s).2.1
    (presentedRgb s).2.2 h.raster
  refine inv_nextPixel ?_ hs hp hpy
  exact h.scan_moved hs ⟨h.tables.congr, h.stored.framed, h.pred, h.warn, h.rem, hwf⟩ (h.cursor_le (by rw [hs]; nofun))
    (h.scan hs).column (h.scan hs).cursor

/-! ## Every step -/

theorem ne_error_of_busy (h : s.state.busy = true) : s.state ≠ .error := by
  intro hs
  rw [hs] at h
  cases h

theorem inv_readByte (h : Inv s) (hs : s.state ≠ .error) (e : readByte s = .next t) : Inv t := by
  rcases readByte_cases s with ⟨-, hr⟩ | ⟨-, -, hr⟩ | ⟨b, last, rest, -, -, hr⟩ <;> cases hr.symm.trans e
  · exact h.raise _ hs
  · exact h
  · exact h.congr

theorem engine_keeps_inv (h : Inv s) (e : EngineAction s (.next t)) : Inv t := by
  generalize hr : (Host.Outcome.next t : Result) = r at e
  cases e with
  | idle _ => cases hr; exact h
  | read hn => exact inv_readByte h (ne_error_of_busy (needsByte_busy hn)) hr.symm
  | stream c i hc hd => exact inv_stream h hc hd hr.symm
  | bit hn _ =>
    have hs := needsBit_scan s hn
    cases hr
    exact h.cursor_moved hs (h.scan hs).cursor
  | element i hb => exact inv_element h hb hr.symm
  | noSymbol hb => cases hr; exact h.raise _ (by rw [(elementBits_cases s _ hb).1]; nofun)
  | loop hs _ => cases hr; exact inv_loopTest h hs
  | acDone hs hp _ =>
    cases hr
    have hin := (cursorOk_block (.inr (.inl hp))).1 (h.scan hs).cursor
    exact h.cursor_moved hs (cursorOk_of_block (.inr (.inr rfl)) hin)
  | finish hs hp => cases hr; exact inv_finishBlock h hs hp
  | mcu hs _ _ => cases hr; exact inv_nextMcu h hs
  | hold _ => cases hr; exact h
  | skip hs hp hpy _ => cases hr; exact inv_nextPixel h hs hp hpy

/-- The host resets or starts the block, delivers a pixel, or changes nothing the invariant reads. -/
theorem host_keeps_inv {a : HostAction} {i : Instr} (h : Inv s) (ha : HostCase a i) (e : exec i s = .next t) : Inv t := by
  cases ha with
  | start d hi _ _ _ =>
    rcases execStart_cases hi s with ⟨-, hr⟩ | ⟨-, hr⟩ <;> cases hr.symm.trans e
    · exact h
    · exact inv_applyStart h.raster
  | softReset _ _ _ _ _ | softResetAndStart _ _ _ _ _ => cases e; exact inv_blockReset h.raster
  | pixelAccept _ =>
    rcases execPixelAccept_cases s with ⟨hpr, hr⟩ | hr <;> cases hr.symm.trans e
    · exact inv_deliverPixel h hpr
    · exact h
  | ctrlNop _ _ _ _ _ | irqEnWrite _ _ | irqAck _ _ | roWrite _ _ _ _ | regRead _ _ _ | streamByte _ _ _ =>
    cases e; exact h.congr

end

/-- Settles O52: every engine action and every host action keeps the invariant, and a reset gives it. -/
theorem stepKeepsTheInvariant : Obligations.StepKeepsTheInvariant := by
  intro s t h e
  have hc := step_case s
  rw [e] at hc
  generalize hr : (Host.Outcome.next t : Result) = r at hc
  cases hc with
  | engine _ _ ha => subst hr; exact engine_keeps_inv h ha
  | engineTurn rest _ _ ha => subst hr; exact engine_keeps_inv (h.with_turns rest) ha
  | hwReset rest _ => cases hr; exact inv_blockReset h.raster
  | host a rest i _ ha => exact host_keeps_inv (h.with_turns rest) ha hr.symm
  | refused _ => cases hr

end Sys2Proof.Machine
end

section
/-! The statements about quantization: zig-zag order, the built table, and the products of dequantization. -/

namespace Sys2Proof.Machine

/-! ## Zig-zag order (R260, R261) -/

theorem zigzagPosition_lt (x y : Fin 8) : zigzagPosition x.val y.val < 64 := by revert x y; decide

theorem zz2n_zigzagPosition (x y : Fin 8) :
    (zz2n ⟨zigzagPosition x.val y.val, zigzagPosition_lt x y⟩).val = 8 * y.val + x.val := by revert x y; decide

/-- `n2zz` undoes `zz2n`, and both run over the same finite set. -/
theorem zz2n_bijective : Function.Bijective zz2n :=
  Finite.injective_iff_bijective.1 (Function.LeftInverse.injective n2zz_zz2n)

/-- Settles O15: the 64 cells, and the left inverse `n2zz`. -/
theorem zigzagIsAPermutation : Obligations.ZigzagIsAPermutation :=
  ⟨fun x y => ⟨zigzagPosition_lt x y, zz2n_zigzagPosition x y⟩, zz2n_bijective⟩

/-! ## The built table (R262) -/

/-- Entry `n` is the byte at `n`'s zig-zag index. -/
theorem getElem_buildQt (qzz : Block Byte) (n : Fin 64) : (buildQt qzz)[n] = (qzz[n2zz n]).setWidth 16 := by
  simp only [buildQt, Fin.getElem_fin, Vector.getElem_ofFn]

/-- Settles O16: the zig-zag index of `ZZ2N[i]` is `i`. -/
theorem buildQtPlacesEveryEntry : Obligations.BuildQtPlacesEveryEntry := by
  intro qzz i
  simp only [getElem_buildQt, n2zz_zz2n, BitVec.zeroExtend]

/-! ## Dequantization (R263) -/

theorem inRange_iff (w : Nat) (v : Int) : inRange w v = true ↔ -(2 ^ (w - 1)) ≤ v ∧ v ≤ 2 ^ (w - 1) - 1 :=
  decide_eq_true_iff

theorem inRange_eq_false_iff (w : Nat) (v : Int) : inRange w v = false ↔ v < -(2 ^ (w - 1)) ∨ 2 ^ (w - 1) - 1 < v := by
  rw [← Bool.not_eq_true, inRange_iff, not_and_or, not_le, not_le]

/-- With every product in range the block of the products is the answer. -/
theorem multiplyBlock_some {w : Nat} {q : Block (BitVec 16)} {b : Block Int}
    (h : ∀ n : Fin 64, inRange w (b[n] * (q[n]).toNat) = true) :
    multiplyBlock w q b = some (Vector.ofFn fun n => b[n] * (q[n]).toNat) :=
  if_pos (List.all_eq_true.2 fun n _ => h n)

/-- The product of an AC cell an element can carry (R204) and a byte (R262) is below 2^23 in magnitude. -/
theorem inRange_product {c : Int} {q : BitVec 16} (hc : c.natAbs ≤ 2 ^ 15 - 1) (hq : q.toNat ≤ 255) :
    inRange Config.coefWidth (c * q.toNat) = true := by
  have hp : (c * q.toNat).natAbs ≤ (2 ^ 15 - 1) * 255 := by
    rw [Int.natAbs_mul, Int.natAbs_natCast]
    exact Nat.mul_le_mul hc hq
  rw [inRange_iff, Config.coefWidth]
  omega

/-- Settles O17: `multiplyBlock` fails exactly on a product out of range, and an AC product cannot be one. -/
theorem multiplyBlockIsExactOrFails : Obligations.MultiplyBlockIsExactOrFails := by
  refine ⟨fun w q b => ⟨?fails, ?exact⟩, fun q b hq hac => ?dcOnly⟩
  case fails =>
    rintro ⟨n, hn⟩
    exact (multiplyBlock_none w q b).2 ⟨n, (inRange_eq_false_iff w _).2 hn⟩
  case exact =>
    intro h
    exact ⟨_, multiplyBlock_some fun n => (inRange_iff w _).2 (h n), fun n => by simp⟩
  case dcOnly =>
    rw [multiplyBlock_none]
    constructor
    · rintro ⟨n, hn⟩
      by_cases h0 : n = 0
      · subst h0; exact hn
      · rw [inRange_product (hac n h0) (hq n)] at hn; cases hn
    · exact fun h => ⟨0, h⟩

end Sys2Proof.Machine
end

section
/-! The statements about the block transform: the inverse DCT's exact values, and the bytes admitted at a tolerance. -/

namespace Sys2Proof.Machine

/-! ## The basis functions of R287 -/

/-- The basis angle's cosine is twice R287's `C(u)·cos(π(2x+1)u/16)`; at `u = 0`, `cos(π/4) = 2√(1/8)`. -/
theorem cos_basisAngle (x u : Nat) :
    Real.cos (basisAngle x u * Real.pi / 16) = 2 * (dctC u * Real.cos (Real.pi * (2 * x + 1) * u / 16)) := by
  by_cases hu : u = 0
  · have h8 : Real.sqrt (1 / 8) = Real.sqrt 2 / 4 := by
      rw [show (1 / 8 : ℝ) = 2 / 4 ^ 2 by norm_num, Real.sqrt_div' _ (by norm_num), Real.sqrt_sq (by norm_num)]
    have h4 : ((4 : Nat) : ℝ) * Real.pi / 16 = Real.pi / 4 := by push_cast; ring
    rw [basisAngle, if_pos hu, dctC, if_pos hu, h4, Real.cos_pi_div_four, h8, hu, Nat.cast_zero, mul_zero, zero_div,
      Real.cos_zero]
    ring
  · have h4 : Real.sqrt (2 / 8) = 1 / 2 := by
      rw [show (2 / 8 : ℝ) = (1 / 2) ^ 2 by norm_num, Real.sqrt_sq (by norm_num)]
    have ha : (((2 * x + 1) * u : Nat) : ℝ) * Real.pi / 16 = Real.pi * (2 * x + 1) * u / 16 := by push_cast; ring
    rw [basisAngle, if_neg hu, dctC, if_neg hu, h4, ha]
    ring

/-- The distance of two angles has the cosine of their difference. -/
theorem cos_max_sub_min (a b : Nat) :
    Real.cos ((max a b - min a b : Nat) * Real.pi / 16) = Real.cos (a * Real.pi / 16 - b * Real.pi / 16) := by
  rcases le_total a b with h | h
  · rw [max_eq_right h, min_eq_left h, Nat.cast_sub h, ← Real.cos_neg]
    congr 1
    ring
  · rw [max_eq_left h, min_eq_right h, Nat.cast_sub h]
    congr 1
    ring

/-- R287's weight of `F(u,v)`, over the denominator 16. -/
theorem coordReal_idctWeight (x y u v : Nat) :
    coordReal (Vector.ofFn fun m => idctWeight x y u v m.val) =
      16 * (dctC u * Real.cos (Real.pi * (2 * x + 1) * u / 16) * (dctC v * Real.cos (Real.pi * (2 * y + 1) * v / 16))) := by
  have hadd : (Vector.ofFn fun m => idctWeight x y u v m.val : Sample) =
      coordAdd (Vector.ofFn fun m => cosCoord (basisAngle x u + basisAngle y v) m.val)
        (Vector.ofFn fun m => cosCoord (max (basisAngle x u) (basisAngle y v) - min (basisAngle x u) (basisAngle y v)) m.val) := by
    ext m hm
    simp [coordAdd, idctWeight]
  have hmul := two_cos_mul (basisAngle x u * Real.pi / 16) (basisAngle y v * Real.pi / 16)
  rw [hadd, coordReal_add, coordReal_cosCoord, coordReal_cosCoord, cos_max_sub_min, Nat.cast_add, add_mul, add_div, ← hmul,
    cos_basisAngle, cos_basisAngle]
  ring

/-! ## The inverse DCT (R287, R290) -/

/-- What a coordinate vector stands for is linear in it. -/
theorem coordReal_sum {ι : Type} (s : Finset ι) (c : ι → Int) (w : ι → Nat → Int) :
    coordReal (Vector.ofFn fun m => ∑ i ∈ s, c i * w i m.val) =
      ∑ i ∈ s, (c i : ℝ) * coordReal (Vector.ofFn fun m => w i m.val) := by
  simp only [coordReal_eq, Vector.getElem_ofFn, Int.cast_sum, Int.cast_mul, Finset.sum_mul, mul_add, Finset.sum_add_distrib,
    mul_assoc]

/-- The cells of a block, summed frequency by frequency. -/
theorem sum_cells (g : Fin 64 → ℝ) : ∑ n, g n = ∑ u : Fin 8, ∑ v : Fin 8, g ⟨8 * v.val + u.val, by omega⟩ := by
  rw [Finset.sum_comm, ← Fintype.sum_prod_type', ← (finProdFinEquiv (m := 8) (n := 8)).sum_comp g]
  refine Finset.sum_congr rfl fun p _ => congrArg g (Fin.ext ?_)
  exact Nat.add_comm p.2.val (8 * p.1.val)

theorem sampleReal_idctCell (f : Block Int) (x y : Nat) : sampleReal (idctCell f x y) = idctReal f x y := by
  have hcell : coordReal (idctCell f x y) =
      ∑ n : Fin 64, (f[n] : ℝ) * coordReal (Vector.ofFn fun m => idctWeight x y (n.val % 8) (n.val / 8) m.val) := by
    simp only [idctCell, ← Fin.sum_univ_def]
    exact coordReal_sum _ _ _
  rw [sampleReal, hcell, sum_cells, idctReal, Finset.sum_div]
  refine Finset.sum_congr rfl fun u _ => ?_
  rw [Finset.sum_div]
  refine Finset.sum_congr rfl fun v _ => ?_
  have hu : (8 * v.val + u.val) % 8 = u.val := by omega
  have hv : (8 * v.val + u.val) / 8 = v.val := by omega
  simp only [Fin.getElem_fin, hu, hv, coordReal_idctWeight]
  ring

/-- Settles O18: each cosine product is half a sum of two cosines, and what a coordinate vector stands for is linear in it. -/
theorem inverseDctIsExact : Obligations.InverseDctIsExact := by
  intro f x y
  have hx : (8 * y.val + x.val) % 8 = x.val := by omega
  have hy : (8 * y.val + x.val) / 8 = y.val := by omega
  rw [inverseDct, Vector.getElem_ofFn, hx, hy]
  exact sampleReal_idctCell f x.val y.val

/-- R287's sum over a DC-only block has one term, `C(0)²·F(0,0)`. -/
theorem idctReal_dcOnly {f : Block Int} (h : ∀ n : Fin 64, n ≠ 0 → f[n] = 0) (x y : Nat) :
    idctReal f x y = (f[0] : ℝ) / 8 := by
  have hac (u v : Fin 8) (huv : u.val ≠ 0 ∨ v.val ≠ 0) : f[8 * v.val + u.val] = 0 :=
    h ⟨8 * v.val + u.val, by omega⟩ (Fin.ne_of_val_ne (by change 8 * v.val + u.val ≠ 0; omega))
  have hC : dctC 0 * dctC 0 = 1 / 8 := by rw [dctC, if_pos rfl]; exact Real.mul_self_sqrt (by norm_num)
  rw [idctReal, Fintype.sum_eq_single 0, Fintype.sum_eq_single 0]
  · simp only [Fin.val_zero, Nat.cast_zero, mul_zero, zero_div, Real.cos_zero, mul_one, hC]
    ring
  · intro v hv
    simp only [hac 0 v (.inr (Fin.val_ne_zero_iff.2 hv)), Int.cast_zero, mul_zero, zero_mul]
  · intro u hu
    exact Finset.sum_eq_zero fun v _ => by simp only [hac u v (.inl (Fin.val_ne_zero_iff.2 hu)), Int.cast_zero, mul_zero, zero_mul]

/-- Settles O19: a DC-only block leaves one term of R287's sum. -/
theorem dcOnlyBlocksAreExact : Obligations.DcOnlyBlocksAreExact := by
  intro f h n
  rw [inverseDct, Fin.getElem_fin, Vector.getElem_ofFn, sampleReal_idctCell, idctReal_dcOnly h]

/-! ## Q8 (R385) -/

theorem q8Real_nonneg (v : ℝ) : 0 ≤ q8Real v := Int.floor_nonneg.2 (by positivity)

theorem q8Real_le (v : ℝ) : q8Real v ≤ 255 := by
  have h : max 0 (min v 255) ≤ (255 : ℝ) := max_le (by norm_num) (min_le_right _ _)
  have hlt : q8Real v < 256 := Int.floor_lt.2 (by push_cast; linarith)
  omega

theorem q8Real_mono : Monotone q8Real := fun _ _ h => Int.floor_mono (by gcongr)

/-- Q8 reaches a value other than 0 half a unit below it. -/
theorem le_q8Real_iff {m : Nat} (h0 : 0 < m) (hm : m ≤ 255) (v : ℝ) : (m : ℤ) ≤ q8Real v ↔ (m : ℝ) - 1 / 2 ≤ v := by
  have h0' : (1 : ℝ) ≤ m := by exact_mod_cast h0
  have hm' : (m : ℝ) ≤ 255 := by exact_mod_cast hm
  rw [q8Real, Int.le_floor, Int.cast_natCast, ← sub_le_iff_le_add, le_max_iff, le_min_iff]
  constructor
  · rintro (h | ⟨h, -⟩) <;> linarith
  · exact fun h => .inr ⟨h, by linarith⟩

theorem q8Real_sub_half {m : Nat} (h0 : 0 < m) (hm : m ≤ 255) : q8Real ((m : ℝ) - 1 / 2) = m := by
  refine le_antisymm ?_ ((le_q8Real_iff h0 hm _).2 le_rfl)
  by_contra! hlt
  have hle := q8Real_le ((m : ℝ) - 1 / 2)
  have h := (le_q8Real_iff (m := m + 1) (by omega) (by omega) ((m : ℝ) - 1 / 2)).1 (by push_cast; omega)
  push_cast at h
  linarith

/-- The search keeps Q8 among the `2^n` values from `acc` up. -/
theorem q8From_eq {v : Sample} {den : Nat} (hd : 0 < den) (n acc : Nat) (hcap : acc + 2 ^ n ≤ 256)
    (hlow : (acc : ℤ) ≤ q8Real (coordReal v / den)) (hhigh : q8Real (coordReal v / den) < (acc + 2 ^ n : Nat)) :
    (q8From v den n acc : ℤ) = q8Real (coordReal v / den) := by
  induction n generalizing acc with
  | zero => rw [pow_zero] at hhigh; rw [q8From]; omega
  | succ n ih =>
    have hpow : 0 < 2 ^ n := Nat.two_pow_pos n
    have htest : atLeastHalf v den (2 * ((acc : Int) + 2 ^ n) - 1) = true ↔
        ((acc + 2 ^ n : Nat) : ℤ) ≤ q8Real (coordReal v / den) := by
      rw [atLeastHalf_iff v den hd, le_q8Real_iff (by omega) (by omega)]
      push_cast
      rw [sub_div, mul_div_cancel_left₀ _ two_ne_zero]
    rw [pow_succ] at hcap hhigh
    rw [q8From]
    split
    case isTrue h => exact ih (acc + 2 ^ n) (by omega) (htest.1 h) (by omega)
    case isFalse h =>
      rw [htest, not_le] at h
      exact ih acc (by omega) hlow h

theorem q8_eq_q8Real (v : Sample) {den : Nat} (hd : 0 < den) : (q8 v den : ℤ) = q8Real (coordReal v / den) := by
  have hle := q8Real_le (coordReal v / den)
  exact q8From_eq hd 8 0 (by decide) (q8Real_nonneg _) (by omega)

/-! ## The admitted bytes (R289) -/

theorem coordReal_shiftBy (v : Sample) {den tden : Nat} (hd : 0 < den) (ht : 0 < tden) (sgn : Int) (num : Nat) :
    coordReal (shiftBy v den sgn num tden) / (den * tden : Nat) = coordReal v / den + sgn * (num / tden) := by
  have hd' : (den : ℝ) ≠ 0 := by exact_mod_cast hd.ne'
  have ht' : (tden : ℝ) ≠ 0 := by exact_mod_cast ht.ne'
  rw [shiftBy, coordReal_add, coordReal_scale, coordReal_ofInt]
  push_cast
  field_simp

theorem admittedLow_eq (v : Sample) {den tden : Nat} (hd : 0 < den) (ht : 0 < tden) (num : Nat) :
    (admittedLow v den num tden : ℤ) = q8Real (coordReal v / den - num / tden) := by
  rw [admittedLow, q8_eq_q8Real _ (Nat.mul_pos hd ht), coordReal_shiftBy v hd ht, Int.cast_neg, Int.cast_one, neg_one_mul,
    ← sub_eq_add_neg]

theorem admittedHigh_eq (v : Sample) {den tden : Nat} (hd : 0 < den) (ht : 0 < tden) (num : Nat) :
    (admittedHigh v den num tden : ℤ) = q8Real (coordReal v / den + num / tden) := by
  rw [admittedHigh, q8_eq_q8Real _ (Nat.mul_pos hd ht), coordReal_shiftBy v hd ht, Int.cast_one, one_mul]

/-- Q8 takes on an interval every value between those at its ends: one above the lower end's is first reached half a unit
below it. -/
theorem exists_q8Real_eq {a b : ℝ} {q : Nat} (hab : a ≤ b) (hlow : q8Real a ≤ q) (hhigh : q ≤ q8Real b) :
    ∃ v, a ≤ v ∧ v ≤ b ∧ (q : ℤ) = q8Real v := by
  rcases hlow.eq_or_lt with heq | hlt
  · exact ⟨a, le_rfl, hab, heq.symm⟩
  · have h0 : 0 < q := by have := q8Real_nonneg a; omega
    have hq : q ≤ 255 := by have := q8Real_le b; omega
    have ha : a < (q : ℝ) - 1 / 2 := by rwa [← not_le, ← le_q8Real_iff h0 hq, not_le]
    exact ⟨q - 1 / 2, ha.le, (le_q8Real_iff h0 hq b).1 hhigh, (q8Real_sub_half h0 hq).symm⟩

/-- Settles O21: the ends of the admitted values are Q8 at the ends of the tolerance, and Q8 is monotone and leaves no value
between them out. -/
theorem admittedValuesAreTheToleranceSet : Obligations.AdmittedValuesAreTheToleranceSet := by
  intro v den num tden q hd ht
  have htol : (0 : ℝ) ≤ num / tden := by positivity
  rw [← Int.ofNat_le (n := q), ← Int.ofNat_le (m := q), admittedLow_eq v hd ht, admittedHigh_eq v hd ht]
  constructor
  · rintro ⟨hlow, hhigh⟩
    obtain ⟨v', ha, hb, hq⟩ := exists_q8Real_eq (by linarith) hlow hhigh
    exact ⟨v', abs_sub_le_iff.2 ⟨by linarith, by linarith⟩, hq⟩
  · rintro ⟨v', hv', hq⟩
    obtain ⟨hb, ha⟩ := abs_sub_le_iff.1 hv'
    rw [hq]
    exact ⟨q8Real_mono (by linarith), q8Real_mono (by linarith)⟩

end Sys2Proof.Machine
end

section
/-! The engine's progress: where it stands still (R489), and which transitions of the control state it makes (R310). -/

namespace Sys2Proof.Machine

/-! ## Actions that change the state -/

section
variable {s : State}

theorem raise_ne_self (c : Cause) (h : s.state ≠ .error) : raise c s ≠ s :=
  fun e => h (congrArg State.state e).symm

theorem takeBit_ne_self : takeBit s ≠ s := fun e => by
  have hbits : s.bits ++ [topBit s] = s.bits := congrArg State.bits e
  simp at hbits

/-- R371: the loop test enters a block or ends the scan. -/
theorem loopTest_ne_self (hs : s.state = .scan) (hp : s.cur.phase = .loop) : loopTest s ≠ s := by
  unfold loopTest
  split <;> intro e
  · cases hp.symm.trans (congrArg (·.cur.phase) e).symm
  · cases hs.symm.trans (congrArg State.state e).symm

/-- R372: after a block comes another block's DC element, or the MCU's first pixel. -/
theorem nextBlock_phase_ne_finish (s : State) : (nextBlock s).cur.phase ≠ .finish := by
  rcases nextBlock_cases s with ⟨j, row, col, e⟩ | e <;> rw [e] <;> nofun

theorem finishBlock_ne_self (hs : s.state = .scan) (hp : s.cur.phase = .finish) : finishBlock s ≠ s := by
  rcases finishBlock_cases s with e | ⟨f, e⟩ <;> rw [e]
  · exact raise_ne_self _ (by rw [hs]; nofun)
  · exact fun e => nextBlock_phase_ne_finish _ ((congrArg (·.cur.phase) e).trans hp)

theorem nextMcu_ne_self (hp : s.cur.phase = .emit) : nextMcu s ≠ s := fun e => by
  cases (nextMcu_phase s).symm.trans ((congrArg (·.cur.phase) e).trans hp)

/-- R386: each position is followed by one further right or further down. -/
theorem nextPixel_ne_self : nextPixel s ≠ s := by
  unfold nextPixel
  split <;> intro e
  · exact Nat.succ_ne_self _ (congrArg (·.cur.px) e)
  · exact Nat.succ_ne_self _ (congrArg (·.cur.py) e)

/-- R201: a ReadByte leaves everything only by waiting for the host. -/
theorem readByte_eq_self_iff (h : s.state ≠ .error) :
    readByte s = .next s ↔ s.lastSeen = false ∧ s.offered = [] := by
  rcases readByte_cases s with ⟨hl, e⟩ | ⟨hl, ho, e⟩ | ⟨b, last, rest, hl, ho, e⟩ <;> rw [e]
  · simp [hl, raise_ne_self .truncated h]
  · simp [hl, ho]
  · refine iff_of_false (fun e => ?_) (by simp [ho])
    have hrest : s.offered = rest := congrArg State.offered (next_inj e)
    simp [ho] at hrest

end

/-! ## Where the engine stands still -/

/-- No instruction the engine reads touches the words taken for the next one. -/
theorem exec_fetched_bits {i : Instr} {s t : State} (hi : isHostInstr i = false) (e : exec i s = .next t) :
    t.fetched = s.fetched ∧ t.bits = s.bits := by
  obtain ⟨-, -, -, hfetched, hbits, -⟩ := (exec_frame_of_read hi e).storage.taken
  exact ⟨hfetched, hbits⟩

/-- An instruction of the stream has taken at least one byte, and running it drops what it took. -/
theorem exec_stream_ne_self {s : State} {c : StreamCtx} {i : Instr} (hd : decodeStream c s.fetched = .instr i) :
    exec i { s with fetched := [] } ≠ .next s := fun e => by
  rw [(exec_fetched_bits (decodeStream_not_host hd) e).1, decodeStream_nil] at hd
  cases hd

/-- Without a bit taken the element needs one. -/
theorem elementBits_nil {s : State} {r : ElementResult} (h : elementBits s = some r) (hb : s.bits = []) : r = .more := by
  obtain ⟨-, ⟨-, rfl⟩ | ⟨-, -, rfl⟩ | ⟨x, n, -, rfl⟩⟩ := elementBits_cases s r h <;> rw [hb]
  · exact decodeElement_nil _ _
  · exact decodeElement_nil _ _
  · rfl

theorem exec_element_ne_self {s : State} {i : Instr} (h : elementBits s = some (.instr i)) :
    exec i { s with bits := [] } ≠ .next s := fun e => by
  cases elementBits_nil h (exec_fetched_bits (elementBits_not_host h) e).2

theorem ne_error_of_needsByte {s : State} (h : needsByte s) : s.state ≠ .error :=
  ne_error_of_busy (needsByte_busy h)

/-- Every action but these three changes the state. -/
theorem engine_stands_still {s : State} (e : EngineAction s (.next s)) :
    (s.state = .idle ∨ s.state = .done ∨ s.state = .error) ∨
      (needsByte s ∧ s.lastSeen = false ∧ s.offered = []) ∨ presenting s = true := by
  generalize hr : (Host.Outcome.next s : Result) = r at e
  cases e with
  | idle h => exact .inl h
  | read hn => exact .inr (.inl ⟨hn, (readByte_eq_self_iff (ne_error_of_needsByte hn)).1 hr.symm⟩)
  | hold h => exact .inr (.inr h)
  | stream c i _ hd => exact absurd hr.symm (exec_stream_ne_self hd)
  | element i hb => exact absurd hr.symm (exec_element_ne_self hb)
  | bit _ _ => exact absurd (next_inj hr) takeBit_ne_self
  | noSymbol hb =>
    exact absurd (next_inj hr) (raise_ne_self _ (by rw [(elementBits_cases s _ hb).1]; nofun))
  | loop hs hp => exact absurd (next_inj hr) (loopTest_ne_self hs hp)
  | acDone _ hp _ => cases hp.symm.trans (congrArg (·.cur.phase) (next_inj hr)).symm
  | finish hs hp => exact absurd (next_inj hr) (finishBlock_ne_self hs hp)
  | mcu _ hp _ => exact absurd (next_inj hr) (nextMcu_ne_self hp)
  | skip _ _ _ _ => exact absurd (next_inj hr) nextPixel_ne_self

/-- Settles O57: the three waits are the engine's step by its place, and every other action changes the state. -/
theorem engineWaitsOnlyForTheHost : Obligations.EngineWaitsOnlyForTheHost := by
  intro s hturns
  rw [step_engine s hturns]
  constructor
  · intro e
    exact engine_stands_still (e ▸ engineStep_action s)
  · rintro (h | ⟨hn, hl, ho⟩ | h)
    · exact engineStep_ended h
    · rw [engineStep_of_needsByte hn]
      exact (readByte_eq_self_iff (ne_error_of_needsByte hn)).2 ⟨hl, ho⟩
    · exact engineStep_hold h

/-! ## The parser's transitions -/

/-- Settles O60: the outcomes of an engine step that move the control state are R310's transitions and the error entry. -/
theorem engineMakesOnlyTheParsersTransitions : Obligations.EngineMakesOnlyTheParsersTransitions := by
  intro s t hturns e hne
  rw [step_engine s hturns] at e
  cases engine_outcome (e ▸ engineStep_action s) with
  | same h _ => exact absurd h hne
  | segments h ht _ => exact .inl ⟨h, ht⟩
  | scan h ht _ => exact .inr (.inl ⟨h, ht⟩)
  | endScan h ht _ => exact .inr (.inr (.inl ⟨h, ht⟩))
  | done h ht _ => exact .inr (.inr (.inr (.inl ⟨h, ht⟩)))
  | error c u hb hp _ ht =>
    subst ht
    exact .inr (.inr (.inr (.inr ⟨hb, rfl, by simp, hp⟩)))
  | warned id u _ hu _ _ ht =>
    subst ht
    exact absurd hu hne

end Sys2Proof.Machine
end

section
/-! The statements about the segment parser: which bytes are which marker, and what each marker's instruction does. -/

namespace Sys2Proof.Machine

/-! ## Checks (R313, R315, R318 to R322) -/

section
variable {c : Option Cause} {e : Cause} {s : State} {k : State → Result}

theorem check_of_some (h : c = some e) : check c s k = .next (raise e s) := by rw [h, check]

theorem check_of_none (h : c = none) : check c s k = k s := by rw [h, check]

end

section
variable {L : Half}

theorem lengthCause_of_lt (h : L.toNat < 2) : lengthCause L = some .segmentLength := if_pos h

theorem lengthCause_of_le (h : 2 ≤ L.toNat) : lengthCause L = none := if_neg (by omega)

theorem dqtCause_of_bad (h : L.toNat < 2 ∨ (L.toNat - 2) % 65 ≠ 0) : dqtCause L = some .segmentLength := by
  unfold dqtCause
  split
  · rfl
  · exact if_pos (h.resolve_left ‹_›)

theorem dqtCause_of_good (h : 2 ≤ L.toNat) (hr : (L.toNat - 2) % 65 = 0) : dqtCause L = none := by
  rw [dqtCause, if_neg (by omega), if_neg (not_not.2 hr)]

end

/-! ## SOI and EOI (R311, R332) -/

/-- Settles O25: each pair is compared byte by byte. -/
theorem soiAndEoiAreCompared : Obligations.SoiAndEoiAreCompared :=
  ⟨fun _ => rfl, fun _ _ _ h => if_pos h, fun _ => rfl, fun _ _ _ h => if_pos h⟩

/-! ## Markers out of place (R312, R328 to R331, R334) -/

/-- The restart codes by their bounds (R142). -/
theorem isRst_of_bounds {cc : Byte} (hlo : 0xD0 ≤ cc.toNat) (hhi : cc.toNat ≤ 0xD7) : isRst cc = true := by
  revert cc; decide

/-- Settles O26: R314's rows 1 to 5 decide from the code byte, and each of their instructions raises. -/
theorem markersOutOfPlaceRaise : Obligations.MarkersOutOfPlaceRaise :=
  ⟨fun _ => rfl, fun _ => rfl, fun _ => rfl, fun _ => rfl,
    fun _ _ hlo hhi => decodeCode_rst (isRst_of_bounds hlo hhi) [], fun _ _ => rfl, rfl, fun _ => rfl, rfl, fun _ => rfl,
    ⟨rfl, rfl⟩, ⟨rfl, rfl⟩⟩

/-! ## Segments with a length (R314's row 6) -/

/-- Where no DQT record is due, a length-bearing marker is read by its segment's decoder. -/
theorem decodeStream_segment {fv : Bool} {cc : Byte} (h : HasLength fv cc) (hi lo : Byte) (p : List Byte) :
    decodeStream (.segments fv 0) (0xFF#8 :: cc :: hi :: lo :: p) = decodeSegment cc (u16 hi lo) p :=
  h.decodeCode_segment hi lo p

/-- R321. -/
theorem exec_sof2 (L : Half) (s : State) :
    exec (.sof2 L) s = check (lengthCause L) s fun s => .next (raise .progressive s) := rfl

/-- Settles O27: the first byte decides alone, and SOF2 checks its length before it raises. -/
theorem prefixAndProgressiveRaise : Obligations.PrefixAndProgressiveRaise :=
  ⟨fun _ _ hp => if_pos hp, fun _ _ => rfl, fun _ hi lo => decodeStream_segment (.of_not_mem rfl (by decide)) hi lo [],
    fun L s hL => (exec_sof2 L s).trans (check_of_some (lengthCause_of_lt hL)),
    fun L s hL => (exec_sof2 L s).trans (check_of_none (lengthCause_of_le hL)),
    ⟨rfl, rfl⟩, ⟨rfl, rfl⟩⟩

theorem decodeSkip_whole (mk : List Byte → Instr) {L : Half} {p : List Byte} (h : p.length = L.toNat - 2) :
    decodeSkip mk L p = .instr (mk p) := (readsWhole_skip (beq_iff_eq.2 h)).instr

/-- Settles O28: the payload is counted, and only the length is checked. -/
theorem skippedSegmentsChangeNothing : Obligations.SkippedSegmentsChangeNothing := by
  refine ⟨fun fv cc hi lo p hcc hp => ?_, fun cc L p s hL => ?_, fun cc L p s hL => ?_⟩
  · obtain rfl | rfl | ho := hcc
    · rw [decodeStream_segment (.of_not_mem rfl (by decide))]
      exact decodeSkip_whole (.app0 (u16 hi lo)) hp
    · rw [decodeStream_segment (.of_not_mem rfl (by decide))]
      exact decodeSkip_whole (.com (u16 hi lo)) hp
    · have hne : cc ≠ 0xE0#8 ∧ cc ≠ 0xFE#8 := by
        have hmem := (isOther_iff.1 ho).2
        constructor <;> rintro rfl <;> simp at hmem
      rw [decodeStream_segment (.of_other ho), decodeSegment_other ho, if_neg hne.1, if_neg hne.2]
      exact decodeSkip_whole (.other cc (u16 hi lo)) hp
  · have hcheck : check (lengthCause L) s .next = .next s := check_of_none (lengthCause_of_le hL)
    exact ⟨hcheck, hcheck, hcheck⟩
  · have hcheck : check (lengthCause L) s .next = .next (raise .segmentLength s) := check_of_some (lengthCause_of_lt hL)
    exact ⟨hcheck, hcheck, hcheck⟩

/-! ## DQT (R315 to R317) -/

/-- R315. -/
theorem exec_dqtHeader (L : Half) (s : State) :
    exec (.dqt (.header L)) s = check (dqtCause L) s fun s => .next { s with rem := L.toNat - 2 } := rfl

/-- Settles O29: the head's check, and a record's id on either side of 16. -/
theorem dqtStoresOrWarns : Obligations.DqtStoresOrWarns :=
  ⟨fun L s h => (exec_dqtHeader L s).trans (check_of_some (dqtCause_of_bad h)),
    fun L s h hr => (exec_dqtHeader L s).trans (check_of_none (dqtCause_of_good h hr)),
    fun _ h _ _ => dif_pos h,
    fun _ _ s h => ⟨satSucc s.warnCount, satSucc_eq _, dif_neg (Nat.not_lt.2 h)⟩⟩

/-! ## DHT (R318) -/

section
variable {L : Half} {counts : Vector Byte 16}

theorem dhtCause_of_length (h : L.toNat ≠ totalOf counts + 19) : dhtCause L counts = some .segmentLength := if_pos h

theorem dhtCause_of_kraft (h : L.toNat = totalOf counts + 19) (hk : 2 ^ 16 < kraftSum counts) :
    dhtCause L counts = some .huffKraft := by
  rw [dhtCause, if_neg (not_not.2 h), if_pos hk]

theorem dhtCause_of_capacity (h : L.toNat = totalOf counts + 19) (hk : kraftSum counts ≤ 2 ^ 16)
    (hc : Config.huffSymCap < totalOf counts) : dhtCause L counts = some .huffCapacity := by
  rw [dhtCause, if_neg (not_not.2 h), if_neg (Nat.not_lt.2 hk), if_pos hc]

theorem dhtCause_of_good (h : L.toNat = totalOf counts + 19) (hk : kraftSum counts ≤ 2 ^ 16)
    (hc : totalOf counts ≤ Config.huffSymCap) : dhtCause L counts = none := by
  rw [dhtCause, if_neg (not_not.2 h), if_neg (Nat.not_lt.2 hk), if_neg (Nat.not_lt.2 hc)]

end

/-- R144: the slot is `ref mod 16`, in the AC registry if bit 4 of `ref` is set and else in the DC registry. -/
theorem storeHt_eq (ref : Byte) (t : HuffTable) (s : State) :
    storeHt ref t s =
      if ref.getLsbD 4 = false then
        { s with htDc := s.htDc.set (ref.toNat % 16) t, htDcValid := s.htDcValid.set (ref.toNat % 16) true }
      else
        { s with htAc := s.htAc.set (ref.toNat % 16) t, htAcValid := s.htAcValid.set (ref.toNat % 16) true } := by
  have hslot : (slot (loNibble ref)).val = ref.toNat % 16 := loNibble_eq ref
  unfold storeHt refIsAc
  cases ref.getLsbD 4 <;> simp [hslot]

/-- R318. -/
theorem exec_dht (L : Half) (ref : Byte) (t : HuffTable) (s : State) :
    exec (.dht L (some ⟨ref, t⟩)) s = check (dhtCause L t.counts) s fun s => .next (storeHt ref t s) := rfl

/-- Settles O30: R318's checks in their order, then the store. -/
theorem dhtChecksThenStores : Obligations.DhtChecksThenStores := by
  refine ⟨fun _ _ => rfl, fun L ref t s h => ?_, fun L ref t s h hk => ?_, fun L ref t s h hk hc => ?_,
    fun L ref t s h hk hc => ?_⟩ <;> rw [exec_dht]
  · exact check_of_some (dhtCause_of_length h)
  · exact check_of_some (dhtCause_of_kraft h hk)
  · exact check_of_some (dhtCause_of_capacity h hk hc)
  · rw [check_of_none (dhtCause_of_good h hk hc), storeHt_eq]

/-! ## SOF0 (R319, R320) -/

section
variable {L : Half} {nf : Byte}

theorem sof0Cause_of_length (h : L.toNat ≠ 8 + 3 * nf.toNat) : sof0Cause L nf = some .segmentLength := if_pos h

theorem sof0Cause_of_count (h : L.toNat = 8 + 3 * nf.toNat) (hn : nf ≠ 3#8) : sof0Cause L nf = some .channelCount := by
  rw [sof0Cause, if_neg (not_not.2 h), if_pos hn]

end

/-- A failed check on the first six bytes raises, whether or not component bytes stand in the body. -/
theorem execSof0_of_cause {L : Half} {b : Sof0Body} {e : Cause} (h : sof0Cause L b.nf = some e) (s : State) :
    exec (.sof0 L (some b)) s = .next (raise e s) := by
  simp only [exec, execSof0]
  split
  · rw [h, Option.getD_some]
  · exact check_of_some h

/-- R320: the greatest factors give 3 · 15 · 15 = 675 blocks, the default capacity. -/
theorem blocksPerMcu_le (cs : Vector FrameSpec 3) : blocksPerMcu cs ≤ Config.mcuBlockCap := by
  have hle (a b : BitVec 4) : a.toNat * b.toNat ≤ 15 * 15 :=
    Nat.mul_le_mul (Nat.le_of_lt_succ a.isLt) (Nat.le_of_lt_succ b.isLt)
  exact Nat.add_le_add (Nat.add_le_add (hle _ _) (hle _ _)) (hle _ _)

/-- A sampling factor of component `i` is 0 (R320). -/
def ZeroFactor (cs : Vector FrameSpec 3) (i : Fin 3) : Prop := (cs[i].hv).toNat / 16 = 0 ∨ (cs[i].hv).toNat % 16 = 0

theorem zeroFactor_iff {cs : Vector FrameSpec 3} {i : Fin 3} :
    ZeroFactor cs i ↔ hiNibble cs[i].hv = 0#4 ∨ loNibble cs[i].hv = 0#4 := by
  rw [ZeroFactor, ← hiNibble_eq, ← loNibble_eq, BitVec.toNat_eq (x := hiNibble _), BitVec.toNat_eq (x := loNibble _)]
  rfl

theorem any_zeroFactor_iff {cs : Vector FrameSpec 3} :
    ((List.finRange 3).any fun i => hiNibble cs[i].hv == 0#4 || loNibble cs[i].hv == 0#4) = true ↔
      ∃ i, ZeroFactor cs i := by
  simp [zeroFactor_iff]

/-- Two of three values agree exactly when one of the three pairs does. -/
theorem exists_ne_eq_iff {α : Type} {f : Fin 3 → α} :
    (∃ i j, i ≠ j ∧ f i = f j) ↔ f 0 = f 1 ∨ f 0 = f 2 ∨ f 1 = f 2 := by
  constructor
  · rintro ⟨i, j, hne, h⟩
    by_contra hno
    simp only [not_or] at hno
    exact hne (injective_of_ne hno.1 hno.2.1 hno.2.2 h)
  · rintro (h | h | h)
    · exact ⟨0, 1, by decide, h⟩
    · exact ⟨0, 2, by decide, h⟩
    · exact ⟨1, 2, by decide, h⟩

section
variable {cs : Vector FrameSpec 3}

theorem frameCause_of_precision {p : Byte} (h : p ≠ 8#8) : frameCause p cs = some .precision := if_pos h

theorem frameCause_of_factor (h : ∃ i, ZeroFactor cs i) : frameCause 8#8 cs = some .frameParam := by
  rw [frameCause, if_neg (by decide), if_pos (any_zeroFactor_iff.2 h)]

theorem frameCause_of_ids (hf : ¬ ∃ i, ZeroFactor cs i) (h : ∃ i j : Fin 3, i ≠ j ∧ cs[i].id = cs[j].id) :
    frameCause 8#8 cs = some .componentRef := by
  rw [frameCause, if_neg (by decide), if_neg (any_zeroFactor_iff.not.2 hf)]
  exact if_pos (exists_ne_eq_iff.1 h)

theorem frameCause_of_good (hf : ¬ ∃ i, ZeroFactor cs i) (h : ¬ ∃ i j : Fin 3, i ≠ j ∧ cs[i].id = cs[j].id) :
    frameCause 8#8 cs = none := by
  rw [frameCause, if_neg (by decide), if_neg (any_zeroFactor_iff.not.2 hf)]
  exact (if_neg (exists_ne_eq_iff.not.1 h)).trans (if_neg (Nat.not_lt.2 (blocksPerMcu_le cs)))

end

/-- Settles O31: R319's and R320's checks in their order, of which the capacity check never fails, and the stored record's
fields. -/
theorem sof0ChecksThenStores : Obligations.Sof0ChecksThenStores := by
  refine ⟨fun _ _ => rfl, fun L b s h => execSof0_of_cause (sof0Cause_of_length h) s,
    fun L b s h hn => execSof0_of_cause (sof0Cause_of_count h hn) s, fun p h w cs s => ?_⟩
  intro H V r
  have hcheck : r = check (frameCause p cs) s fun s => .next (storeFrame ⟨p, h, w, 3#8, some cs⟩ cs s) :=
    check_of_none rfl
  have hfactors (hHV : ∀ i, H i ≠ 0 ∧ V i ≠ 0) : ¬ ∃ i, ZeroFactor cs i :=
    fun ⟨i, hi⟩ => hi.elim (hHV i).1 (hHV i).2
  rw [hcheck]
  refine ⟨fun hp => check_of_some (frameCause_of_precision hp), ?_, ?_, ?_⟩ <;> rintro rfl
  · exact fun hz => check_of_some (frameCause_of_factor hz)
  · exact fun hHV hid => check_of_some (frameCause_of_ids (hfactors hHV) hid)
  · intro hHV hid
    refine ⟨Vector.ofFn fun i => frameComp cs[i], _, _, fun i => ?_, ?_, ?_,
      check_of_none (frameCause_of_good (hfactors hHV) fun ⟨i, j, hne, he⟩ => hid i j hne he)⟩
    · simp [frameComp, hiNibble_eq, loNibble_eq, H, V]
    · simp [toNat_max3, hiNibble_eq, H]
    · simp [toNat_max3, loNibble_eq, V]

end Sys2Proof.Machine
end

section
/-! The statements about SOS: its checks, the resolution of its components, and the scan it enters. -/

namespace Sys2Proof.Machine

/-! ## The checks on `Ns` (R322) -/

section
variable {L : Half} {ns : Byte}

theorem sosCause_of_length (h : L.toNat ≠ 6 + 2 * ns.toNat) : sosCause L ns = some .segmentLength := if_pos h

theorem sosCause_of_count (h : L.toNat = 6 + 2 * ns.toNat) (hn : ns ≠ 3#8) : sosCause L ns = some .channelCount := by
  rw [sosCause, if_neg (not_not.2 h), if_pos hn]

end

/-- A failed check on `Ns` raises, whether or not more of the payload stands in the body. -/
theorem execSos_of_cause {L : Half} {b : SosBody} {e : Cause} (h : sosCause L b.ns = some e) (s : State) :
    exec (.sos L (some b)) s = .next (raise e s) := by
  simp only [exec, execSos]
  split
  · rw [h, Option.getD_some]
  · exact check_of_some h

/-- R322 to R324 for a whole SOS of three components. -/
theorem execSos_of_components (cs : Vector ScanSpec 3) (tr : Vector Byte 3) (s : State) :
    exec (.sos 12#16 (some ⟨3#8, some ⟨cs, tr⟩⟩)) s =
      check (scanResolve cs s).2 (scanResolve cs s).1 fun s => .next (scanEnter s) := check_of_none rfl

/-! ## Resolving the components (R323) -/

section
variable {s : State} {cs : Vector ScanSpec 3}

/-- A resolution succeeds only by an injective choice of a frame component for each scan position. -/
theorem exists_components_of_resolved (h : (resolveComps cs [0, 1, 2] [] s).2 = none) :
    ∃ f : Fin 3 → Fin 3, Function.Injective f ∧ ∀ j : Fin 3, findComp s cs[j].cs = some (f j) := by
  obtain ⟨f0, f1, f2, h0, h1, h2, h01, h02, h12, -⟩ := resolveComps_none cs s h
  refine ⟨![f0, f1, f2], injective_of_ne h01 h02 h12, fun j => ?_⟩
  fin_cases j
  · exact h0
  · exact h1
  · exact h2

/-- A resolution that fails raises COMPONENT_REF, and has written scan positions at most (log entry 17). -/
theorem exists_componentRef (h : (resolveComps cs [0, 1, 2] [] s).2 ≠ none) (tr : Vector Byte 3) :
    ∃ sc, exec (.sos 12#16 (some ⟨3#8, some ⟨cs, tr⟩⟩)) s = .next (raise .componentRef { s with sc := sc }) := by
  obtain ⟨e, he⟩ := Option.ne_none_iff_exists'.1 h
  obtain ⟨sc, hsc⟩ := scanResolve_eq cs s
  have hcause : (scanResolve cs s).2 = some .componentRef := by
    rw [← resolveComps_cause he, ← he]
    unfold scanResolve
    split <;> rename_i hr
    · rw [hr]
    · rw [hr] at he; cases he
  exact ⟨sc, by rw [execSos_of_components, check_of_some hcause, hsc]⟩

theorem resolveComps_found {j fi : Fin 3} {js used : List (Fin 3)} (hf : findComp s cs[j].cs = some fi)
    (hu : fi ∉ used) :
    resolveComps cs (j :: js) used s =
      resolveComps cs js (fi :: used) { s with sc := s.sc.set j ⟨fi, loNibble cs[j].t⟩ } := by
  rcases resolveComps_cons cs j js used s with ⟨-, hn | ⟨fi', hm, hf'⟩⟩ | ⟨fi', -, hf', e⟩
  · cases hf.symm.trans hn
  · cases hf.symm.trans hf'; exact absurd hm hu
  · cases hf.symm.trans hf'; exact e

/-- Three distinct components are found one after the other, and each is written to its position. -/
theorem resolveComps_distinct {f : Fin 3 → Fin 3} (hinj : Function.Injective f)
    (hf : ∀ j : Fin 3, findComp s cs[j].cs = some (f j)) :
    resolveComps cs [0, 1, 2] [] s =
      ({ s with sc := Vector.ofFn fun j => ⟨f j, loNibble cs[j].t⟩ }, none) := by
  have hne {i j : Fin 3} (h : i ≠ j) : f i ≠ f j := hinj.ne h
  calc resolveComps cs [0, 1, 2] [] s
      _ = _ := resolveComps_found (hf 0) (by simp)
      _ = _ := resolveComps_found (hf 1) (by simp [hne])
      _ = _ := resolveComps_found (hf 2) (by simp [hne])
      _ = _ := congrArg (fun v => (({ s with sc := v } : State), (none : Option Cause))) (set_all _ _ _ s.sc)

end

/-! ## The three tables of a scan position (R323) -/

/-- The quantization table and both Huffman tables a scan component names are valid. -/
def TablesValid (s : State) (c : ScanComp) : Prop :=
  ∃ _ : (s.comp[c.fi].tq).toNat < 16, s.qtValid[(s.comp[c.fi].tq).toNat] = true ∧ s.htDcValid[c.th.toNat] = true ∧
    s.htAcValid[c.th.toNat] = true

theorem tablesDefined_iff {s : State} {j : Fin 3} : tablesDefined s j = true ↔ TablesValid s s.sc[j] := by
  simp only [tablesDefined, TablesValid, Bool.and_eq_true, decide_eq_true_eq, and_assoc]
  constructor
  · rintro ⟨hle, hqt, hdc, hac⟩
    have hlt := Nat.lt_succ_of_le hle
    exact ⟨hlt, getElem_qtSlot s.qtValid _ hlt ▸ hqt, hdc, hac⟩
  · rintro ⟨hlt, hqt, hdc, hac⟩
    exact ⟨Nat.le_of_lt_succ hlt, (getElem_qtSlot s.qtValid _ hlt).trans hqt, hdc, hac⟩

/-- With its components resolved, the scan needs the three tables of every position. -/
theorem scanResolve_of_resolved {s u : State} {cs : Vector ScanSpec 3}
    (h : resolveComps cs [0, 1, 2] [] s = (u, none)) :
    ((∃ j : Fin 3, ¬ TablesValid u u.sc[j]) → scanResolve cs s = (u, some .tableUndefined)) ∧
      ((∀ j : Fin 3, TablesValid u u.sc[j]) → scanResolve cs s = (u, none)) := by
  have hall : (List.finRange 3).all (tablesDefined u) = true ↔ ∀ j : Fin 3, TablesValid u u.sc[j] := by
    simp [tablesDefined_iff]
  rw [scanResolve, h]
  constructor
  · intro hno
    simp only [if_neg (hall.not.2 (not_forall.2 hno))]
  · intro hyes
    simp only [if_pos (hall.2 hyes)]

/-! ## Entering the scan (R324) -/

/-- Setting a flag at each of three distinct positions sets all three. -/
theorem set_distinct {α : Type} {f : Fin 3 → Fin 3} (hinj : Function.Injective f) (v : Vector α 3) (a : α) :
    ((v.set (f 0) a).set (f 1) a).set (f 2) a = #v[a, a, a] := by
  apply Vector.ext
  intro i hi
  obtain ⟨j, hj⟩ := Finite.injective_iff_surjective.1 hinj ⟨i, hi⟩
  have ha : (#v[a, a, a])[i] = a := by interval_cases i <;> rfl
  rw [ha]
  obtain rfl : (f j).val = i := congrArg Fin.val hj
  fin_cases j <;> simp [Vector.getElem_set]

theorem scanEnter_eq {s : State} (h : ∀ j j' : Fin 3, s.sc[j].fi = s.sc[j'].fi → j = j') :
    scanEnter s = { s with
      scanValid := true, inScan := #v[true, true, true], pred := #v[0, 0, 0], xPos := 0#17, yPos := 0#17,
      bitcnt := 0, cur := Cursor.init, state := .scan } := by
  have hin : ((s.inScan.set s.sc[0].fi true).set s.sc[1].fi true).set s.sc[2].fi true = #v[true, true, true] :=
    set_distinct (f := fun j => s.sc[j].fi) (fun j j' => h j j') s.inScan true
  rw [scanEnter, hin]
  rfl

/-- Settles O32: a resolution is an injective choice of components, which a missing id and a repeated one exclude; then the
tables decide between TABLE_UNDEFINED and the scan. -/
theorem sosChecksThenStartsTheScan : Obligations.SosChecksThenStartsTheScan := by
  refine ⟨fun _ _ => rfl, fun L b s h => execSos_of_cause (sosCause_of_length h) s,
    fun L b s h hn => execSos_of_cause (sosCause_of_count h hn) s, fun cs tr s hids => ⟨?_, ?_, ?_⟩⟩
  · rintro ⟨j, hj⟩
    refine exists_componentRef (fun hr => ?_) tr
    obtain ⟨f, -, hf⟩ := exists_components_of_resolved hr
    exact hj (f j) (findComp_some (hf j))
  · rintro ⟨j, j', hne, heq⟩
    refine exists_componentRef (fun hr => ?_) tr
    obtain ⟨f, hinj, hf⟩ := exists_components_of_resolved hr
    have hff : some (f j) = some (f j') := by rw [← hf, ← hf, heq]
    exact hne (hinj (Option.some.inj hff))
  · intro sc hsc hinj defined
    have hfound (j : Fin 3) : findComp s cs[j].cs = some sc[j].fi := findComp_eq hids _ (hsc j).1
    have hvec : (Vector.ofFn fun j : Fin 3 => (⟨sc[j].fi, loNibble cs[j].t⟩ : ScanComp)) = sc := by
      apply Vector.ext
      intro i hi
      have hth : loNibble cs[i].t = sc[i].th :=
        BitVec.eq_of_toNat_eq ((loNibble_eq _).trans (hsc ⟨i, hi⟩).2.symm)
      simp [hth]
    have hres := resolveComps_distinct (f := fun j => sc[j].fi) (fun j j' => hinj j j') hfound
    rw [hvec] at hres
    obtain ⟨hundef, hdef⟩ := scanResolve_of_resolved hres
    constructor
    · intro hno
      rw [execSos_of_components, hundef hno]
      rfl
    · intro hyes
      rw [execSos_of_components, hdef hyes]
      exact congrArg Host.Outcome.next (scanEnter_eq hinj)

end Sys2Proof.Machine
end

section
/-! The statements about colour and the pixel port: output quantization, colour conversion, upsampling, and what an accepted pixel stores. -/

namespace Sys2Proof.Machine

/-! ## Output quantization (R385) -/

/-- Settles O20: the search for Q8 halves the values left, by exact sign tests. -/
theorem q8RoundsHalfUp : Obligations.Q8RoundsHalfUp := fun v _ hd => q8_eq_q8Real v hd

/-! ## Colour conversion (R383, R384) -/

section
variable (y cb cr : Sample)

theorem sampleReal_levelShift : sampleReal (levelShift y) = sampleReal y + 128 := by
  rw [sampleReal, levelShift, coordReal_add, coordReal_ofInt, sampleReal]
  norm_num
  ring

theorem coordReal_redOf : coordReal (redOf y cr) / channelDen = sampleReal y + 1.402 * sampleReal cr := by
  rw [redOf, coordReal_add, coordReal_scale, coordReal_scale, sampleReal, sampleReal, channelDen]
  push_cast
  ring

theorem coordReal_greenOf :
    coordReal (greenOf y cb cr) / channelDen = sampleReal y - 0.344136 * sampleReal cb - 0.714136 * sampleReal cr := by
  rw [greenOf, coordReal_add, coordReal_add, coordReal_scale, coordReal_scale, coordReal_scale, sampleReal, sampleReal,
    sampleReal, channelDen]
  push_cast
  ring

theorem coordReal_blueOf : coordReal (blueOf y cb) / channelDen = sampleReal y + 1.772 * sampleReal cb := by
  rw [blueOf, coordReal_add, coordReal_scale, coordReal_scale, sampleReal, sampleReal, channelDen]
  push_cast
  ring

end

/-- Settles O22: coordinate vectors add and scale as the numbers they stand for. -/
theorem colourConversionIsExact : Obligations.ColourConversionIsExact := fun y cb cr =>
  ⟨sampleReal_levelShift y, coordReal_redOf y cr, coordReal_greenOf y cb cr, coordReal_blueOf y cb⟩

/-! ## Upsampling (R382) -/

theorem upsampleIndex_lt {p f fmax : Nat} (hf : 0 < f) (hp : p < 8 * fmax) : upsampleIndex p f fmax < 8 * f := by
  refine Nat.div_lt_of_lt_mul ?_
  calc p * f < 8 * fmax * f := Nat.mul_lt_mul_of_pos_right hp hf
    _ = fmax * (8 * f) := by ring

/-- R372's block number of a block column below `H` and a block row below `V`. -/
theorem blockIndex_lt {row col H V : Nat} (hr : row < V) (hc : col < H) : row * H + col < H * V := by
  calc row * H + col < (row + 1) * H := by rw [Nat.succ_mul]; omega
    _ ≤ V * H := Nat.mul_le_mul_right H hr
    _ = H * V := Nat.mul_comm V H

/-- A component has at most 15·15 blocks in an MCU (R41). -/
theorem mul_nibbles_le (H V : BitVec 4) : H.toNat * V.toNat ≤ 225 :=
  Nat.mul_le_mul (Nat.le_of_lt_succ H.isLt) (Nat.le_of_lt_succ V.isLt)

theorem sampleCell_of_lt {b : Nat} (h : b < 225) (s : State) (c : Fin 3) (n : Fin 64) :
    sampleCell s c b n = (s.samples[c][b])[n] := dif_pos h

/-- Settles O23: the scaled position stays below eight times the factor, so its block is one of the component's. -/
theorem upsamplingStaysInsideTheMcu : Obligations.UpsamplingStaysInsideTheMcu := by
  intro s c px py hf hpx hpy sx sy b
  obtain ⟨hV, hH⟩ := hf.sampling_pos c
  have hsx : sx < 8 * s.comp[c].H.toNat := upsampleIndex_lt hH hpx
  have hsy : sy < 8 * s.comp[c].V.toNat := upsampleIndex_lt hV hpy
  have hb : b < s.comp[c].H.toNat * s.comp[c].V.toNat :=
    blockIndex_lt (Nat.div_lt_of_lt_mul hsy) (Nat.div_lt_of_lt_mul hsx)
  have hb225 : b < 225 := hb.trans_le (mul_nibbles_le _ _)
  refine ⟨hsx, hsy, hb, hb225, ?_⟩
  have hn : (Fin.ofNat 64 (8 * (sy % 8) + sx % 8)).val = 8 * (sy % 8) + sx % 8 := Nat.mod_eq_of_lt (by omega)
  calc sampleAt s c px py = (s.samples[c][b])[Fin.ofNat 64 (8 * (sy % 8) + sx % 8)] := sampleCell_of_lt hb225 s c _
    _ = _ := by simp only [Fin.getElem_fin, hn]

/-! ## The pixel port (R386, R429) -/

theorem presenting_eq_true_iff {s : State} : presenting s = true ↔
    s.state = .scan ∧ s.cur.phase = .emit ∧ s.cur.py < 8 * s.vmax.toNat ∧ s.cur.px < 8 * s.hmax.toNat ∧
      pixelX s < s.width.toNat ∧ pixelY s < s.height.toNat := by
  simp [presenting, and_assoc]

theorem exec_pixelAccept {s : State} (h : presenting s = true) : exec .pixelAccept s = .next (deliverPixel s) := if_pos h

/-- R386's loops, as a move of the cursor. -/
theorem nextPixel_eq_ite (s : State) : nextPixel s = { s with
    cur := if s.cur.px + 1 < 8 * s.hmax.toNat then { s.cur with px := s.cur.px + 1 }
      else { s.cur with px := 0, py := s.cur.py + 1 } } := by
  unfold nextPixel
  split <;> rfl

theorem deliverPixel_eq_ite (s : State) : deliverPixel s = { s with
    raster := s.raster.writePixel (pixelX s) (pixelY s) (presentedRgb s).1 (presentedRgb s).2.1 (presentedRgb s).2.2
    pixelsOut := s.pixelsOut + 1#32
    freeCtr := s.freeCtr + 3
    cur := if s.cur.px + 1 < 8 * s.hmax.toNat then { s.cur with px := s.cur.px + 1 }
      else { s.cur with px := 0, py := s.cur.py + 1 } } := nextPixel_eq_ite _

theorem deliverPixel_raster (s : State) : (deliverPixel s).raster =
    s.raster.writePixel (pixelX s) (pixelY s) (presentedRgb s).1 (presentedRgb s).2.1 (presentedRgb s).2.2 := by
  rw [deliverPixel_eq_ite]

/-- A stored pixel's cells have values. -/
theorem Memory.isSome_writePixel_self (m : Memory) (x y : Nat) (r g b : Byte) (c : Fin 3) :
    ((m.writePixel x y r g b).read (pixelAddr x y c.val)).isSome = true := by
  obtain ⟨hr, hg, hb⟩ := Memory.read_writePixel m x y r g b
  match c with
  | 0 => exact Option.isSome_of_mem hr
  | 1 => exact Option.isSome_of_mem hg
  | 2 => exact Option.isSome_of_mem hb

/-- Settles O38: the engine holds while it presents, and the acceptance writes three cells. -/
theorem pixelAcceptStoresOnePixel : Obligations.PixelAcceptStoresOnePixel := by
  intro s hs hp hpy hpx X Y hX hY
  have hpr : presenting s = true := presenting_eq_true_iff.2 ⟨hs, hp, hpy, hpx, hX, hY⟩
  refine ⟨⟨deliverPixel s, exec_pixelAccept hpr, ?held, ?others, ?frame⟩, ?hold⟩
  case held =>
    rw [deliverPixel_raster]
    exact Memory.isSome_writePixel_self _ _ _ _ _ _
  case others =>
    rw [deliverPixel_raster]
    exact Memory.read_writePixel_other _ _ _ _ _ _
  case frame => rw [deliverPixel_eq_ite]
  case hold => exact fun ht => (step_engine s ht).trans (engineStep_hold hpr)

/-! ## The emitted bytes (R289, R385) -/

theorem pick_mem {lo hi : Nat} (h : lo ≤ hi) (free : Nat) : lo ≤ pick lo hi free ∧ pick lo hi free ≤ hi := by
  have hlt : free % (hi - lo + 1) < hi - lo + 1 := Nat.mod_lt _ (Nat.succ_pos _)
  unfold pick
  omega

/-- The byte chosen for a channel is Q8 of a number within PIXEL_TOL of the channel's exact value `x` (log entry 4). -/
theorem channelOut_within {v : Sample} {x : ℝ} (hx : coordReal v / channelDen = x) (ctr : Nat) :
    ∃ v' : ℝ, |v' - x| ≤ pixelTol ∧ ((channelOut v ctr).toNat : ℤ) = q8Real v' := by
  have hden : 0 < channelDen := by decide
  have htden : 0 < Config.pixelTolDenPred + 1 := Nat.succ_pos _
  have admitted := fun q => admittedValuesAreTheToleranceSet v channelDen Config.pixelTolNum _ q hden htden
  have htol : (0 : ℝ) ≤ (Config.pixelTolNum : ℝ) / (Config.pixelTolDenPred + 1 : Nat) := by positivity
  have hle := (admitted (q8 v channelDen)).2
    ⟨coordReal v / channelDen, by rw [sub_self, abs_zero]; exact htol, q8_eq_q8Real v hden⟩
  obtain ⟨v', hv', hq⟩ := (admitted _).1 (pick_mem (hle.1.trans hle.2) (Config.freeChoice ctr))
  refine ⟨v', ?_, ?_⟩
  · rw [hx] at hv'
    rw [pixelTol]
    exact_mod_cast hv'
  · have hbyte := q8Real_le v'
    rw [channelOut, BitVec.toNat_ofNat, Nat.mod_eq_of_lt (by omega), hq]

/-- Settles O24: the three cells hold the bytes chosen for R384's exact channels, the luminance shifted by 128. -/
theorem acceptedPixelsAreWithinTolerance : Obligations.AcceptedPixelsAreWithinTolerance := by
  intro s hpr y cb cr
  have hy : sampleReal (lumaAt s s.cur.px s.cur.py) = y := sampleReal_levelShift _
  obtain ⟨hr, hg, hb⟩ := Memory.read_writePixel s.raster (pixelX s) (pixelY s) (presentedRgb s).1 (presentedRgb s).2.1
    (presentedRgb s).2.2
  rw [← deliverPixel_raster] at hr hg hb
  refine ⟨deliverPixel s, _, _, _, exec_pixelAccept hpr, hr, hg, hb, ?_, ?_, ?_⟩
  · exact channelOut_within (hy ▸ coordReal_redOf _ _) _
  · exact channelOut_within (hy ▸ coordReal_greenOf _ _ _) _
  · exact channelOut_within (hy ▸ coordReal_blueOf _ _) _

end Sys2Proof.Machine
end

section
/-! The statements about the scan decoder: DC and AC elements, the end of a block, and the loops. -/

namespace Sys2Proof.Machine

/-! ## DC elements (R373, R205, R155) -/

section
variable {d : Int} {s : State}

theorem dcAccept_of_inRange (h : inRange 32 (s.pred[curComp s] + d) = true) : dcAccept d s = .next { s with
    pred := s.pred.set (curComp s) (s.pred[curComp s] + d), coef := s.coef.set 0 (s.pred[curComp s] + d)
    k := 1, cur := { s.cur with phase := .ac } } := if_pos h

theorem dcAccept_of_outOfRange (h : inRange 32 (s.pred[curComp s] + d) = false) :
    dcAccept d s = .next (raise .predRange s) := if_neg (Bool.not_eq_true _ ▸ h)

end

/-- R155's map, on the number of the size category. -/
theorem decodeSymbol_dc (n : Byte) (a : List Bool) : decodeSymbol .dc n a =
    if n.toNat = 0 then .instr .dcZero
    else if 16 < n.toNat then .instr (.dcTooWide n)
    else if a.length < n.toNat then .more
    else .instr (.dcDiff n (a.take n.toNat)) := by
  have h0 : n = 0#8 ↔ n.toNat = 0 := BitVec.toNat_inj.symm
  simp only [← h0]
  rfl

/-- Settles O33: a DC element accepts its difference or raises, and a difference of 0 leaves the predictor. -/
theorem dcElementsUpdateThePredictor : Obligations.DcElementsUpdateThePredictor := by
  refine ⟨?zero, ?diff, fun _ _ => rfl, decodeSymbol_dc⟩
  case zero =>
    intro s c hc
    have h0 : s.pred[curComp s] + 0 = s.pred[c] := Int.add_zero _
    have hpred : s.pred.set (curComp s) s.pred[c] = s.pred := Vector.set_getElem_self _
    have h := dcAccept_of_inRange (d := 0) (s := s) (by rwa [h0])
    rwa [h0, hpred] at h
  case diff =>
    intro n a s c p
    exact ⟨fun hlo hhi => dcAccept_of_inRange ((inRange_iff 32 p).2 ⟨hlo, hhi⟩),
      fun hout => dcAccept_of_outOfRange ((inRange_eq_false_iff 32 p).2 hout)⟩

/-! ## AC elements (R375 to R379) -/

section
variable {r : BitVec 4} {s : State}

theorem exec_zsr : exec (.zsr r) s = skipRun r s (placeCoef 0) := rfl

theorem exec_coefRun (n : BitVec 4) : exec (.coef r n []) s =
    skipRun r s fun u => { u with cur := { u.cur with phase := .value r n } } := rfl

theorem exec_coefValue (n : BitVec 4) (b : Bool) (a : List Bool) : exec (.coef r n (b :: a)) s =
    .next { placeCoef (signedMagnitude (b :: a)) s with cur := { s.cur with phase := .ac } } := rfl

theorem skipRun_of_lt (h : s.k + r.toNat < 64) (f : State → State) :
    skipRun r s f = .next (f { s with k := s.k + r.toNat }) :=
  check_of_none (if_neg (by omega))

theorem skipRun_of_overflow (h : 63 < s.k + r.toNat) (f : State → State) :
    skipRun r s f = .next (raise .acOverflow { s with k := s.k + r.toNat }) :=
  check_of_some (if_pos h)

theorem placeCoef_of_lt (h : s.k < 64) (v : Int) :
    placeCoef v s = { s with coef := s.coef.set (zz2n ⟨s.k, h⟩) v, k := s.k + 1 } := by
  have hk : Fin.ofNat 64 s.k = ⟨s.k, h⟩ := Fin.ext (Nat.mod_eq_of_lt h)
  rw [placeCoef, hk, setAtZigzag]

end

/-- Settles O34: up to position 63 a run is skipped, and the value is placed where the cursor then stands. -/
theorem acElementsPlaceAndSkip : Obligations.AcElementsPlaceAndSkip := by
  refine ⟨fun _ => rfl, fun s h => if_neg (by omega), fun r s h => ?zsr, fun r n s h => ?run, fun r n a s h ha => ?value⟩
  case zsr => rw [exec_zsr, skipRun_of_lt h, placeCoef_of_lt h]
  case run => rw [exec_coefRun, skipRun_of_lt h]
  case value =>
    obtain ⟨b, a, rfl⟩ := List.exists_cons_of_ne_nil ha
    rw [exec_coefValue, placeCoef_of_lt h]

/-- Settles O35: past position 63 the run raises, for ZRL before it is added and else after. -/
theorem acOverflowRaises : Obligations.AcOverflowRaises := by
  refine ⟨fun _ h => if_pos h, fun r s h => ?zsr, fun r n s h => ?run, fun r n hn => ?decoded⟩
  case zsr => rw [exec_zsr, skipRun_of_overflow h]
  case run => rw [exec_coefRun, skipRun_of_overflow h]
  case decoded => rw [decodeSymbol, decodeAcSymbol_append, if_neg hn]

/-! ## The end of a block (R380, R381, R372) -/

/-- One block of one component is written, if its number is one of the buffer's (log entry 22). -/
theorem getElem_storeSamples (c : Fin 3) (b : Nat) (v : Block Sample) (s : State) (c' : Fin 3) (b' : Fin 225) :
    (storeSamples c b v s).samples[c'][b'] = if c' = c ∧ b'.val = b then v else (s.samples[c'])[b'] := by
  simp only [storeSamples, Fin.getElem_fin, Vector.getElem_set, Fin.ext_iff]
  by_cases hc : c'.val = c.val
  · simp [hc, Vector.getElem_setIfInBounds, eq_comm]
  · simp [hc, Ne.symm hc]

/-- R372's loops after a block. -/
theorem nextBlock_eq (s : State) : nextBlock s =
    if s.cur.col + 1 < (s.comp[curComp s]).H.toNat then enterBlock s.cur.j s.cur.row (s.cur.col + 1) s
    else if s.cur.row + 1 < (s.comp[curComp s]).V.toNat then enterBlock s.cur.j (s.cur.row + 1) 0 s
    else if s.cur.j.val + 1 < 3 then enterBlock (s.cur.j + 1) 0 0 s
    else enterEmit s := by
  have hj (h : s.cur.j.val + 1 < 3) : (⟨s.cur.j.val + 1, h⟩ : Fin 3) = s.cur.j + 1 := by
    apply Fin.ext
    rw [Fin.val_add]
    exact (Nat.mod_eq_of_lt h).symm
  unfold nextBlock
  split_ifs with _ _ h
  · rfl
  · rfl
  · rw [hj h]
  · rfl

/-- Settles O36: the products decide between the error and the store, and the loops follow the store. -/
theorem blockEndDequantizesAndStores : Obligations.BlockEndDequantizesAndStores := by
  intro s ht hs hp c htq q H b
  have hq : s.qt[qtSlot (s.comp[curComp s]).tq] = q := getElem_qtSlot _ _ htq
  rw [step_engine s ht, engineStep_finish hs hp]
  constructor
  · intro hnone
    rw [finishBlock_none (by rwa [hq])]
  · intro f hsome
    refine ⟨(storeSamples c b (inverseDct f) s).samples, getElem_storeSamples _ _ _ _, congrArg Host.Outcome.next ?_⟩
    rw [finishBlock_some (by rw [hq]; exact hsome), nextBlock_eq]
    rfl

/-! ## The loops (R371, R374, R386, R387) -/

section
variable {s : State}

theorem presenting_of_outside (h : s.width.toNat ≤ pixelX s ∨ s.height.toNat ≤ pixelY s) : presenting s = false := by
  rw [← Bool.not_eq_true, presenting_eq_true_iff]
  omega

/-- R371: the next MCU of a row. -/
theorem nextMcu_of_lt (h : s.xPos.toNat + 8 * s.hmax.toNat < s.width.toNat) : nextMcu s =
    { s with xPos := s.xPos + BitVec.ofNat 17 (8 * s.hmax.toNat), cur := { s.cur with phase := .loop } } :=
  if_neg (Nat.not_le.2 h)

/-- R371: the next row of MCUs. -/
theorem nextMcu_of_le (h : s.width.toNat ≤ s.xPos.toNat + 8 * s.hmax.toNat) : nextMcu s = { s with
    xPos := 0#17, yPos := s.yPos + BitVec.ofNat 17 (8 * s.vmax.toNat), cur := { s.cur with phase := .loop } } := if_pos h

end

/-- Settles O37: each clause is the engine's step by its place. -/
theorem scanLoopsFollowTheFrame : Obligations.ScanLoopsFollowTheFrame := by
  intro s ht hs
  rw [step_engine s ht]
  refine ⟨fun hp hy => ?mcu, fun hp hy => ?ended, fun hp hk => engineStep_acDone hs hp (by omega),
    fun hp _ hpy hout => ?outside, fun hp hpy => ?advance⟩
  case mcu => exact (engineStep_loop hs hp).trans (congrArg _ (if_pos hy))
  case ended => exact (engineStep_loop hs hp).trans (congrArg _ (if_neg (Nat.not_lt.2 hy)))
  case outside => rw [engineStep_skip hs hp hpy (presenting_of_outside hout), nextPixel_eq_ite]
  case advance =>
    have hmcu := engineStep_mcu hs hp hpy.ge
    refine ⟨fun hx => ⟨nextMcu s, hmcu, ?_⟩, fun hx hy => ⟨nextMcu s, hmcu, ?_⟩⟩
    · rw [nextMcu_of_lt hx]
      exact ⟨toNat_advance (d := s.width) s.hmax (by omega), rfl⟩
    · rw [nextMcu_of_le hx]
      exact ⟨toNat_advance s.vmax hy, rfl⟩

end Sys2Proof.Machine
end

section
/-! The statement that every pixel passed is delivered: which positions each move of the loops passes, and the engine's actions and the host's place by place. -/

namespace Sys2Proof.Machine

/-! ## Which positions a move of the loops passes (R371, R386) -/

/-- The frame, the MCU and the raster stay; the loops inside the MCU may move. -/
structure SameMcu (s t : State) : Prop where
  frame  : t.width = s.width ∧ t.height = s.height ∧ t.hmax = s.hmax ∧ t.vmax = s.vmax := by exact ⟨rfl, rfl, rfl, rfl⟩
  corner : t.xPos = s.xPos ∧ t.yPos = s.yPos := by exact ⟨rfl, rfl⟩
  raster : t.raster = s.raster := by rfl

section
variable {s t : State} {X Y : Nat}

/-- A position of the MCUs before the present one has been passed, wherever the loops stand inside it. -/
theorem passed_of_before (hw : X < s.width.toNat) (hh : Y < s.height.toNat)
    (h : Y < s.yPos.toNat ∨ (Y < s.yPos.toNat + 8 * s.vmax.toNat ∧ X < s.xPos.toNat)) : passed s X Y :=
  ⟨hw, hh, h.imp_right (.imp_right .inl)⟩

/-- Outside R386's loops, or at their start, only positions of the MCUs before have been passed. -/
theorem before_of_passed (hp : s.cur.phase ≠ .emit ∨ s.cur.px = 0 ∧ s.cur.py = 0) (h : passed s X Y) :
    Y < s.yPos.toNat ∨ (Y < s.yPos.toNat + 8 * s.vmax.toNat ∧ X < s.xPos.toNat) := by
  obtain ⟨-, -, hY | ⟨hY, hX | ⟨he, -, hloops⟩⟩⟩ := h
  · exact .inl hY
  · exact .inr ⟨hY, hX⟩
  · obtain ⟨hpx, hpy⟩ := hp.resolve_left (not_not.2 he)
    omega

theorem SameMcu.passed (h : SameMcu s t) (hq : t.cur.phase ≠ .emit ∨ t.cur.px = 0 ∧ t.cur.py = 0) (hp : passed t X Y) :
    passed s X Y := by
  have hb := before_of_passed hq hp
  obtain ⟨hw, hh, -⟩ := hp
  obtain ⟨⟨ew, eh, -, ev⟩, ⟨ex, ey⟩, -⟩ := h
  rw [ev, ex, ey] at hb
  exact passed_of_before (ew ▸ hw) (eh ▸ hh) hb

/-- R371, R387: below the frame every position has been passed. -/
theorem passed_of_end (h : s.height.toNat ≤ s.yPos.toNat) (hw : X < s.width.toNat) (hh : Y < s.height.toNat) :
    passed s X Y := passed_of_before hw hh (.inl (hh.trans_le h))

/-- R386: the loops pass the position where they stand. -/
theorem passed_nextPixel (hp : s.cur.phase = .emit) (h : passed (nextPixel s) X Y) :
    passed s X Y ∨ (X = pixelX s ∧ Y = pixelY s) := by
  unfold nextPixel at h
  unfold pixelX pixelY
  split at h <;> simp only [passed, hp, true_and] at h ⊢ <;> omega

theorem passed_deliverPixel (hp : s.cur.phase = .emit) (h : passed (deliverPixel s) X Y) :
    passed s X Y ∨ (X = pixelX s ∧ Y = pixelY s) := by
  refine passed_nextPixel hp ?_
  rw [deliverPixel_eq_ite] at h
  rw [nextPixel_eq_ite]
  exact h

/-- R371: the next MCU is reached with all positions of the present one passed. -/
theorem passed_nextMcu (hp : s.cur.phase = .emit) (hy : s.yPos.toNat < s.height.toNat)
    (hpy : 8 * s.vmax.toNat ≤ s.cur.py) (h : passed (nextMcu s) X Y) : passed s X Y := by
  have hb := before_of_passed (.inl (by rw [nextMcu_phase]; nofun)) h
  rcases Nat.lt_or_ge (s.xPos.toNat + 8 * s.hmax.toNat) s.width.toNat with hx | hx
  · have hadv := toNat_advance (d := s.width) (p := s.xPos) s.hmax (by omega)
    rw [nextMcu_of_lt hx] at h hb
    simp only [passed, hp, true_and, hadv] at h hb ⊢
    omega
  · have hadv := toNat_advance s.vmax hy
    rw [nextMcu_of_le hx] at h hb
    simp only [passed, hp, true_and, hadv, BitVec.toNat_zero] at h hb ⊢
    omega

end

/-! ## The delivered pixels over each action -/

section
variable {s t : State}

theorem pixelsOk_scan (hs : s.state = .scan) : PixelsOk s ↔ ∀ X Y, passed s X Y → pixelHeld s X Y := by
  simp [PixelsOk, hs]

theorem pixelsOk_expectEoi (hs : s.state = .expectEoi) :
    PixelsOk s ↔ ∀ X Y, X < s.width.toNat → Y < s.height.toNat → pixelHeld s X Y := by
  simp [PixelsOk, hs]

theorem pixelsOk_error (hs : s.state = .error) : PixelsOk s := by
  simp [PixelsOk, hs]

/-- A move that passes no further position. -/
theorem PixelsOk.of_passed (h : PixelsOk s) (hs : s.state = .scan) (ht : t.state = .scan) (hr : t.raster = s.raster)
    (hp : ∀ X Y, passed t X Y → passed s X Y) : PixelsOk t := by
  rw [pixelsOk_scan ht]
  intro X Y hX
  rw [pixelHeld, hr]
  exact (pixelsOk_scan hs).1 h X Y (hp X Y hX)

/-- A move outside R386's loops, or to their start. -/
theorem PixelsOk.of_sameMcu (h : PixelsOk s) (hs : s.state = .scan) (ht : t.state = .scan)
    (hq : t.cur.phase ≠ .emit ∨ t.cur.px = 0 ∧ t.cur.py = 0) (hm : SameMcu s t := by exact {}) : PixelsOk t :=
  h.of_passed hs ht hm.raster fun _ _ => hm.passed hq

theorem pixelsOk_readByte (h : PixelsOk s) (e : readByte s = .next t) : PixelsOk t := by
  rcases readByte_cases s with ⟨-, hr⟩ | ⟨-, -, hr⟩ | ⟨b, last, rest, -, -, hr⟩ <;> cases hr.symm.trans e
  · trivial
  · exact h
  · exact h

/-- Among the segments nothing is asked, and SOS enters the scan where nothing has been passed. -/
theorem pixelsOk_segments {i : Instr} (hs : s.state = .segments) (hi : SegmentInstr i)
    (e : exec i { s with fetched := [] } = .next t) : PixelsOk t := by
  obtain ⟨-, -, hscan⟩ := exec_readFrame (segmentInstr_not_host hi) e
  cases outcome_segments i hs (by rfl) (by rfl) (by rfl) hi e with
  | same ht _ => simp [PixelsOk, ht, hs]
  | error c u _ _ _ ht => exact pixelsOk_error (ht ▸ rfl)
  | scan _ ht _ =>
    obtain hn | ⟨hX, hY, hc⟩ := hscan ht
    · cases hs.symm.trans hn
    · rw [pixelsOk_scan ht]
      intro X Y hp
      have hb := before_of_passed (.inl (by rw [hc]; nofun)) hp
      rw [hX, hY, BitVec.toNat_zero] at hb
      omega
  | warned id u _ hu _ _ ht => subst ht; simp [PixelsOk, hu, hs]
  | segments hn _ _ | endScan hn _ _ | done hn _ _ => cases hs.symm.trans hn

theorem pixelsOk_stream {c : StreamCtx} {i : Instr} (h : PixelsOk s) (hc : ReadsFrom s c)
    (hd : decodeStream c s.fetched = .instr i) (e : exec i { s with fetched := [] } = .next t) : PixelsOk t := by
  cases hc with
  | soi hs =>
    obtain ⟨a, b, rfl⟩ := decodeStream_soi _ _ hd
    simp only [exec, execSoi] at e
    split at e <;> cases e <;> trivial
  | segments hs => exact pixelsOk_segments hs (decodeStream_segments _ _ _ _ hd).1 e
  | eoi hs =>
    obtain ⟨a, b, rfl⟩ := decodeStream_eoi _ _ hd
    simp only [exec, execEoi] at e
    split at e <;> cases e
    · trivial
    · exact (pixelsOk_expectEoi hs).1 h
  | ecs _ _ =>
    rcases decodeStream_ecs _ _ hd with ⟨b, rfl⟩ | rfl | ⟨n, rfl⟩ | ⟨cc, rfl⟩ <;> cases e
    · exact h
    · exact h
    · trivial
    · trivial

/-- After an element the scan decoder stands in its block still, an error's state included (R373 to R379). -/
theorem element_phase_ne_emit {i : Instr} {u : State} (hi : BitsInstr s i) (hu : u.cur = s.cur) (e : exec i u = .next t) :
    t.cur.phase ≠ .emit := by
  have kept (ht : t.cur = s.cur) : t.cur.phase ≠ .emit := ht ▸ bitsInstr_phase hi
  have dc : ∀ d, dcAccept d u = .next t → t.cur.phase ≠ .emit := by
    intro d e
    rcases dcAccept_cases d u with ⟨-, hr⟩ | ⟨-, hr⟩ <;> cases hr.symm.trans e
    · exact kept hu
    · nofun
  cases hi with
  | dcZero _ => exact dc _ e
  | dcDiff _ _ _ => exact dc _ e
  | dcTooWide _ _ => cases e; exact kept hu
  | eob _ _ => cases e; nofun
  | zrl _ _ => rcases execZrl_cases u with ⟨-, hr⟩ | ⟨-, hr⟩ <;> cases hr.symm.trans e <;> exact kept hu
  | zsr r _ _ =>
    rcases skipRun_cases r u (placeCoef 0) with ⟨-, hr⟩ | ⟨-, hr⟩ <;> cases hr.symm.trans e <;> exact kept hu
  | run r n _ _ _ =>
    rcases skipRun_cases r u (fun v => { v with cur := { v.cur with phase := .value r n } }) with ⟨-, hr⟩ | ⟨-, hr⟩ <;>
      cases hr.symm.trans e
    · exact kept hu
    · nofun
  | value _ _ _ _ _ => cases e; nofun

/-- No element moves the MCU or the raster. -/
theorem BitsInstr.sameMcu {i : Instr} {u : State} (hi : BitsInstr s i) (f : StorageFrame i u t) : SameMcu u t := by
  obtain ⟨-, -, hh, hw, -, -, hhm, hvm⟩ := f.frame (by rintro L b rfl; cases hi)
  obtain ⟨-, -, -, hx, hy⟩ := f.scan (by rintro L b rfl; cases hi)
  obtain ⟨-, hr, -⟩ := f.pixels (by rintro rfl; cases hi)
  exact ⟨⟨hw, hh, hhm, hvm⟩, ⟨hx, hy⟩, hr⟩

theorem pixelsOk_element {i : Instr} (h : PixelsOk s) (hb : elementBits s = some (.instr i))
    (e : exec i { s with bits := [] } = .next t) : PixelsOk t := by
  obtain ⟨hs, hi⟩ := elementBits_instr s i hb
  obtain ⟨hstorage, hevent⟩ := exec_frame_of_read (elementBits_not_host hb) e
  have hu : PixelsOk { s with bits := [] } := h
  rcases hevent.state_cases with ht | ⟨ht, -⟩ | ⟨-, a, b, rfl⟩ | ⟨-, a, b, rfl⟩ | ⟨-, L, b, rfl⟩
  · exact hu.of_sameMcu hs (ht.trans hs) (.inl (element_phase_ne_emit hi (by rfl) e)) (hi.sameMcu hstorage)
  · exact pixelsOk_error ht
  all_goals cases hi

theorem pixelsOk_loopTest (h : PixelsOk s) (hs : s.state = .scan) : PixelsOk (loopTest s) := by
  unfold loopTest
  split
  · exact h.of_sameMcu hs hs (.inl nofun)
  · exact fun X Y hw hh => (pixelsOk_scan hs).1 h X Y (passed_of_end (Nat.not_lt.1 ‹_›) hw hh)

theorem pixelsOk_finishBlock (h : PixelsOk s) (hs : s.state = .scan) : PixelsOk (finishBlock s) := by
  rcases finishBlock_cases s with e | ⟨f, e⟩ <;> rw [e]
  · trivial
  generalize hu : storeSamples (curComp s) (curBlock s) (inverseDct f) { s with coef := f } = u
  rcases nextBlock_cases u with ⟨j, row, col, e⟩ | e <;> rw [e] <;> subst hu
  · exact h.of_sameMcu hs hs (.inl nofun)
  · exact h.of_sameMcu hs hs (.inr ⟨rfl, rfl⟩)

/-- R386: a position passed without a pixel is outside the frame. -/
theorem pixelsOk_skip (hi : Inv s) (h : PixelsOk s) (hs : s.state = .scan) (hp : s.cur.phase = .emit)
    (hpy : s.cur.py < 8 * s.vmax.toNat) (hn : presenting s = false) : PixelsOk (nextPixel s) := by
  obtain ⟨-, hpx, -⟩ := (cursorOk_emit hp).1 (hi.scan hs).cursor
  have e := nextPixel_eq_ite s
  refine h.of_passed hs ((nextPixel_state s).trans hs) (by rw [e]) fun X Y hX => ?_
  refine (passed_nextPixel hp hX).resolve_right ?_
  rintro ⟨rfl, rfl⟩
  obtain ⟨hw, hh, -⟩ := hX
  rw [e] at hw hh
  exact Bool.false_ne_true (hn.symm.trans (presenting_eq_true_iff.2 ⟨hs, hp, hpy, hpx, hw, hh⟩))

/-- R429: the position passed by a delivery is the one stored. -/
theorem pixelsOk_deliverPixel (h : PixelsOk s) (hpr : presenting s = true) : PixelsOk (deliverPixel s) := by
  obtain ⟨hs, hp, -⟩ := presenting_cases hpr
  have hst : (deliverPixel s).state = .scan := (nextPixel_state _).trans hs
  rw [pixelsOk_scan hst]
  intro X Y hX c
  rw [deliverPixel_raster]
  rcases passed_deliverPixel hp hX with hX | ⟨rfl, rfl⟩
  · exact Memory.isSome_writePixel _ _ _ _ _ _ _ ((pixelsOk_scan hs).1 h X Y hX c)
  · exact Memory.isSome_writePixel_self _ _ _ _ _ _ c

theorem pixelsOk_nextMcu (hi : Inv s) (h : PixelsOk s) (hs : s.state = .scan) (hp : s.cur.phase = .emit)
    (hpy : 8 * s.vmax.toNat ≤ s.cur.py) : PixelsOk (nextMcu s) := by
  obtain ⟨hy, -⟩ := (cursorOk_emit hp).1 (hi.scan hs).cursor
  have hr : (nextMcu s).raster = s.raster := by unfold nextMcu; split <;> rfl
  exact h.of_passed hs ((nextMcu_state s).trans hs) hr fun X Y => passed_nextMcu hp hy hpy

theorem engine_keeps_pixels (hi : Inv s) (h : PixelsOk s) (e : EngineAction s (.next t)) : PixelsOk t := by
  generalize hr : (Host.Outcome.next t : Result) = r at e
  cases e with
  | idle _ => cases hr; exact h
  | read _ => exact pixelsOk_readByte h hr.symm
  | stream c i hc hd => exact pixelsOk_stream h hc hd hr.symm
  | bit _ _ => cases hr; exact h
  | element i hb => exact pixelsOk_element h hb hr.symm
  | noSymbol _ => cases hr; trivial
  | loop hs _ => cases hr; exact pixelsOk_loopTest h hs
  | acDone hs _ _ => cases hr; exact h.of_sameMcu hs hs (.inl nofun)
  | finish hs _ => cases hr; exact pixelsOk_finishBlock h hs
  | mcu hs hp hpy => cases hr; exact pixelsOk_nextMcu hi h hs hp hpy
  | hold _ => cases hr; exact h
  | skip hs hp hpy hn => cases hr; exact pixelsOk_skip hi h hs hp hpy hn

/-- The host delivers a pixel, ends the decode by a reset or START, or changes nothing this reads. -/
theorem host_keeps_pixels {a : HostAction} {i : Instr} (h : PixelsOk s) (ha : HostCase a i) (e : exec i s = .next t) :
    PixelsOk t := by
  cases ha with
  | start d hi _ _ _ =>
    rcases execStart_cases hi s with ⟨-, hr⟩ | ⟨-, hr⟩ <;> cases hr.symm.trans e
    · exact h
    · trivial
  | softReset _ _ _ _ _ | softResetAndStart _ _ _ _ _ => cases e; trivial
  | pixelAccept _ =>
    rcases execPixelAccept_cases s with ⟨hpr, hr⟩ | hr <;> cases hr.symm.trans e
    · exact pixelsOk_deliverPixel h hpr
    · exact h
  | ctrlNop _ _ _ _ _ | irqEnWrite _ _ | irqAck _ _ | roWrite _ _ _ _ | regRead _ _ _ | streamByte _ _ _ =>
    cases e; exact h

end

/-- Settles O54: a position is passed without a pixel only outside the frame, and a delivered pixel stays held. -/
theorem stepKeepsEveryPixelDelivered : Obligations.StepKeepsEveryPixelDelivered := by
  intro s t hi h e
  have hc := step_case s
  rw [e] at hc
  generalize hr : (Host.Outcome.next t : Result) = r at hc
  cases hc with
  | engine _ _ ha => subst hr; exact engine_keeps_pixels hi h ha
  | engineTurn rest _ _ ha => subst hr; exact engine_keeps_pixels (hi.with_turns rest) h ha
  | hwReset rest _ => cases hr; trivial
  | host a rest i _ ha => exact host_keeps_pixels (s := { s with turns := rest }) h ha hr.symm
  | refused _ => cases hr

end Sys2Proof.Machine
end

section
/-! The statements about the host: each register's fields, the commands, the interrupt registers and the offered bytes. -/

namespace Sys2Proof.Machine

/-! ## Sixteen valid bits as a number (R59, R60) -/

/-- A sum of distinct powers of two is the number with those bits. -/
theorem sum_bits_eq_ofBits : ∀ {n : Nat} (f : Fin n → Bool),
    ((List.finRange n).map (fun i => (f i).toNat * 2 ^ i.val)).sum = Nat.ofBits f
  | 0, _ => rfl
  | n + 1, f => by
    have htail : ((List.finRange n).map (fun i => (f i.succ).toNat * 2 ^ (i.val + 1))).sum =
        2 * Nat.ofBits (f ∘ Fin.succ) := by
      rw [← sum_bits_eq_ofBits, ← List.sum_map_mul_left]
      congr 2
      funext i
      simp only [Function.comp_apply, Nat.pow_succ']
      ring
    rw [Nat.ofBits_succ, List.finRange_succ, List.map_cons, List.map_map, List.sum_cons, ← htail]
    simp [Function.comp_def, Nat.add_comm]

theorem validBits_getLsbD (v : Vector Bool 16) (i : Fin 16) : (validBits v).getLsbD i.val = v[i] := by
  rw [validBits, BitVec.getLsbD_ofNat, sum_bits_eq_ofBits (fun i => v[i]), Nat.testBit_ofBits_lt _ _ i.isLt]
  simp

/-! ## The registers' fields (R51 to R68)

A register is its fields appended, so a field is reached by dropping, at each append, the part that does not hold it. -/

section
variable {v w i : Nat} {hi : BitVec v} {lo : BitVec w}

theorem getLsbD_append_of_le (h : w ≤ i) : (hi ++ lo).getLsbD i = hi.getLsbD (i - w) := by
  rw [BitVec.getLsbD_append, if_neg (Nat.not_lt.2 h)]

theorem getLsbD_append_of_lt (h : i < w) : (hi ++ lo).getLsbD i = lo.getLsbD i := by
  rw [BitVec.getLsbD_append, if_pos h]

end

theorem EngineState.busy_iff (e : EngineState) :
    e.busy = true ↔ e = .expectSoi ∨ e = .segments ∨ e = .scan ∨ e = .expectEoi := by
  cases e <;> simp [EngineState.busy]

/-- R53: STATUS. -/
theorem statusWord_fields (s : State) :
    (statusWord s).extractLsb' 0 3 = s.state.code ∧ (statusWord s).extractLsb' 3 1 = 0#1 ∧
    (statusWord s).getLsbD 4 = s.state.busy ∧ (statusWord s).getLsbD 5 = (s.state == .done) ∧
    (statusWord s).getLsbD 6 = (s.state == .error) ∧ (statusWord s).getLsbD 7 = s.warn ∧
    (statusWord s).extractLsb' 8 3 = s.errKind ∧ (statusWord s).extractLsb' 11 5 = 0#5 ∧
    (statusWord s).extractLsb' 16 8 = s.errCause ∧ (statusWord s).extractLsb' 24 8 = 0#8 := by
  unfold statusWord
  simp (disch := decide) only [BitVec.extractLsb'_append_eq_of_le, BitVec.extractLsb'_append_eq_of_add_le,
    getLsbD_append_of_le, getLsbD_append_of_lt]
  simp

/-- R57: FRAME_FMT. -/
theorem frameFmtWord_fields (s : State) :
    (frameFmtWord s).extractLsb' 0 8 = s.precision ∧ (frameFmtWord s).extractLsb' 8 8 = s.nf ∧
    (frameFmtWord s).extractLsb' 16 4 = s.hmax ∧ (frameFmtWord s).extractLsb' 20 4 = s.vmax ∧
    (frameFmtWord s).getLsbD 24 = s.frameValid ∧ (frameFmtWord s).getLsbD 25 = s.scanValid ∧
    (frameFmtWord s).extractLsb' 26 6 = 0#6 := by
  unfold frameFmtWord
  simp (disch := decide) only [BitVec.extractLsb'_append_eq_of_le, BitVec.extractLsb'_append_eq_of_add_le,
    getLsbD_append_of_le, getLsbD_append_of_lt]
  simp

/-- R58: COMP0, COMP1 and COMP2. -/
theorem compWord_fields (s : State) (c : Fin 3) :
    (compWord s c).extractLsb' 0 8 = s.comp[c].id ∧ (compWord s c).extractLsb' 8 4 = s.comp[c].H ∧
    (compWord s c).extractLsb' 12 4 = s.comp[c].V ∧ (compWord s c).extractLsb' 16 8 = s.comp[c].tq ∧
    (compWord s c).extractLsb' 24 4 = scanSlot s c ∧ (compWord s c).getLsbD 28 = s.inScan[c] ∧
    (compWord s c).extractLsb' 29 3 = 0#3 := by
  unfold compWord
  simp (disch := decide) only [BitVec.extractLsb'_append_eq_of_le, BitVec.extractLsb'_append_eq_of_add_le,
    getLsbD_append_of_le, getLsbD_append_of_lt]
  simp

/-- R58's TH, where one scan position decodes the component. -/
theorem scanSlot_of_unique {s : State} {c j : Fin 3} (hj : s.sc[j].fi = c)
    (hu : ∀ j' : Fin 3, s.sc[j'].fi = c → j' = j) : scanSlot s c = s.sc[j].th := by
  unfold scanSlot
  split
  · rw [← hu 0 ‹_›]; rfl
  split
  · rw [← hu 1 ‹_›]; rfl
  split
  · rw [← hu 2 ‹_›]; rfl
  · match j with
    | 0 | 1 | 2 => exact absurd hj ‹_›

/-- R58's TH, where none does. -/
theorem scanSlot_of_none {s : State} {c : Fin 3} (h : ∀ j : Fin 3, s.sc[j].fi ≠ c) : scanSlot s c = 0#4 :=
  (if_neg (h 0)).trans ((if_neg (h 1)).trans (if_neg (h 2)))

/-- R59: QT_VALID. -/
theorem qtValidWord_fields (s : State) :
    (∀ i : Fin 16, (qtValidWord s).getLsbD i.val = s.qtValid[i]) ∧ (qtValidWord s).extractLsb' 16 16 = 0#16 :=
  ⟨fun i => (getLsbD_append_of_lt i.isLt).trans (validBits_getLsbD _ i), BitVec.extractLsb'_append_eq_left⟩

/-- R60: HT_VALID. -/
theorem htValidWord_fields (s : State) (i : Fin 16) :
    (htValidWord s).getLsbD i.val = s.htDcValid[i] ∧ (htValidWord s).getLsbD (16 + i.val) = s.htAcValid[i] := by
  rw [htValidWord, getLsbD_append_of_lt i.isLt, getLsbD_append_of_le (Nat.le_add_right ..), Nat.add_sub_cancel_left]
  exact ⟨validBits_getLsbD _ i, validBits_getLsbD _ i⟩

/-- R61, R62: IRQ_EN and IRQ_STATUS. -/
theorem irqWord_fields (v : BitVec 3) : (irqWord v).extractLsb' 0 3 = v ∧ (irqWord v).extractLsb' 3 29 = 0#29 :=
  ⟨BitVec.extractLsb'_append_eq_right, BitVec.extractLsb'_append_eq_left⟩

/-- R63: WARN_INFO. -/
theorem warnInfoWord_fields (s : State) :
    (warnInfoWord s).extractLsb' 0 8 = s.warnLastId ∧ (warnInfoWord s).extractLsb' 8 8 = s.warnCount ∧
    (warnInfoWord s).extractLsb' 16 16 = 0#16 := by
  unfold warnInfoWord
  simp (disch := decide) only [BitVec.extractLsb'_append_eq_of_le, BitVec.extractLsb'_append_eq_of_add_le]
  simp

/-- R64: MCU_POS, the low 16 bits of each position. -/
theorem mcuPosWord_fields (s : State) :
    ((mcuPosWord s).extractLsb' 0 16).toNat = s.xPos.toNat % 2 ^ 16 ∧
    ((mcuPosWord s).extractLsb' 16 16).toNat = s.yPos.toNat % 2 ^ 16 := by
  rw [mcuPosWord, BitVec.extractLsb'_append_eq_right, BitVec.extractLsb'_append_eq_left]
  exact ⟨BitVec.toNat_setWidth .., BitVec.toNat_setWidth ..⟩

/-- R66: PARAMS. -/
theorem paramsWord_fields :
    (paramsWord.extractLsb' 0 16).toNat = 256 ∧ (paramsWord.extractLsb' 16 8).toNat = 32 ∧
    (paramsWord.extractLsb' 24 8).toNat = 32 := by decide

/-- R67: PARAMS2. -/
theorem params2Word_fields :
    (params2Word.extractLsb' 0 16).toNat = 675 ∧ (params2Word.extractLsb' 16 8).toNat = 16 ∧
    params2Word.extractLsb' 24 8 = 0#8 := by decide

/-! ## Which register stands at which offset (R50, R427) -/

theorem regValue_comp (s : State) : ∀ c : Fin 3, regValue s (BitVec.ofNat 8 (0x1C + 4 * c.val)) = compWord s c
  | 0 | 1 | 2 => rfl

/-- R68: the reserved offsets. -/
theorem regValue_of_reserved (s : State) {off : Byte} (h : 0x4C ≤ off.toNat) : regValue s off = 0#32 := by
  have hne {r : Byte} (hr : r.toNat < 0x4C) : off ≠ r := by rintro rfl; omega
  simp [regValue, hne]

/-- Settles O45: each register's value by its offset, and the fields of that value. -/
theorem registerReadsFollowTheMap : Obligations.RegisterReadsFollowTheMap := by
  intro s off _
  refine ⟨regValue s off, rfl, ?id, ?ctrl, ?status, ?errPos, ?pos, ?frameDim, ?frameFmt, ?comp, ?qtValid, ?htValid,
    ?irqEn, ?irqStatus, ?warnInfo, ?mcuPos, ?pixelsOut, ?params, ?params2, regValue_of_reserved s⟩
  case status =>
    rintro rfl
    obtain ⟨hcode, h3, hbusy, hdone, herror, hrest⟩ := statusWord_fields s
    refine ⟨hcode, h3, ?_, ?_, ?_, hrest⟩
    · exact (Bool.eq_iff_iff.1 hbusy).trans s.state.busy_iff
    · exact (Bool.eq_iff_iff.1 hdone).trans beq_iff_eq
    · exact (Bool.eq_iff_iff.1 herror).trans beq_iff_eq
  case comp =>
    rintro c rfl
    rw [regValue_comp]
    obtain ⟨hid, hH, hV, htq, hth, hin, h29⟩ := compWord_fields s c
    refine ⟨hid, hH, hV, htq, hin, h29, fun j hj hu => ?_, fun hn => ?_⟩
    · exact hth.trans (scanSlot_of_unique hj hu)
    · exact hth.trans (scanSlot_of_none hn)
  case frameDim => rintro rfl; exact ⟨BitVec.extractLsb'_append_eq_right, BitVec.extractLsb'_append_eq_left⟩
  case frameFmt => rintro rfl; exact frameFmtWord_fields s
  case qtValid => rintro rfl; exact qtValidWord_fields s
  case htValid => rintro rfl; exact htValidWord_fields s
  case irqEn => rintro rfl; exact irqWord_fields s.irqEn
  case irqStatus => rintro rfl; exact irqWord_fields s.irqStatus
  case warnInfo => rintro rfl; exact warnInfoWord_fields s
  case mcuPos => rintro rfl; exact mcuPosWord_fields s
  case id | ctrl | errPos | pos | pixelsOut => rintro rfl; rfl
  case params => rintro rfl; exact paramsWord_fields
  case params2 => rintro rfl; exact params2Word_fields

/-! ## START and the resets (R420 to R422, R480) -/

theorem exec_start_of_idle (hi : BitVec 30) {s : State} (h : s.state = .idle ∨ s.state = .done ∨ s.state = .error) :
    exec (.start hi) s = .next (applyStart s) := by
  rcases execStart_cases hi s with ⟨hb, -⟩ | ⟨-, e⟩
  · rcases h with h | h | h <;> rw [h] at hb <;> cases hb
  · exact e

theorem exec_start_of_busy (hi : BitVec 30) {s : State} (h : s.state.busy = true) : exec (.start hi) s = .next s :=
  if_pos h

/-- Settles O39: R70's START column is `applyStart`, with the free values it draws. -/
theorem startBeginsADecodeWhenIdle : Obligations.StartBeginsADecodeWhenIdle := by
  refine fun hi s => ⟨fun h => ?_, fun h => exec_start_of_busy hi ((EngineState.busy_iff _).2 h)⟩
  rw [exec_start_of_idle hi h]
  exact ⟨_, _, _, _, _, _, _, _, rfl⟩

theorem step_hwReset {s : State} {rest : List Turn} (h : s.turns = .hwReset :: rest) :
    step s = .next { blockReset s with turns := rest } :=
  step_turn s _ rest h

/-- Settles O40: each reset answers `blockReset`, with the free values it draws. -/
theorem resetsGiveTheResetColumn : Obligations.ResetsGiveTheResetColumn :=
  fun _ _ => ⟨_, _, _, _, _, _, _, _, rfl, rfl, fun _ => step_hwReset⟩

/-! ## Register writes (R423 to R426) -/

/-- Settles O42: neither instruction writes anything, and R156's map of writes reads them. -/
theorem writesWithoutEffect : Obligations.WritesWithoutEffect := by
  refine ⟨fun _ _ => rfl, fun d h1 h0 => ⟨d.extractLsb' 2 30, ?_⟩, fun _ _ _ => rfl,
    fun off d h4 hctrl hen hst => ?_⟩
  · rw [decodeHost_write rfl, decodeWrite, if_pos rfl, h1, h0]; rfl
  · rw [decodeHost_write h4, decodeWrite, if_neg hctrl, if_neg hen, if_neg hst]

/-- R425: an acknowledge keeps exactly the bits not written as 1. -/
theorem getLsbD_ack (v : BitVec 3) (d : Word) {i : Nat} (h : i < 3) :
    (v &&& ~~~(d.extractLsb' 0 3)).getLsbD i = (v.getLsbD i && !d.getLsbD i) := by
  simp [h]

/-- Settles O43: an acknowledge bit by bit, and R156's map of writes at the two offsets. -/
theorem interruptRegisterWrites : Obligations.InterruptRegisterWrites :=
  ⟨fun _ _ => rfl, fun d s => ⟨_, rfl, fun _ => getLsbD_ack s.irqStatus d⟩, decodeHost_write rfl,
    decodeHost_write rfl⟩

/-! ## The ports (R428, R429) -/

theorem exec_pixelAccept_of_not_presenting {s : State} (h : presenting s = false) : exec .pixelAccept s = .next s :=
  if_neg (by rw [h]; nofun)

/-- Settles O46: an offer only lengthens the list at the port, and an early accept does nothing. -/
theorem offeredBytesWaitAtThePort : Obligations.OfferedBytesWaitAtThePort :=
  ⟨fun _ _ _ => rfl, fun _ => exec_pixelAccept_of_not_presenting⟩

end Sys2Proof.Machine
end

section
/-! The statements about exceptions: the recorded error, the warning, the interrupt status and its line, and the states in
which a decode has ended. -/

namespace Sys2Proof.Machine

/-! ## What each event records (R440 to R446) -/

/-- Settles O48: the codes of the kinds, of the causes and of the control states. -/
theorem codesAreTheSpecs : Obligations.CodesAreTheSpecs := by
  unfold Obligations.CodesAreTheSpecs
  decide

/-- Settles O49: the count's successor saturates at 255. -/
theorem warningRecordsTheId : Obligations.WarningRecordsTheId :=
  fun _ s => ⟨satSucc s.warnCount, satSucc_eq _, rfl⟩

/-- Settles O47: `raise` writes just these fields, and the engine's step in ERROR is none. -/
theorem errorEntryRecordsTheCause : Obligations.ErrorEntryRecordsTheCause := by
  refine ⟨fun _ _ => rfl, fun s hs hturns => ?_⟩
  rw [step_engine s hturns, engineStep_ended (.inr (.inr hs))]

/-- Settles O44: the three sources of the line. -/
theorem interruptLineIsLevel : Obligations.InterruptLineIsLevel := by
  intro s
  simp [irqLine, Fin.exists_fin_succ, or_assoc]

/-! ## The interrupt status over a step (R448) -/

section
variable {s t : State} {i : Fin 3}

/-- R448: an engine step sets a status bit only by the bit's own event. -/
theorem EngineOutcome.irq_set (h : EngineOutcome s t) (h0 : s.irqStatus.getLsbD i.val = false)
    (h1 : t.irqStatus.getLsbD i.val = true) :
    (i = 0 ∧ s.state = .expectEoi ∧ t.state = .done) ∨
    (i = 1 ∧ s.state.busy = true ∧ t.state = .error) ∨
    (i = 2 ∧ s.state = .segments ∧ t.state = .segments ∧ t.warn = true ∧ 16 ≤ t.warnLastId.toNat) := by
  obtain ⟨hdone, herror, hwarn⟩ := irqMask_bit i.val i.isLt
  cases h with
  | same _ hq | segments _ _ hq | scan _ _ hq | endScan _ _ hq => cases h0.symm.trans (hq ▸ h1)
  | done hs ht hq => exact .inl ⟨Fin.ext (hdone (maskBit_of_or h0 (hq ▸ h1))), hs, ht⟩
  | error c u hb _ hq ht =>
    subst ht
    exact .inr (.inl ⟨Fin.ext (herror (maskBit_of_or (hq ▸ h0) h1)), hb, rfl⟩)
  | warned id u hs hu hq h16 ht =>
    subst ht
    exact .inr (.inr ⟨Fin.ext (hwarn (maskBit_of_or (hq ▸ h0) h1)), hs, hu.trans hs, rfl, h16⟩)

/-- An engine step clears no status bit. -/
theorem EngineOutcome.irq_kept (h : EngineOutcome s t) (h0 : s.irqStatus.getLsbD i.val = true) :
    t.irqStatus.getLsbD i.val = true := by
  cases h with
  | same _ hq | segments _ _ hq | scan _ _ hq | endScan _ _ hq => rw [hq, h0]
  | done _ _ hq => rw [hq]; exact irqBit_or h0
  | error c u _ _ hq ht => subst ht; exact irqBit_or (hq ▸ h0)
  | warned id u _ _ hq _ ht => subst ht; exact irqBit_or (hq ▸ h0)

/-- R420 to R425: the host keeps the interrupt status (START too), acknowledges bits of it, or resets the block. -/
theorem host_irqStatus {a : HostAction} {j : Instr} (ha : HostCase a j) (e : exec j s = .next t) :
    t.irqStatus = s.irqStatus ∨
    (∃ d, a = busWrite 0x34#8 d ∧ t.irqStatus = s.irqStatus &&& ~~~(d.extractLsb' 0 3)) ∨
    (∃ d, a = busWrite 0x04#8 d ∧ d.getLsbD 1 = true ∧ t.irqStatus = 0#3) := by
  cases ha with
  | start _ hi _ _ _ => rcases execStart_cases hi s with ⟨-, h⟩ | ⟨-, h⟩ <;> cases h.symm.trans e <;> exact .inl rfl
  | softReset d _ ha h1 _ | softResetAndStart d _ ha h1 _ => cases e; exact .inr (.inr ⟨d, ha, h1, rfl⟩)
  | irqAck d ha => cases e; exact .inr (.inl ⟨d, ha, rfl⟩)
  | pixelAccept _ =>
    rcases execPixelAccept_cases s with ⟨-, h⟩ | h <;> cases h.symm.trans e
    · obtain ⟨_, _, _, hd⟩ := deliverPixel_eq s
      rw [hd]
      exact .inl rfl
    · exact .inl rfl
  | ctrlNop _ _ _ _ _ | irqEnWrite _ _ | roWrite _ _ _ _ | regRead _ _ _ | streamByte _ _ _ => cases e; exact .inl rfl

end

/-- Settles O59: only the engine's events set a bit, and only an acknowledge or a reset clears one. -/
theorem interruptStatusIsSticky : Obligations.InterruptStatusIsSticky := by
  intro s t i e
  have hc := step_case s
  rw [e] at hc
  generalize hr : (Host.Outcome.next t : Result) = r at hc
  cases hc with
  | engine _ _ ha | engineTurn _ _ _ ha =>
    subst hr
    have ho := engine_outcome ha
    exact ⟨ho.irq_set, fun h1 h0 => absurd (h0.symm.trans (ho.irq_kept h1)) Bool.false_ne_true⟩
  | hwReset rest ht => cases hr; exact ⟨fun _ h1 => by simp at h1, fun _ _ => .inr (.inr ⟨rest, ht⟩)⟩
  | host a rest j ht ha =>
    obtain hq | ⟨d, rfl, hq⟩ | ⟨d, rfl, hreset, hq⟩ := host_irqStatus ha hr.symm
    · rw [show t.irqStatus = s.irqStatus from hq]
      exact ⟨fun h0 h1 => absurd (h0.symm.trans h1) Bool.false_ne_true,
        fun h1 h0 => absurd (h0.symm.trans h1) Bool.false_ne_true⟩
    · rw [show t.irqStatus = s.irqStatus &&& _ from hq, getLsbD_ack _ d i.isLt]
      refine ⟨fun h0 h1 => ?_, fun h1 h0 => .inl ⟨d, rest, ht, ?_⟩⟩
      · rw [h0] at h1; cases h1
      · rw [h1] at h0; simpa using h0
    · rw [hq]
      exact ⟨fun _ h1 => by simp at h1, fun _ _ => .inr (.inl ⟨d, rest, ht, hreset⟩)⟩
  | refused _ => cases hr

/-! ## After the end of a decode (R449) -/

theorem readsFrom_busy {s : State} {c : StreamCtx} (h : ReadsFrom s c) : s.state.busy = true := by
  cases h with
  | soi h | segments h | eoi h => rw [h]; rfl
  | ecs h _ => rw [needsBit_scan s h]; rfl

/-- What ERROR and DONE keep until START or a reset: the state, what has been emitted and taken, and the recorded error. -/
def SameEnd (s t : State) : Prop :=
  t.state = s.state ∧ t.raster = s.raster ∧ t.pixelsOut = s.pixelsOut ∧ t.pos = s.pos ∧ SameError s t

theorem SameEnd.refl (s : State) : SameEnd s s := ⟨rfl, rfl, rfl, rfl, rfl, rfl, rfl⟩

section
variable {s t : State}

/-- R333: in ERROR and DONE the engine does nothing. -/
theorem engineAction_of_ended (e : EngineAction s (.next t)) (h : s.state = .error ∨ s.state = .done) : t = s := by
  have hbusy : s.state.busy ≠ true := by rcases h with h | h <;> rw [h] <;> nofun
  have hscan : s.state ≠ .scan := by rcases h with h | h <;> rw [h] <;> nofun
  generalize hr : (Host.Outcome.next t : Result) = r at e
  cases e with
  | idle _ | hold _ => exact next_inj hr.symm
  | read hn => exact absurd (needsByte_busy hn) hbusy
  | stream c i hc _ => exact absurd (readsFrom_busy hc) hbusy
  | bit hn _ => exact absurd (needsBit_scan s hn) hscan
  | element _ hb | noSymbol hb => exact absurd (elementBits_cases s _ hb).1 hscan
  | loop hs _ | acDone hs _ _ | finish hs _ | mcu hs _ _ | skip hs _ _ _ => exact absurd hs hscan

/-- R449: in ERROR and DONE the host begins a decode, resets the block, or changes nothing of the ended decode. -/
theorem host_of_ended {a : HostAction} {j : Instr} (ha : HostCase a j) (e : exec j s = .next t)
    (h : s.state = .error ∨ s.state = .done) :
    SameEnd s t ∨
    (∃ d, a = busWrite 0x04#8 d ∧ d.getLsbD 1 = false ∧ d.getLsbD 0 = true ∧ t.state = .expectSoi) ∨
    (∃ d, a = busWrite 0x04#8 d ∧ d.getLsbD 1 = true ∧ t.state = .idle) := by
  cases ha with
  | start d hi ha h1 h0 =>
    cases (exec_start_of_idle hi (.inr h.symm)).symm.trans e
    exact .inr (.inl ⟨d, ha, h1, h0, rfl⟩)
  | softReset d _ ha h1 _ | softResetAndStart d _ ha h1 _ => cases e; exact .inr (.inr ⟨d, ha, h1, rfl⟩)
  | pixelAccept _ =>
    rcases execPixelAccept_cases s with ⟨hp, -⟩ | hr
    · rcases h with h | h <;> cases h.symm.trans (presenting_cases hp).1
    · cases hr.symm.trans e; exact .inl (SameEnd.refl s)
  | ctrlNop _ _ _ _ _ | irqEnWrite _ _ | irqAck _ _ | roWrite _ _ _ _ | regRead _ _ _ | streamByte _ _ _ =>
    cases e; exact .inl (SameEnd.refl s)

end

/-- Settles O58: the engine does nothing, and the host's other actions keep what the end has fixed. -/
theorem endedDecodesStayEnded : Obligations.EndedDecodesStayEnded := by
  intro s t h e
  have hc := step_case s
  rw [e] at hc
  generalize hr : (Host.Outcome.next t : Result) = r at hc
  cases hc with
  | engine _ _ ha | engineTurn _ _ _ ha =>
    subst hr
    cases engineAction_of_ended ha h
    exact .inl (SameEnd.refl s)
  | hwReset rest ht => cases hr; exact .inr (.inr (.inr ⟨rest, ht, rfl⟩))
  | host a rest j ht ha =>
    obtain hk | ⟨d, rfl, hstart⟩ | ⟨d, rfl, hreset⟩ := host_of_ended ha hr.symm h
    · exact .inl hk
    · exact .inr (.inl ⟨d, rest, ht, hstart⟩)
    · exact .inr (.inr (.inl ⟨d, rest, ht, hreset⟩))
  | refused _ => cases hr

end Sys2Proof.Machine
end

section
/-! The statement about the tables' hazards: outside SEGMENTS the engine writes none, and the host clears them only by START or a reset. -/

namespace Sys2Proof.Machine

/-! ## The tables over one action (R34, R35, R103) -/

/-- Both registries and their valid bits stay. -/
def SameTables (s t : State) : Prop :=
  t.qt = s.qt ∧ t.qtValid = s.qtValid ∧ t.htDc = s.htDc ∧ t.htDcValid = s.htDcValid ∧ t.htAc = s.htAc ∧
    t.htAcValid = s.htAcValid

/-- R70: no slot of a registry is valid. -/
def NoValidTable (s : State) : Prop :=
  s.qtValid = Vector.replicate 16 false ∧ s.htDcValid = Vector.replicate 16 false ∧
    s.htAcValid = Vector.replicate 16 false

/-- The two instructions whose processing writes a table (R103, R316, R318). -/
def writesTable : Instr → Bool
  | .dqt (.record _ _) | .dht _ _ => true
  | _ => false

theorem SameTables.refl (s : State) : SameTables s s := ⟨rfl, rfl, rfl, rfl, rfl, rfl⟩

theorem noValidTable_blockReset (s : State) : NoValidTable (blockReset s) := ⟨rfl, rfl, rfl⟩

section
variable {i : Instr} {s t : State}

/-- R103: only DQT and DHT write a table. -/
theorem StorageFrame.sameTables (f : StorageFrame i s t) (hi : writesTable i = false) : SameTables s t := by
  obtain ⟨hqt, hqtValid, -⟩ := f.quant (by rintro tq q rfl; cases hi)
  exact ⟨hqt, hqtValid, f.huff (by rintro L b rfl; cases hi)⟩

/-! ## The engine (R490: no segment is parsed in SCAN) -/

/-- Outside SEGMENTS the stream's bytes stand for no DQT and no DHT. -/
theorem decodeStream_writesTable {c : StreamCtx} (hc : ReadsFrom s c) (hs : s.state ≠ .segments)
    (hd : decodeStream c s.fetched = .instr i) : writesTable i = false := by
  cases hc with
  | soi _ => obtain ⟨a, b, rfl⟩ := decodeStream_soi _ _ hd; rfl
  | segments h => exact absurd h hs
  | eoi _ => obtain ⟨a, b, rfl⟩ := decodeStream_eoi _ _ hd; rfl
  | ecs _ _ => rcases decodeStream_ecs _ _ hd with ⟨b, rfl⟩ | rfl | ⟨n, rfl⟩ | ⟨cc, rfl⟩ <;> rfl

theorem elementBits_writesTable (hb : elementBits s = some (.instr i)) : writesTable i = false := by
  obtain ⟨-, hi⟩ := elementBits_instr s i hb
  cases hi <;> rfl

theorem readByte_sameTables (e : readByte s = .next t) : SameTables s t := by
  rcases readByte_cases s with ⟨-, h⟩ | ⟨-, -, h⟩ | ⟨b, last, rest, -, -, h⟩ <;> cases h.symm.trans e <;>
    exact SameTables.refl s

theorem finishBlock_sameTables (s : State) : SameTables s (finishBlock s) := by
  rcases finishBlock_cases s with e | ⟨f, e⟩ <;> rw [e]
  · exact SameTables.refl s
  · rcases nextBlock_cases (storeSamples (curComp s) (curBlock s) (inverseDct f) { s with coef := f }) with
      ⟨j, row, col, e⟩ | e <;> rw [e] <;> exact SameTables.refl s

theorem engine_sameTables (e : EngineAction s (.next t)) (hs : s.state ≠ .segments) : SameTables s t := by
  generalize hr : (Host.Outcome.next t : Result) = r at e
  cases e with
  | read _ => exact readByte_sameTables hr.symm
  | stream c i hc hd =>
    have f := exec_frame_of_read (decodeStream_not_host hd) hr.symm
    exact f.storage.sameTables (decodeStream_writesTable hc hs hd)
  | element i hb =>
    have f := exec_frame_of_read (elementBits_not_host hb) hr.symm
    exact f.storage.sameTables (elementBits_writesTable hb)
  | loop _ _ => cases hr; unfold loopTest; split <;> exact SameTables.refl s
  | finish _ _ => cases hr; exact finishBlock_sameTables s
  | mcu _ _ _ => cases hr; unfold nextMcu; split <;> exact SameTables.refl s
  | skip _ _ _ _ => cases hr; rw [nextPixel_eq_ite]; exact SameTables.refl s
  | idle _ | bit _ _ | noSymbol _ | acDone _ _ _ | hold _ => cases hr; exact SameTables.refl s

/-! ## The host (R490: no host path into the tables) -/

/-- What a host action can do to the tables: nothing, unless it is a START that is not ignored or a reset (R420 to R422). -/
theorem host_tables {a : HostAction} (ha : HostCase a i) (e : exec i s = .next t) :
    SameTables s t ∨
    (∃ d, a = busWrite 0x04#8 d ∧ d.getLsbD 0 = true ∧ (s.state = .idle ∨ s.state = .done ∨ s.state = .error)) ∨
    (∃ d, a = busWrite 0x04#8 d ∧ d.getLsbD 1 = true ∧ t = blockReset s) := by
  cases ha with
  | start d hi ha _ h0 =>
    rcases execStart_cases hi s with ⟨-, h⟩ | ⟨hs, h⟩ <;> cases h.symm.trans e
    · exact .inl (SameTables.refl s)
    · exact .inr (.inl ⟨d, ha, h0, hs⟩)
  | softReset d _ ha h1 _ | softResetAndStart d _ ha h1 _ => cases e; exact .inr (.inr ⟨d, ha, h1, rfl⟩)
  | pixelAccept _ => exact .inl ((frame_pixelAccept e).storage.sameTables rfl)
  | ctrlNop _ _ _ _ _ | irqEnWrite _ _ | irqAck _ _ | roWrite _ _ _ _ | regRead _ _ _ | streamByte _ _ _ =>
    cases e; exact .inl (SameTables.refl s)

/-! ## Every step -/

/-- R490: a step in SCAN leaves the tables, or it resets the block. -/
theorem step_tables_of_scan (hs : s.state = .scan) (e : step s = .next t) :
    SameTables s t ∨ (t.state = .idle ∧ NoValidTable t) := by
  have hns : s.state ≠ .segments := by rw [hs]; nofun
  have hc := step_case s
  rw [e] at hc
  generalize hr : (Host.Outcome.next t : Result) = r at hc
  cases hc with
  | engine _ _ ha => subst hr; exact .inl (engine_sameTables ha hns)
  | engineTurn rest _ _ ha => subst hr; exact .inl (engine_sameTables (s := { s with turns := rest }) ha hns)
  | hwReset rest _ => cases hr; exact .inr ⟨rfl, noValidTable_blockReset _⟩
  | host a rest i _ ha =>
    rcases host_tables ha hr.symm with h | ⟨d, -, -, h⟩ | ⟨d, -, -, rfl⟩
    · exact .inl h
    · rcases h with h | h | h <;> cases hs.symm.trans h
    · exact .inr ⟨rfl, noValidTable_blockReset _⟩
  | refused _ => cases hr

/-- A host turn that answers a next state has run one of the host's instructions. -/
theorem hostCase_of_step {a : HostAction} {rest : List Turn} (ht : s.turns = .host a :: rest) (e : step s = .next t) :
    ∃ i, HostCase a i ∧ exec i { s with turns := rest } = .next t := by
  rw [step_turn s _ rest ht, turnStep] at e
  split at e
  · exact ⟨_, decodeHost_case a _ ‹_›, e⟩
  · cases e

end

/-- Settles O55: in SCAN neither the engine nor the host writes a table, and of the register accesses only a CTRL write with
a command bit can. -/
theorem tablesAreReadOnlyDuringTheScan : Obligations.TablesAreReadOnlyDuringTheScan := by
  refine ⟨fun s t => step_tables_of_scan, fun s t a rest ht hcmd e => ?_⟩
  obtain ⟨i, ha, he⟩ := hostCase_of_step ht e
  rcases host_tables ha he with h | ⟨d, had, h0, -⟩ | ⟨d, had, h1, -⟩
  · exact h
  · cases had; cases (hcmd rfl rfl).1.symm.trans h0
  · cases had; cases (hcmd rfl rfl).2.symm.trans h1

end Sys2Proof.Machine
end
